-- ==== Sys2Proof/Word.lean ====
section
/-! DEFINITION. The widths of 00_scope.md rule R7 as bit vectors. -/

namespace Sys2Proof

/-- A scalar register, a host-visible register, a command word (`XLEN` = 32, R7, R90). -/
abbrev Word := BitVec 32

/-- An element cell of `IBUF`, `OBUF`, `p0..p3` (`ELW` = 17, R7). -/
abbrev Elem := BitVec 17

/-- A cell of `IDS` (10_state.md R38). -/
abbrev FragId := BitVec 16

/-- A property location and `OFFSET` (`LOCW` = 64, R7). -/
abbrev Loc := BitVec 64

/-- A property mark (`MARKW` = 32, R7). -/
abbrev Mark := BitVec 32

end Sys2Proof
end

