-- ==== Sys2Proof/Config.lean ====
section
/-! DEFINITION. What an implementation of the engine fixes: the parameters of 00_scope.md rule R7, and the two constants
the spec fixes for every implementation. The values are held in the machine's state (`State.par`), so that a statement
about every state is a statement about every configuration. -/

namespace Sys2Proof

/-- The parameters of R7. `PCAP` is not one of them: it is `2·NMAX`. `groot1` and `groot2` are `GROOT(1)` and `GROOT(2)`. -/
structure Params where
  nmax : Nat
  pmax : Nat
  propcap : Nat
  groot1 : Nat
  groot2 : Nat
deriving DecidableEq, Repr

/-- The defaults of R7. -/
def Params.default : Params :=
  { nmax := 65536, pmax := 1024, propcap := 1024, groot1 := 3, groot2 := 3 }

/-- `PCAP = 2·NMAX` (R7): coefficients per polynomial register. -/
def Params.pcap (c : Params) : Nat := 2 * c.nmax

/-- `GROOT(ws)` (R7). Only word sizes 1 and 2 have a field. -/
def Params.groot (c : Params) (ws : Nat) : Nat := if ws = 1 then c.groot1 else c.groot2

/-- q = 2^(8·ws) + 1 (R6). -/
def fieldCard (ws : Nat) : Nat := 2 ^ (8 * ws) + 1

/-- The constraints of R7: a configuration that breaks one is refused (93_implementation_defined.md U54). The upper bounds
on `PMAX` and `PROPCAP` are DEDUCED from the 32-bit read-back registers `CAP_PMAX`, `CAP_PROP` of R27 (log entry 3). -/
def Params.wf (c : Params) : Bool :=
  (List.range 17).any (fun e => decide (1 ≤ e) && decide (c.nmax = 2 ^ e)) &&
  decide (1 ≤ c.pmax ∧ c.pmax < 2 ^ 32) &&
  decide (c.pmax ≤ c.propcap ∧ c.propcap < 2 ^ 32) &&
  decide (1 ≤ c.groot1 ∧ c.groot1 < fieldCard 1) &&
  decide (1 ≤ c.groot2 ∧ c.groot2 < fieldCard 2)

/-- The identity word in `ID` (10_state.md R28). -/
def idWord : Word := 0x464E5431

/-- The only mark with a meaning (R6, 44_property.md R231). -/
def oorMark : Mark := 1

end Sys2Proof
end

