-- ==== Sys2Proof/Syntax.lean ====
section
/-! DEFINITION. The 41 commands of 30_encoding.md rule R95, one constructor per row of spec/opcode_table.json, in the
table's order. The arguments stand in the order of the fields `d`, `a`, `b`, `c` of the word (R91). -/

namespace Sys2Proof

/-- A scalar register number: `x0` to `x15` (R93). -/
abbrev XReg := Fin 16

/-- A polynomial register number: `p0` to `p3` (R93). -/
abbrev PReg := Fin 4

inductive Instr
  | li (d : XReg) (imm : Word)
  | fadd (d a b : XReg)
  | fsub (d a b : XReg)
  | fmul (d a b : XReg)
  | fdiv (d a b : XReg)
  | finv (d a : XReg)
  | fexp (d a b : XReg)
  | fneg (d a : XReg)
  | fcard (d : XReg)
  | fproot (d : XReg)
  | fnroot (d a : XReg)
  | fclhc (d a : XReg)
  | fjac (d a : XReg)
  | pset (d : PReg) (a b : XReg)
  | pget (d : XReg) (a : PReg) (b : XReg)
  | pmul (d a : PReg)
  | pder (d : PReg)
  | pneg (d : PReg)
  | peval (d : XReg) (a : PReg) (b : XReg)
  | pcopy (d a : PReg)
  | pclr (d : PReg)
  | fft
  | ifft
  | fftp
  | ifftp
  | config
  | nout (d : XReg)
  | enc
  | encp
  | dec
  | decp
  | daddd
  | daddp
  | dbuild
  | pradd (d a b c : XReg)
  | prmk (d a b c : XReg)
  | prnext (a : XReg)
  | prrew (a : XReg)
  | prclr (a : XReg)
  | prclra
  | prlen (d a : XReg)
deriving DecidableEq, Repr

/-- A host event: what reaches the engine from outside, one at a time (20_memory.md R62, R66; 70_reset_and_hazards.md R270).
`size` is the access size in bytes; `value` is the data of a 32-bit write, the only kind of write that is admitted. -/
inductive HostEvent
  | read (offset size : Nat)
  | write (offset size : Nat) (value : Word)
  | hardReset
deriving DecidableEq, Repr

end Sys2Proof
end

