-- ==== Sys2Proof/WellFormed.lean ====
section
/-! DEFINITION. Which instructions have a word, and which host accesses the engine admits. Register numbers are in range
by their types (`Fin 16`, `Fin 4`); what is left to check is the immediate of `LI`. -/

namespace Sys2Proof

/-- `LI`'s immediate has 20 bits (30_encoding.md R92, R94). Every other command has only register fields, which are in
range by type. -/
def Instr.wellFormed : Instr → Bool
  | .li _ imm => decide (imm.toNat < 2 ^ 20)
  | .fadd _ _ _ | .fsub _ _ _ | .fmul _ _ _ | .fdiv _ _ _ | .finv _ _ | .fexp _ _ _ | .fneg _ _ => true
  | .fcard _ | .fproot _ | .fnroot _ _ | .fclhc _ _ | .fjac _ _ => true
  | .pset _ _ _ | .pget _ _ _ | .pmul _ _ | .pder _ | .pneg _ | .peval _ _ _ | .pcopy _ _ | .pclr _ => true
  | .fft | .ifft | .fftp | .ifftp => true
  | .config | .nout _ | .enc | .encp | .dec | .decp | .daddd | .daddp | .dbuild => true
  | .pradd _ _ _ _ | .prmk _ _ _ _ | .prnext _ | .prrew _ | .prclr _ | .prclra | .prlen _ _ => true

/-- The only admitted access: 32 bits, aligned, inside the window (20_memory.md R62). -/
def admitted (offset size : Nat) : Bool :=
  decide (size = 4) && decide (offset % 4 = 0) && decide (offset < 0x100)

/-- A host event the engine serves. -/
def HostEvent.wellFormed : HostEvent → Bool
  | .read offset size => admitted offset size
  | .write offset size _ => admitted offset size
  | .hardReset => true

end Sys2Proof
end

