-- ==== Sys2Proof/Decode.lean ====
section
/-! DEFINITION. The decoder and the encoder, from 30_encoding.md rules R90 to R97. Decoding is total on 32-bit words and
reads no state (R96); a word that is no command is rejected with the reason R97 gives. -/

namespace Sys2Proof

/-- Why a word is no command (R97). -/
inductive IllegalWord
  /-- bits 31:24 are no opcode of R95 -/
  | unknownOpcode
  /-- a field the command does not use, or bits 7:0 of a format R word, are not zero -/
  | nonzeroUnused
  /-- a polynomial register field is above 3 -/
  | polyField
deriving DecidableEq, Repr

/-- Bits 31:24 (R90). -/
def opField (w : Word) : Nat := w.toNat / 2 ^ 24

/-- Bits 23:20 (R91). -/
def dField (w : Word) : Nat := w.toNat / 2 ^ 20 % 16

/-- Bits 19:16 (R91). -/
def aField (w : Word) : Nat := w.toNat / 2 ^ 16 % 16

/-- Bits 15:12 (R91). -/
def bField (w : Word) : Nat := w.toNat / 2 ^ 12 % 16

/-- Bits 11:8 (R91). -/
def cField (w : Word) : Nat := w.toNat / 2 ^ 8 % 16

/-- Bits `n-1:0`: the part of the word below the lowest field a format uses. -/
def lowBits (w : Word) (n : Nat) : Nat := w.toNat % 2 ^ n

/-- A 4-bit field as a scalar register number (R93). -/
def xregOf (f : Nat) : XReg := Fin.ofNat 16 f

/-- Format I (R92): `d`, `imm20`, the immediate zero-extended (R94). -/
def fmtI (w : Word) (mk : XReg → Word → Instr) : Except IllegalWord Instr :=
  .ok (mk (xregOf (dField w)) (BitVec.ofNat 32 (lowBits w 20)))

/-- Format R with `d`, `a`, `b`, `c` scalar. -/
def fmtXXXX (w : Word) (mk : XReg → XReg → XReg → XReg → Instr) : Except IllegalWord Instr :=
  if lowBits w 8 = 0 then .ok (mk (xregOf (dField w)) (xregOf (aField w)) (xregOf (bField w)) (xregOf (cField w)))
  else .error .nonzeroUnused

/-- Format R with `d`, `a`, `b` scalar. -/
def fmtXXX (w : Word) (mk : XReg → XReg → XReg → Instr) : Except IllegalWord Instr :=
  if lowBits w 12 = 0 then .ok (mk (xregOf (dField w)) (xregOf (aField w)) (xregOf (bField w)))
  else .error .nonzeroUnused

/-- Format R with `d`, `a` scalar. -/
def fmtXX (w : Word) (mk : XReg → XReg → Instr) : Except IllegalWord Instr :=
  if lowBits w 16 = 0 then .ok (mk (xregOf (dField w)) (xregOf (aField w))) else .error .nonzeroUnused

/-- Format R with `d` scalar. -/
def fmtX (w : Word) (mk : XReg → Instr) : Except IllegalWord Instr :=
  if lowBits w 20 = 0 then .ok (mk (xregOf (dField w))) else .error .nonzeroUnused

/-- Format R with `a` scalar and `d` unused. -/
def fmtA (w : Word) (mk : XReg → Instr) : Except IllegalWord Instr :=
  if dField w = 0 ∧ lowBits w 16 = 0 then .ok (mk (xregOf (aField w))) else .error .nonzeroUnused

/-- Format R with no field. -/
def fmtNone (w : Word) (i : Instr) : Except IllegalWord Instr :=
  if lowBits w 24 = 0 then .ok i else .error .nonzeroUnused

/-- A polynomial register field must be at most 3 (R91). -/
def pregOf (f : Nat) (k : PReg → Except IllegalWord Instr) : Except IllegalWord Instr :=
  if h : f < 4 then k ⟨f, h⟩ else .error .polyField

/-- Format R with `d` polynomial, `a` and `b` scalar (`PSET`). -/
def fmtPXX (w : Word) (mk : PReg → XReg → XReg → Instr) : Except IllegalWord Instr :=
  pregOf (dField w) fun d =>
    if lowBits w 12 = 0 then .ok (mk d (xregOf (aField w)) (xregOf (bField w))) else .error .nonzeroUnused

/-- Format R with `a` polynomial, `d` and `b` scalar (`PGET`, `PEVAL`). -/
def fmtXPX (w : Word) (mk : XReg → PReg → XReg → Instr) : Except IllegalWord Instr :=
  pregOf (aField w) fun a =>
    if lowBits w 12 = 0 then .ok (mk (xregOf (dField w)) a (xregOf (bField w))) else .error .nonzeroUnused

/-- Format R with `d` and `a` polynomial (`PMUL`, `PCOPY`). -/
def fmtPP (w : Word) (mk : PReg → PReg → Instr) : Except IllegalWord Instr :=
  pregOf (dField w) fun d => pregOf (aField w) fun a =>
    if lowBits w 16 = 0 then .ok (mk d a) else .error .nonzeroUnused

/-- Format R with `d` polynomial (`PDER`, `PNEG`, `PCLR`). -/
def fmtP (w : Word) (mk : PReg → Instr) : Except IllegalWord Instr :=
  pregOf (dField w) fun d => if lowBits w 20 = 0 then .ok (mk d) else .error .nonzeroUnused

/-- R96, over the opcode map of R95: one line per row. -/
def decode (w : Word) : Except IllegalWord Instr :=
  match opField w with
  | 0x01 => fmtI w .li
  | 0x10 => fmtXXX w .fadd
  | 0x11 => fmtXXX w .fsub
  | 0x12 => fmtXXX w .fmul
  | 0x13 => fmtXXX w .fdiv
  | 0x14 => fmtXX w .finv
  | 0x15 => fmtXXX w .fexp
  | 0x16 => fmtXX w .fneg
  | 0x17 => fmtX w .fcard
  | 0x18 => fmtX w .fproot
  | 0x19 => fmtXX w .fnroot
  | 0x1A => fmtXX w .fclhc
  | 0x1B => fmtXX w .fjac
  | 0x20 => fmtPXX w .pset
  | 0x21 => fmtXPX w .pget
  | 0x22 => fmtPP w .pmul
  | 0x23 => fmtP w .pder
  | 0x24 => fmtP w .pneg
  | 0x25 => fmtXPX w .peval
  | 0x26 => fmtPP w .pcopy
  | 0x27 => fmtP w .pclr
  | 0x30 => fmtNone w .fft
  | 0x31 => fmtNone w .ifft
  | 0x32 => fmtNone w .fftp
  | 0x33 => fmtNone w .ifftp
  | 0x40 => fmtNone w .config
  | 0x41 => fmtX w .nout
  | 0x42 => fmtNone w .enc
  | 0x43 => fmtNone w .encp
  | 0x44 => fmtNone w .dec
  | 0x45 => fmtNone w .decp
  | 0x46 => fmtNone w .daddd
  | 0x47 => fmtNone w .daddp
  | 0x48 => fmtNone w .dbuild
  | 0x50 => fmtXXXX w .pradd
  | 0x51 => fmtXXXX w .prmk
  | 0x52 => fmtA w .prnext
  | 0x53 => fmtA w .prrew
  | 0x54 => fmtA w .prclr
  | 0x55 => fmtNone w .prclra
  | 0x56 => fmtXX w .prlen
  | _ => .error .unknownOpcode

/-- A format R word from its fields (R91); an unused field is given as 0. -/
def wordR (op d a b c : Nat) : Word :=
  BitVec.ofNat 32 (op * 2 ^ 24 + d * 2 ^ 20 + a * 2 ^ 16 + b * 2 ^ 12 + c * 2 ^ 8)

/-- A format I word (R92): 20 bits of the immediate are held. -/
def wordI (op d imm : Nat) : Word := BitVec.ofNat 32 (op * 2 ^ 24 + d * 2 ^ 20 + imm % 2 ^ 20)

/-- The opcode column of R95. -/
def Instr.opcode : Instr → Nat
  | .li _ _ => 0x01
  | .fadd _ _ _ => 0x10
  | .fsub _ _ _ => 0x11
  | .fmul _ _ _ => 0x12
  | .fdiv _ _ _ => 0x13
  | .finv _ _ => 0x14
  | .fexp _ _ _ => 0x15
  | .fneg _ _ => 0x16
  | .fcard _ => 0x17
  | .fproot _ => 0x18
  | .fnroot _ _ => 0x19
  | .fclhc _ _ => 0x1A
  | .fjac _ _ => 0x1B
  | .pset _ _ _ => 0x20
  | .pget _ _ _ => 0x21
  | .pmul _ _ => 0x22
  | .pder _ => 0x23
  | .pneg _ => 0x24
  | .peval _ _ _ => 0x25
  | .pcopy _ _ => 0x26
  | .pclr _ => 0x27
  | .fft => 0x30
  | .ifft => 0x31
  | .fftp => 0x32
  | .ifftp => 0x33
  | .config => 0x40
  | .nout _ => 0x41
  | .enc => 0x42
  | .encp => 0x43
  | .dec => 0x44
  | .decp => 0x45
  | .daddd => 0x46
  | .daddp => 0x47
  | .dbuild => 0x48
  | .pradd _ _ _ _ => 0x50
  | .prmk _ _ _ _ => 0x51
  | .prnext _ => 0x52
  | .prrew _ => 0x53
  | .prclr _ => 0x54
  | .prclra => 0x55
  | .prlen _ _ => 0x56

/-- The word of an instruction: R95's opcode, the fields it uses at their places (R91, R92), zero elsewhere. -/
def encode (i : Instr) : Word :=
  match i with
  | .li d imm => wordI i.opcode d imm.toNat
  | .fadd d a b | .fsub d a b | .fmul d a b | .fdiv d a b | .fexp d a b => wordR i.opcode d a b 0
  | .finv d a | .fneg d a | .fnroot d a | .fclhc d a | .fjac d a | .prlen d a => wordR i.opcode d a 0 0
  | .fcard d | .fproot d | .nout d => wordR i.opcode d 0 0 0
  | .pset d a b => wordR i.opcode d a b 0
  | .pget d a b | .peval d a b => wordR i.opcode d a b 0
  | .pmul d a | .pcopy d a => wordR i.opcode d a 0 0
  | .pder d | .pneg d | .pclr d => wordR i.opcode d 0 0 0
  | .fft | .ifft | .fftp | .ifftp => wordR i.opcode 0 0 0 0
  | .config | .enc | .encp | .dec | .decp | .daddd | .daddp | .dbuild | .prclra => wordR i.opcode 0 0 0 0
  | .pradd d a b c | .prmk d a b c => wordR i.opcode d a b c
  | .prnext a | .prrew a | .prclr a => wordR i.opcode 0 a 0 0

/-- The host's reading of one row of the opcode table: every command is one 32-bit word (R90), so bits of `w` above 31
belong to no command and `nbits` is always 32. -/
def decodeTableWord (_nbits w : Nat) : Option Instr :=
  if w < 2 ^ 32 then (decode (BitVec.ofNat 32 w)).toOption else none

end Sys2Proof
end

