-- ==== Sys2Proof/Machine/State.lean ====
section
/-! DEFINITION. The state of the engine (10_state.md rules R20 to R43), its reset value, and the reasons a step can stop.
Everything R20 lists is here under its own name; three fields at the end are the model's own (`par`, `port`, `reads`). -/

namespace Sys2Proof.Machine

/-- A sparse memory: (index, value) pairs, indices strictly rising, no pair whose value is what an unlisted index reads
as (`Memory.wf` in Machine/Ops.lean). Every memory of the engine resets to one value everywhere (R43), and that value is
what an unlisted index reads as. -/
abbrev Memory (ν : Type) := List (Nat × ν)

/-- `IBUF` and `OBUF`: a memory of rows, a row being the memory of one position's lanes (R37). -/
abbrev Grid := Memory (Memory Elem)

/-- One property entry: a location and a mark (R39). -/
structure PropEntry where
  loc : Loc
  mark : Mark
deriving DecidableEq, Repr

/-- The property list of one position with its cursor: `PROP[pos]`, `PCUR[pos]`; `PLEN[pos]` is the list's length (R39). -/
structure PropList where
  entries : List PropEntry
  cursor : Nat
deriving DecidableEq, Repr

/-- The empty property list: what a position holds at reset (R43). -/
def emptyProps : PropList := { entries := [], cursor := 0 }

/-- The staging registers `CFG_WS`, `CFG_K`, `CFG_M`, `CFG_P` (R32). -/
structure CfgRegs where
  ws : Word
  k : Word
  m : Word
  p : Word
deriving DecidableEq, Repr

/-- The eight values of the active instance (R31), at the widths R31 gives them. -/
structure InstRegs where
  ws : BitVec 2
  k : BitVec 17
  m : BitVec 17
  p : Word
  q : BitVec 17
  g : BitVec 17
  n : BitVec 17
  r : BitVec 17
deriving DecidableEq, Repr

/-- The recorded error `ERR`, `ERRCODE`, `ERRINFO`, `ERRCMD` (R34). -/
structure ErrorRegs where
  err : Bool
  code : BitVec 4
  info : Word
  cmd : Word
deriving DecidableEq, Repr

/-- The window selectors `MEMSEL`, `MEMLANE`, `MEMIDX`, `PRSEL`, `PRIDX` (R40). -/
structure Selectors where
  memsel : BitVec 3
  memlane : Word
  memidx : Word
  prsel : Word
  pridx : Word
deriving DecidableEq, Repr

/-- The complete architectural state (R20), and after it the model's own three fields. -/
structure State where
  /-- `x0` .. `x15` (R21) -/
  x : Vector Word 16
  /-- `CFG_*` (R32) -/
  cfg : CfgRegs
  /-- `READY` (R26, R31) -/
  ready : Bool
  /-- `WS, K, M, P, Q, G, N, R` (R31) -/
  inst : InstRegs
  /-- `OFFSET` (R33) -/
  offset : Loc
  /-- `ERR, ERRCODE, ERRINFO, ERRCMD` (R34) -/
  error : ErrorRegs
  /-- `p0` .. `p3` (R36) -/
  poly : Vector (Memory Elem) 4
  /-- `IBUF` (R37) -/
  ibuf : Grid
  /-- `OBUF` (R37) -/
  obuf : Grid
  /-- `IDS` (R38) -/
  ids : Memory FragId
  /-- `PROP`, `PLEN`, `PCUR` (R39) -/
  prop : Memory PropList
  /-- `MEMSEL, MEMLANE, MEMIDX, PRSEL, PRIDX` (R40) -/
  win : Selectors
  /-- the model's own: the parameters of 00_scope.md R7, which no step changes (log entry 3) -/
  par : Params
  /-- the model's own: host events not yet served, oldest first (log entry 1) -/
  port : List HostEvent
  /-- the model's own: what the served reads answered, oldest first (log entry 2) -/
  reads : List Word
deriving DecidableEq, Repr

def CfgRegs.zero : CfgRegs := { ws := 0, k := 0, m := 0, p := 0 }

/-- No instance: all eight values are 0 (R31). -/
def InstRegs.zero : InstRegs := { ws := 0, k := 0, m := 0, p := 0, q := 0, g := 0, n := 0, r := 0 }

/-- No error recorded: all four registers are 0 (R34). -/
def ErrorRegs.zero : ErrorRegs := { err := false, code := 0, info := 0, cmd := 0 }

def Selectors.zero : Selectors := { memsel := 0, memlane := 0, memidx := 0, prsel := 0, pridx := 0 }

/-- The state right after reset of an engine with parameters `par` (R43, 70_reset_and_hazards.md R270): every register,
cell and selector 0, no instance, no error, every property list empty with cursor 0. -/
def State.resetOf (par : Params) : State :=
  { x := Vector.replicate 16 0
    cfg := CfgRegs.zero
    ready := false
    inst := InstRegs.zero
    offset := 0
    error := ErrorRegs.zero
    poly := Vector.replicate 4 []
    ibuf := []
    obuf := []
    ids := []
    prop := []
    win := Selectors.zero
    par := par
    port := []
    reads := [] }

/-- The engine with the default parameters of R7, right after reset. -/
def State.reset : State := State.resetOf Params.default

/-- The errors a command can raise: the closed list of (kind, `ERRINFO`) pairs of 60_exceptions.md R256, in its order.
Raising one is no stop: it is recorded in the error registers (R246). Codes and details are `Err.code`, `Err.info` in
Machine/Ops.lean. -/
inductive Err
  /-- (1, 1) `CONFIG`: word size not 1 or 2 -/
  | configWordSize
  /-- (1, 2) `CONFIG`: n_data = 0 -/
  | configNoData
  /-- (1, 3) `CONFIG`: n_parities = 0 -/
  | configNoParities
  /-- (1, 4) `CONFIG`: pkt_size 0 or above PMAX -/
  | configPktSize
  /-- (1, 5) `CONFIG`: n_data + n_parities > q − 1 -/
  | configTooMany
  /-- (1, 6) `CONFIG`: n above NMAX -/
  | configCodeLength
  /-- (2, 0) `CONFIG`: the Jacobi symbol of GROOT is not −1 -/
  | field
  /-- (3, 1) `FDIV`: reduced divisor 0 -/
  | divideByZero
  /-- (3, 2) `FINV`: reduced argument 0 -/
  | inverseOfZero
  /-- (3, 3) `DEC`, `DECP`: fragment ids not pairwise distinct -/
  | duplicateIds
  /-- (4, 0) `DADDD`: always, when READY = 1 -/
  | nonSystematic
  /-- (5, 1) `FNROOT`: n is 0 or does not divide q − 1 -/
  | rootOrder
  /-- (5, 2) `FCLHC`: m > q − 1 -/
  | codeLength
  /-- (5, 3) `DEC`, `DECP`: a fragment id ≥ N -/
  | fragmentId
  /-- (5, 4) property commands: position ≥ NMAX -/
  | position
  /-- (6, 1) `PSET`: degree ≥ PCAP -/
  | polyDegree
  /-- (6, 2) `PMUL`: degree of the product ≥ PCAP -/
  | productDegree
  /-- (6, 3) `PRADD`, `ENC`, `ENCP`: a property list would exceed PROPCAP -/
  | propListFull
  /-- (7, 0) the word written to `CMD` is no command -/
  | illegalCommand
  /-- (8, 0) the command needs an instance and READY = 0 -/
  | notReady
deriving DecidableEq, Repr

/-- Why the machine stops with a fault. An error of a COMMAND is no such fault: it is recorded in the error registers and
the machine goes on (60_exceptions.md R246). -/
inductive Fault
  /-- Raised by the step that would serve a host access which is not a 32-bit aligned access inside the window: a bus
  error, for which 20_memory.md R62 says a model gives no step. Safe: the machine stops where the hardware goes on. -/
  | busError
deriving DecidableEq, Repr

/-- Why a step is refused. -/
inductive Refusal
  /-- Answered by an arm of `exec` whose instruction has no meaning yet. No arm does. Safe. -/
  | notModelled (mnemonic : String)
  /-- Answered by a step of a machine whose parameters break the constraints of 00_scope.md R7, as
  93_implementation_defined.md U54 says. Safe: no such engine exists. -/
  | badParameters
deriving DecidableEq, Repr

/-- What a meaning or a step answers. -/
abbrev Outcome := Host.Outcome State Fault Refusal

end Sys2Proof.Machine
end

