-- ==== Sys2Proof/Machine/Arith.lean ====
section
/-! DEFINITION. The arithmetic of the engine over plain numbers: the field functions of 00_scope.md R10, the roots and the
code length of 40_field.md R131 and R132, the transforms of 42_fft.md R170 and the interpolation of 43_coder.md R192.
The functions take field elements, numbers already in [0, q). Where the spec fixes a value and leaves the method open
(R126, R127, R156, R170, R192) the method here is one that a kernel can run (log entries 7 and 8). -/

namespace Sys2Proof.Machine

/-- `fadd` (R10, R122). -/
def fadd (q a b : Nat) : Nat := (a + b) % q

/-- `fsub` (R10, R123). -/
def fsub (q a b : Nat) : Nat := (a + (q - b)) % q

/-- `fmul` (R10, R124). -/
def fmul (q a b : Nat) : Nat := (a * b) % q

/-- `fneg` (R10, R128): 0 for 0, q − a otherwise. -/
def fneg (q a : Nat) : Nat := (q - a) % q

/-- A square, its argument computed once. -/
def fsquare (q a : Nat) : Nat := fmul q a a

/-- Square and multiply (R127) over the binary digits of `e`; `n` bounds how many digits there are. -/
def fpowDigits (q b : Nat) : Nat → Nat → Nat
  | 0, _ => 1 % q
  | n + 1, e =>
    if e = 0 then 1 % q
    else if e % 2 = 1 then fmul q (fsquare q (fpowDigits q b n (e / 2))) b
    else fsquare q (fpowDigits q b n (e / 2))

/-- `fpow` (R10, R127): b^e mod q, b^0 = 1. -/
def fpow (q b e : Nat) : Nat := fpowDigits q b (Nat.log2 e + 1) e

/-- `finv` (R10, R126): for a prime q and a ≠ 0 the inverse is a^(q−2) (93_implementation_defined.md G1; log entry 7). -/
def finv (q a : Nat) : Nat := fpow q a (q - 2)

/-- `nth_root(n)` (R131): g^((q−1)/n). -/
def nthRoot (q g n : Nat) : Nat := fpow q g ((q - 1) / n)

/-- `code_len_high_compo(m)` (R132): the least power of two that is at least m. -/
def codeLen (m : Nat) : Nat := if m ≤ 1 then 1 else 2 ^ (Nat.log2 (m - 1) + 1)

/-- The Jacobi symbol of u modulo q as R133 shows it: 0, 1, and −1 as 0xFFFFFFFF. -/
def jacobiWord (q u : Nat) : Word :=
  if u = 0 then 0x00000000 else if fpow q u ((q - 1) / 2) = 1 then 0x00000001 else 0xFFFFFFFF

/-- Σ c_i·v^i mod q for the coefficient list c_0, c_1, ..., by Horner's rule (R156). -/
def horner (q : Nat) (cs : List Nat) (v : Nat) : Nat :=
  cs.foldr (fun c acc => (acc * v + c) % q) 0

/-- Σ c·v^e mod q over a list of terms (e, c). -/
def evalTerms (q : Nat) (terms : List (Nat × Nat)) (v : Nat) : Nat :=
  terms.foldr (fun t acc => fadd q (fmul q t.2 (fpow q v t.1)) acc) 0

/-- The forward transform (R170): A_j = Σ_i a_i·r^(i·j) mod q for j < n, which is the value at r^j. A vector shorter than
n stands for itself padded with zeros (43_coder.md R189 (b)). `inverse` undoes it (42_fft.md R175;
`Sys2Proof.Machine.inverse_forward` in Laws/Transforms.lean). -/
def forward (q r n : Nat) (a : List Nat) : List Nat :=
  (List.range n).map fun j => horner q a (fpow q r j)

/-- The inverse transform (R170). `forward` undoes it (42_fft.md R175; `Sys2Proof.Machine.forward_inverse` in
Laws/Transforms.lean). -/
def inverse (q r n : Nat) (a : List Nat) : List Nat :=
  (List.range n).map fun i => fmul q (finv q (n % q)) (horner q a (fpow q (finv q r) i))

/-- The coefficients of C(x)·(x − z) from those of C (R192 step 3). -/
def mulRoot (q z : Nat) (cs : List Nat) : List Nat :=
  List.zipWith (fun up here => fsub q up (fmul q z here)) (0 :: cs) (cs ++ [0])

/-- A(x) = Π (x − z) over a list of points, by iterated multiplication starting from A = 1 (R192 step 3). -/
def masterPoly (q : Nat) (zs : List Nat) : List Nat :=
  zs.foldl (fun acc z => mulRoot q z acc) [1 % q]

/-- The derivative of a coefficient list; `j` is the degree of the list's head (R192 step 4, 41_poly.md R154). -/
def deriveFrom (q : Nat) : Nat → List Nat → List Nat
  | _, [] => []
  | j, c :: cs => fmul q (j % q) c :: deriveFrom q (j + 1) cs

/-- A'(x) (R192 step 4). -/
def derive (q : Nat) (cs : List Nat) : List Nat := deriveFrom q 1 cs.tail

/-- The numerators n_i = y_i / A'(x_i) (R192 step 5). -/
def numerators (q : Nat) (xs ys : List Nat) : List Nat :=
  List.zipWith (fun x y => fmul q y (finv q (horner q (derive q (masterPoly q xs)) x))) xs ys

/-- −S[t] = −N'(r^(−(t+1))), with N'(x) = Σ n_i·x^(f_i) given by its terms (R192 steps 6 and 7). -/
def negS (q r : Nat) (terms : List (Nat × Nat)) (t : Nat) : Nat :=
  fneg q (evalTerms q terms (fpow q (finv q r) (t + 1)))

/-- Coefficient i of the product of two coefficient lists: Σ_{t ≤ i} a_t·b_{i−t} mod q (R192 step 8). -/
def convAt (q : Nat) (a b : List Nat) (i : Nat) : Nat :=
  (List.range (i + 1)).foldr (fun t acc => fadd q (fmul q (a.getD t 0) (b.getD (i - t) 0)) acc) 0

/-- `lagrange(f, y)` (R192): the k coefficients recovered from the fragment ids f and the values y. Of the S[t] only the
first k reach the output. -/
def lagrange (q r : Nat) (f y : List Nat) : List Nat :=
  let xs := f.map (fpow q r)
  let terms := List.zip f (numerators q xs y)
  let s := (List.range f.length).map (negS q r terms)
  (List.range f.length).map (convAt q s (masterPoly q xs))

end Sys2Proof.Machine
end

