-- ==== Sys2Proof/Machine/Ops.lean ====
section
/-! DEFINITION. The named operations over memories and registers: reading and writing a sparse memory, a grid, a register;
fault entry and the return from it, once for every command (60_exceptions.md R246, R248); reset. -/

namespace Sys2Proof.Machine

/-! ### Sparse memories -/

/-- What a memory holds at index `k`; an index that is not listed reads as `d`, its reset value (10_state.md R43). -/
def Memory.read {ν : Type} (d : ν) : Memory ν → Nat → ν
  | [], _ => d
  | (i, v) :: m, k => if k = i then v else Memory.read d m k

/-- Write `v` at index `k`, keeping the canonical form: writing `d` removes the entry. -/
def Memory.write {ν : Type} [DecidableEq ν] (d : ν) : Memory ν → Nat → ν → Memory ν
  | [], k, v => if v = d then [] else [(k, v)]
  | (i, u) :: m, k, v =>
    if k < i then (if v = d then (i, u) :: m else (k, v) :: (i, u) :: m)
    else if k = i then (if v = d then m else (i, v) :: m)
    else (i, u) :: Memory.write d m k v

/-- The canonical form: indices strictly rising, no entry equal to what an unlisted index reads as. -/
abbrev Memory.wf {ν : Type} [DecidableEq ν] (d : ν) (m : Memory ν) : Prop :=
  (m.map Prod.fst).Pairwise (· < ·) ∧ ∀ e ∈ m, e.2 ≠ d

/-- The cell `[pos][lane]` of `IBUF` or `OBUF` (R37). -/
def Grid.read (g : Grid) (pos lane : Nat) : Elem := Memory.read 0 (Memory.read [] g pos) lane

/-- `[pos][lane] <- v`. -/
def Grid.write (g : Grid) (pos lane : Nat) (v : Elem) : Grid :=
  Memory.write [] g pos (Memory.write 0 (Memory.read [] g pos) lane v)

/-- The canonical form of a grid: no row listed that is all zero, every row in canonical form. -/
abbrev Grid.wf (g : Grid) : Prop := Memory.wf [] g ∧ ∀ e ∈ g, Memory.wf (0 : Elem) e.2

/-- Write the values `vs` to lane `lane` of the positions `pos`, `pos + 1`, ... -/
def Grid.writeColumn (g : Grid) (lane : Nat) : Nat → List Nat → Grid
  | _, [] => g
  | pos, v :: vs => Grid.writeColumn (Grid.write g pos lane (BitVec.ofNat 17 v)) lane (pos + 1) vs

/-- Write one column per lane: `cols` pairs a lane with the values of the positions 0, 1, ... -/
def Grid.writeColumns (g : Grid) (cols : List (Nat × List Nat)) : Grid :=
  cols.foldl (fun acc c => Grid.writeColumn acc c.1 0 c.2) g

/-! ### Registers -/

/-- `x[i]` (10_state.md R21): no register is hard-wired. -/
def getX (s : State) (i : XReg) : Word := s.x[i.val]'i.isLt

/-- `x[i] <- v`. -/
def setX (s : State) (i : XReg) (v : Word) : State := { s with x := s.x.set i.val v i.isLt }

/-- `x[d] <- v` for a number `v`, zero-extended to 32 bits (40_field.md R120 (d)). -/
def setXNat (s : State) (d : XReg) (v : Nat) : State := setX s d (BitVec.ofNat 32 v)

/-- The cells of `p[i]` (R36). -/
def getPoly (s : State) (i : PReg) : Memory Elem := s.poly[i.val]'i.isLt

/-- All cells of `p[i]` replaced. -/
def setPoly (s : State) (i : PReg) (m : Memory Elem) : State := { s with poly := s.poly.set i.val m i.isLt }

/-- The property list of a position with its cursor (R39). -/
def getProps (s : State) (pos : Nat) : PropList := Memory.read emptyProps s.prop pos

/-- Replace the property list of a position and its cursor. -/
def setProps (s : State) (pos : Nat) (l : PropList) : State :=
  { s with prop := Memory.write emptyProps s.prop pos l }

/-- `PLEN` of a list (R39). -/
def PropList.len (l : PropList) : Nat := l.entries.length

/-- Append one entry; the cursor stays (44_property.md R221). -/
def PropList.append (l : PropList) (loc : Loc) (mark : Mark) : PropList :=
  { l with entries := l.entries ++ [{ loc := loc, mark := mark }] }

/-! ### Errors -/

/-- The kind code of an error: what `ERRCODE` holds (60_exceptions.md R240, R256). -/
def Err.code : Err → BitVec 4
  | .configWordSize | .configNoData | .configNoParities | .configPktSize | .configTooMany | .configCodeLength => 1
  | .field => 2
  | .divideByZero | .inverseOfZero | .duplicateIds => 3
  | .nonSystematic => 4
  | .rootOrder | .codeLength | .fragmentId | .position => 5
  | .polyDegree | .productDegree | .propListFull => 6
  | .illegalCommand => 7
  | .notReady => 8

/-- The detail of an error: what `ERRINFO` holds (R256). -/
def Err.info : Err → Word
  | .configWordSize => 1
  | .configNoData => 2
  | .configNoParities => 3
  | .configPktSize => 4
  | .configTooMany => 5
  | .configCodeLength => 6
  | .field => 0
  | .divideByZero => 1
  | .inverseOfZero => 2
  | .duplicateIds => 3
  | .nonSystematic => 0
  | .rootOrder => 1
  | .codeLength => 2
  | .fragmentId => 3
  | .position => 4
  | .polyDegree => 1
  | .productDegree => 2
  | .propListFull => 3
  | .illegalCommand => 0
  | .notReady => 0

/-- Fault entry (R246): the four error registers record the error and the command word `w`, nothing else changes. -/
def takeFault (w : Word) (e : Err) (s : State) : State :=
  { s with error := { err := true, code := e.code, info := e.info, cmd := w } }

/-- Return from a fault, `CTRL.CLRERR` (R248): the four error registers become 0, nothing else changes. -/
def clearFault (s : State) : State := { s with error := ErrorRegs.zero }

/-- Reset (70_reset_and_hazards.md R270): all of 10_state.md R20 takes its reset value. The parameters, and what the model
keeps of the host (the events to come, the values already read), are no state of R20 and stay (log entry 11). -/
def resetEngine (s : State) : State :=
  { State.resetOf s.par with port := s.port, reads := s.reads }

/-! ### Running a command -/

/-- The end of every command (00_scope.md R9, `raise`): a command that raised an error has changed nothing, and fault
entry follows with the command's word as `ERRCMD`; a command that did not raise has its effect. The word of an
instruction is `encode` of it: decoding drops no bit (log entry 9). -/
def command (i : Instr) (s : State) (r : Except Err State) : Outcome :=
  match r with
  | .ok t => .next t
  | .error e => .next (takeFault (encode i) e s)

/-- The ready check of a command that needs an instance (40_field.md R120 (a), 60_exceptions.md R245). -/
def whenReady (s : State) (r : Except Err State) : Except Err State :=
  if s.ready then r else .error .notReady

/-- The position check of the property commands (60_exceptions.md R245, OperandError 4). -/
def whenPosition (s : State) (pos : Nat) (r : Except Err State) : Except Err State :=
  if pos < s.par.nmax then r else .error .position

end Sys2Proof.Machine
end

