-- ==== Sys2Proof/Machine/Operands.lean ====
section
/-! DEFINITION. What a command reads: scalar registers as integers and as field elements, polynomial registers,
columns of `IBUF`, fragment ids, locations, and the values of the active instance as numbers. -/

namespace Sys2Proof.Machine

/-! ### The active instance (10_state.md R31) -/

def State.q (s : State) : Nat := s.inst.q.toNat
def State.g (s : State) : Nat := s.inst.g.toNat
def State.n (s : State) : Nat := s.inst.n.toNat
def State.r (s : State) : Nat := s.inst.r.toNat
def State.k (s : State) : Nat := s.inst.k.toNat
def State.lanes (s : State) : Nat := s.inst.p.toNat
def State.wordSize (s : State) : Nat := s.inst.ws.toNat

/-! ### Scalar operands -/

/-- `x[i]` as an integer: all 32 bits (40_field.md R120 (c)). -/
def intOp (s : State) (i : XReg) : Nat := (getX s i).toNat

/-- `fe(x[i])`: the register reduced modulo q (R120 (b)). -/
def elemOp (s : State) (i : XReg) : Nat := intOp s i % s.q

/-- A 64-bit location from two registers: low half in `lo`, high half in `hi` (20_memory.md R63, 44_property.md R221). -/
def locOp (s : State) (lo hi : XReg) : Loc := getX s hi ++ getX s lo

/-! ### Polynomials (41_poly.md R150) -/

/-- `coef(i, j)`: cell j of `p[i]` reduced modulo q, 0 beyond PCAP (00_scope.md R9). -/
def coef (s : State) (i : PReg) (j : Nat) : Nat :=
  if j < s.par.pcap then (Memory.read 0 (getPoly s i) j).toNat % s.q else 0

/-- The terms (degree, reduced coefficient) of a memory of cells, without zero coefficients, by rising degree. -/
def termsOf (q cap : Nat) (m : Memory Elem) : List (Nat × Nat) :=
  m.filterMap fun e => if e.1 < cap ∧ e.2.toNat % q ≠ 0 then some (e.1, e.2.toNat % q) else none

/-- The terms of `p[i]`. -/
def terms (s : State) (i : PReg) : List (Nat × Nat) := termsOf s.q s.par.pcap (getPoly s i)

/-- `deg(i)`: the largest j with `coef(i, j) ≠ 0`, none for the zero polynomial (00_scope.md R9's −1). -/
def deg (s : State) (i : PReg) : Option Nat := (terms s i).getLast?.map Prod.fst

/-! ### Buffers (10_state.md R37, R38) -/

/-- The first `n` cells of a lane of `IBUF`, as field elements (20_memory.md R74). -/
def inputColumn (s : State) (n lane : Nat) : List Nat :=
  (List.range n).map fun i => (Grid.read s.ibuf i lane).toNat % s.q

/-- `IDS[0..K−1]` as integers, not reduced (20_memory.md R74). -/
def fragIds (s : State) : List Nat :=
  (List.range s.k).map fun i => (Memory.read 0 s.ids i).toNat

/-! ### Property store (44_property.md R228, R229) -/

/-- The location of lane `l`: `(OFFSET + l·WS) mod 2^64` (R229). -/
def laneLoc (s : State) (l : Nat) : Loc := s.offset + BitVec.ofNat 64 (l * s.wordSize)

/-- `has_oor(list, loc)` (R228): some entry, consumed or not, has the location and the mark OOR. -/
def hasOor (l : PropList) (loc : Loc) : Bool := l.entries.any fun e => e.loc = loc && e.mark = oorMark

/-- The iterator's current entry (R220). -/
def PropList.current (l : PropList) : Option PropEntry := l.entries[l.cursor]?

/-- The iterator advanced by one entry, if there is one to pass (R223). -/
def PropList.advance (l : PropList) : PropList :=
  if l.cursor < l.len then { l with cursor := l.cursor + 1 } else l

end Sys2Proof.Machine
end

