-- ==== Sys2Proof/Machine/Flags.lean ====
section
/-! DEFINITION. The engine has no condition codes and no arithmetic flags: no command sets a carry, zero, sign or overflow
flag (10_state.md R26). Its only one-bit status values are `READY` and `ERR`; what computes them is here. -/

namespace Sys2Proof.Machine

/-- What `STATUS` reads: bit 0 `READY`, bit 1 `ERR`, bits 31:2 zero (10_state.md R30). -/
def statusWord (s : State) : Word :=
  BitVec.ofNat 32 ((if s.ready then 1 else 0) + (if s.error.err then 2 else 0))

/-- `CTRL` bit 0, `SRST` (10_state.md R27, R29). -/
def ctrlSrst (v : Word) : Bool := v.toNat % 2 = 1

/-- `CTRL` bit 1, `CLRERR` (10_state.md R27, R29). -/
def ctrlClrerr (v : Word) : Bool := v.toNat / 2 % 2 = 1

end Sys2Proof.Machine
end

