-- ==== Sys2Proof/Machine/Fft.lean ====
section
/-! DEFINITION. The FFT commands (42_fft.md R170 to R174, R176): `IBUF` to `OBUF`, lane by lane, over all N positions. -/

namespace Sys2Proof.Machine

/-- The lanes of a packet-form command: 0 .. P−1 (R176). -/
def packetLanes (s : State) : List Nat := List.range s.lanes

/-- The forward transform of every lane in `lanes`, written to the same lane of `OBUF` (R171, R173). -/
def forwardLanes (s : State) (lanes : List Nat) : State :=
  { s with obuf := Grid.writeColumns s.obuf (lanes.map fun l => (l, forward s.q s.r s.n (inputColumn s s.n l))) }

/-- The inverse transform of every lane in `lanes` (R172, R174). -/
def inverseLanes (s : State) (lanes : List Nat) : State :=
  { s with obuf := Grid.writeColumns s.obuf (lanes.map fun l => (l, inverse s.q s.r s.n (inputColumn s s.n l))) }

/-- R171: lane 0, whatever P is. -/
def execFft (s : State) : Outcome := command .fft s <| whenReady s <| .ok (forwardLanes s [0])

/-- R172. -/
def execIfft (s : State) : Outcome := command .ifft s <| whenReady s <| .ok (inverseLanes s [0])

/-- R173. -/
def execFftp (s : State) : Outcome := command .fftp s <| whenReady s <| .ok (forwardLanes s (packetLanes s))

/-- R174. -/
def execIfftp (s : State) : Outcome := command .ifftp s <| whenReady s <| .ok (inverseLanes s (packetLanes s))

end Sys2Proof.Machine
end

