-- ==== Sys2Proof/Machine/Coder.lean ====
section
/-! DEFINITION. The coder commands (43_coder.md R185 to R198): construction, encode, decode, the hooks. -/

namespace Sys2Proof.Machine

/-! ### Construction (R186) -/

/-- The instance that `CONFIG` builds from checked arguments (R186, last two lines). -/
def instanceOf (ws k m p g : Nat) : InstRegs :=
  { ws := BitVec.ofNat 2 ws
    k := BitVec.ofNat 17 k
    m := BitVec.ofNat 17 m
    p := BitVec.ofNat 32 p
    q := BitVec.ofNat 17 (fieldCard ws)
    g := BitVec.ofNat 17 g
    n := BitVec.ofNat 17 (codeLen (k + m))
    r := BitVec.ofNat 17 (nthRoot (fieldCard ws) g (codeLen (k + m))) }

/-- The checks of R186 that need q, and the construction. -/
def constructField (s : State) (ws k m p : Nat) : Except Err State :=
  if k + m > fieldCard ws - 1 then .error .configTooMany
  else if codeLen (k + m) > s.par.nmax then .error .configCodeLength
  else if fpow (fieldCard ws) (s.par.groot ws) ((fieldCard ws - 1) / 2) ≠ fieldCard ws - 1 then .error .field
  else .ok { s with ready := true, inst := instanceOf ws k m p (s.par.groot ws) }

/-- The checks of R186 on the four staged arguments, in order, and the construction. -/
def construct (s : State) (ws k m p : Nat) : Except Err State :=
  if ws ≠ 1 ∧ ws ≠ 2 then .error .configWordSize
  else if k = 0 then .error .configNoData
  else if m = 0 then .error .configNoParities
  else if p = 0 ∨ p > s.par.pmax then .error .configPktSize
  else constructField s ws k m p

/-- R186: `CONFIG` reads the staging registers and needs no instance. -/
def execConfig (s : State) : Outcome :=
  command .config s <| construct s s.cfg.ws.toNat s.cfg.k.toNat s.cfg.m.toNat s.cfg.p.toNat

/-- R188. -/
def execNout (d : XReg) (s : State) : Outcome :=
  command (.nout d) s <| whenReady s <| .ok (setXNat s d s.n)

/-! ### Encode (R189 to R191) -/

/-- `v[0..N−1]` of a lane (R189 (b)): the transform of the K words, padded with zeros. -/
def codeValues (s : State) (lane : Nat) : List Nat := forward s.q s.r s.n (inputColumn s s.k lane)

/-- The code values of every lane in `lanes`. -/
def codeColumns (s : State) (lanes : List Nat) : List (Nat × List Nat) :=
  lanes.map fun l => (l, codeValues s l)

/-- Out of range: the one field element that does not fit in 8·WS bits (R189 (c)). -/
def isOor (s : State) (v : Nat) : Bool := decide (v = s.q - 1)

/-- What is stored for a code value: 0 for an out-of-range one (R190). -/
def storedValue (s : State) (v : Nat) : Nat := if isOor s v then 0 else v

/-- How many lanes have an out-of-range value at position j (R191). -/
def oorCount (s : State) (cols : List (Nat × List Nat)) (j : Nat) : Nat :=
  cols.countP fun c => isOor s (c.2.getD j 0)

/-- Some list that must take entries is too full for them (R190, R191). -/
def propsOverflow (s : State) (cols : List (Nat × List Nat)) : Bool :=
  (List.range s.n).any fun j => decide (oorCount s cols j > 0 ∧ (getProps s j).len + oorCount s cols j > s.par.propcap)

/-- Append the mark of one lane's value at position j when it is out of range. -/
def markValue (s : State) (lane j v : Nat) (prop : Memory PropList) : Memory PropList :=
  if isOor s v then
    Memory.write emptyProps prop j ((Memory.read emptyProps prop j).append (laneLoc s lane) oorMark)
  else prop

/-- Append the marks of one lane's values at the positions `j`, `j + 1`, ... -/
def markColumn (s : State) (lane : Nat) : Nat → List Nat → Memory PropList → Memory PropList
  | _, [], prop => prop
  | j, v :: vs, prop => markColumn s lane (j + 1) vs (markValue s lane j v prop)

/-- Append the marks of every lane, in the order of the lanes (R191: increasing). -/
def markColumns (s : State) (cols : List (Nat × List Nat)) (prop : Memory PropList) : Memory PropList :=
  cols.foldl (fun acc c => markColumn s c.1 0 c.2 acc) prop

/-- The effect of an encode over lanes whose code values are `cols`. -/
def encodeColumns (s : State) (cols : List (Nat × List Nat)) : State :=
  { s with
    obuf := Grid.writeColumns s.obuf (cols.map fun c => (c.1, c.2.map (storedValue s)))
    prop := markColumns s cols s.prop }

/-- R190, R191: capacity is checked for all positions before any write. -/
def encodeLanes (s : State) (lanes : List Nat) : Except Err State :=
  if propsOverflow s (codeColumns s lanes) then .error .propListFull
  else .ok (encodeColumns s (codeColumns s lanes))

/-- R190: lane 0, whatever P is. -/
def execEnc (s : State) : Outcome := command .enc s <| whenReady s <| encodeLanes s [0]

/-- R191. -/
def execEncp (s : State) : Outcome := command .encp s <| whenReady s <| encodeLanes s (packetLanes s)

/-! ### Decode (R192 to R194) -/

/-- Step 1: the received value of fragment i in a lane, q − 1 restored where the position is marked (R193). -/
def receivedValue (s : State) (lane i f : Nat) : Nat :=
  if hasOor (getProps s f) (laneLoc s lane) then s.q - 1 else (Grid.read s.ibuf i lane).toNat % s.q

/-- The received values of a lane for the fragment ids `f`. -/
def received (s : State) (lane : Nat) (f : List Nat) : List Nat :=
  f.mapIdx fun i id => receivedValue s lane i id

/-- The recovered words of a lane. -/
def recovered (s : State) (lane : Nat) (f : List Nat) : List Nat := lagrange s.q s.r f (received s lane f)

/-- R193, R194: ids in range, then ids distinct, then one interpolation per lane. -/
def decodeLanes (s : State) (lanes : List Nat) : Except Err State :=
  if (fragIds s).any (fun f => decide (f ≥ s.n)) then .error .fragmentId
  else if ¬ (fragIds s).Nodup then .error .duplicateIds
  else .ok { s with obuf := Grid.writeColumns s.obuf (lanes.map fun l => (l, recovered s l (fragIds s))) }

/-- R193: lane 0, whatever P is. -/
def execDec (s : State) : Outcome := command .dec s <| whenReady s <| decodeLanes s [0]

/-- R194. -/
def execDecp (s : State) : Outcome := command .decp s <| whenReady s <| decodeLanes s (packetLanes s)

/-! ### Hooks (R196 to R198) -/

/-- R196: fails always. -/
def execDaddd (s : State) : Outcome := command .daddd s <| whenReady s <| .error .nonSystematic

/-- R197: inert. -/
def execDaddp (s : State) : Outcome := command .daddp s <| whenReady s <| .ok s

/-- R198: inert. -/
def execDbuild (s : State) : Outcome := command .dbuild s <| whenReady s <| .ok s

end Sys2Proof.Machine
end

