-- ==== Sys2Proof/Machine/Field.lean ====
section
/-! DEFINITION. The scalar and prime-field commands (40_field.md R120 to R133). Every one but `LI` needs an instance. -/

namespace Sys2Proof.Machine

/-- R121: `x[d] <- zext_32(imm20)`; the syntax holds the immediate already extended. -/
def execLi (d : XReg) (imm : Word) (s : State) : Outcome := .next (setX s d imm)

/-- R122. -/
def execFadd (d a b : XReg) (s : State) : Outcome :=
  command (.fadd d a b) s <| whenReady s <| .ok (setXNat s d (fadd s.q (elemOp s a) (elemOp s b)))

/-- R123. -/
def execFsub (d a b : XReg) (s : State) : Outcome :=
  command (.fsub d a b) s <| whenReady s <| .ok (setXNat s d (fsub s.q (elemOp s a) (elemOp s b)))

/-- R124. -/
def execFmul (d a b : XReg) (s : State) : Outcome :=
  command (.fmul d a b) s <| whenReady s <| .ok (setXNat s d (fmul s.q (elemOp s a) (elemOp s b)))

/-- R125: the check is on the reduced divisor. -/
def execFdiv (d a b : XReg) (s : State) : Outcome :=
  command (.fdiv d a b) s <| whenReady s <|
    if elemOp s b = 0 then .error .divideByZero
    else .ok (setXNat s d (fmul s.q (elemOp s a) (finv s.q (elemOp s b))))

/-- R126: the check is on the reduced argument. -/
def execFinv (d a : XReg) (s : State) : Outcome :=
  command (.finv d a) s <| whenReady s <|
    if elemOp s a = 0 then .error .inverseOfZero else .ok (setXNat s d (finv s.q (elemOp s a)))

/-- R127: the exponent is the full 32-bit register. -/
def execFexp (d a b : XReg) (s : State) : Outcome :=
  command (.fexp d a b) s <| whenReady s <| .ok (setXNat s d (fpow s.q (elemOp s a) (intOp s b)))

/-- R128. -/
def execFneg (d a : XReg) (s : State) : Outcome :=
  command (.fneg d a) s <| whenReady s <| .ok (setXNat s d (fneg s.q (elemOp s a)))

/-- R129: the value is q itself. -/
def execFcard (d : XReg) (s : State) : Outcome :=
  command (.fcard d) s <| whenReady s <| .ok (setXNat s d s.q)

/-- R130. -/
def execFproot (d : XReg) (s : State) : Outcome :=
  command (.fproot d) s <| whenReady s <| .ok (setXNat s d s.g)

/-- R131: n is an integer that must divide q − 1. -/
def execFnroot (d a : XReg) (s : State) : Outcome :=
  command (.fnroot d a) s <| whenReady s <|
    if intOp s a = 0 ∨ (s.q - 1) % intOp s a ≠ 0 then .error .rootOrder
    else .ok (setXNat s d (nthRoot s.q s.g (intOp s a)))

/-- R132: m is an integer, at most q − 1. -/
def execFclhc (d a : XReg) (s : State) : Outcome :=
  command (.fclhc d a) s <| whenReady s <|
    if intOp s a > s.q - 1 then .error .codeLength else .ok (setXNat s d (codeLen (intOp s a)))

/-- R133. -/
def execFjac (d a : XReg) (s : State) : Outcome :=
  command (.fjac d a) s <| whenReady s <| .ok (setX s d (jacobiWord s.q (elemOp s a)))

end Sys2Proof.Machine
end

