-- ==== Sys2Proof/Machine/Poly.lean ====
section
/-! DEFINITION. The polynomial commands (41_poly.md R150 to R158). They work on the listed cells of a register: an
unlisted cell is a zero coefficient, and no result depends on the representation (R150 (h), log entry 8). -/

namespace Sys2Proof.Machine

/-- Cells from terms (degree, value): a zero value is not listed. -/
def cellsOf (ts : List (Nat × Nat)) : Memory Elem :=
  ts.filterMap fun t => if BitVec.ofNat 17 t.2 = 0 then none else some (t.1, BitVec.ofNat 17 t.2)

/-- Add `v` to the coefficient of degree `j`, modulo q. -/
def addTerm (q : Nat) (m : Memory Elem) (j v : Nat) : Memory Elem :=
  Memory.write 0 m j (BitVec.ofNat 17 (((Memory.read 0 m j).toNat + v) % q))

/-- Add `t · Σ us` to `m`, modulo q. -/
def addScaled (q : Nat) (m : Memory Elem) (t : Nat × Nat) (us : List (Nat × Nat)) : Memory Elem :=
  us.foldl (fun acc u => addTerm q acc (t.1 + u.1) (t.2 * u.2)) m

/-- The product of two polynomials given by their terms (R153, schoolbook convolution). -/
def productCells (q : Nat) (ts us : List (Nat × Nat)) : Memory Elem :=
  ts.foldl (fun acc t => addScaled q acc t us) []

/-- The terms of the derivative (R154): degree j + 1 gives degree j with the factor (j + 1) mod q. -/
def derivTerms (q : Nat) (ts : List (Nat × Nat)) : List (Nat × Nat) :=
  ts.filterMap fun t => if t.1 = 0 then none else some (t.1 - 1, fmul q (t.1 % q) t.2)

/-- Whether the product of two polynomials has a degree that does not fit (R153). -/
def productTooLarge (cap : Nat) (da db : Option Nat) : Bool :=
  match da, db with
  | some i, some j => decide (i + j ≥ cap)
  | _, _ => false

/-- R151. -/
def execPset (d : PReg) (a b : XReg) (s : State) : Outcome :=
  command (.pset d a b) s <| whenReady s <|
    if intOp s a ≥ s.par.pcap then .error .polyDegree
    else .ok (setPoly s d (Memory.write 0 (getPoly s d) (intOp s a) (BitVec.ofNat 17 (elemOp s b))))

/-- R152: a degree beyond the register reads 0. -/
def execPget (d : XReg) (a : PReg) (b : XReg) (s : State) : Outcome :=
  command (.pget d a b) s <| whenReady s <| .ok (setXNat s d (coef s a (intOp s b)))

/-- R153: both operands are read before the write. -/
def execPmul (d a : PReg) (s : State) : Outcome :=
  command (.pmul d a) s <| whenReady s <|
    if productTooLarge s.par.pcap (deg s d) (deg s a) then .error .productDegree
    else .ok (setPoly s d (productCells s.q (terms s d) (terms s a)))

/-- R154. -/
def execPder (d : PReg) (s : State) : Outcome :=
  command (.pder d) s <| whenReady s <| .ok (setPoly s d (cellsOf (derivTerms s.q (terms s d))))

/-- R155: cells come out reduced. -/
def execPneg (d : PReg) (s : State) : Outcome :=
  command (.pneg d) s <| whenReady s <|
    .ok (setPoly s d (cellsOf ((terms s d).map fun t => (t.1, fneg s.q t.2))))

/-- R156: the value Σ coef·v^j, of which Horner's rule is one computation. -/
def execPeval (d : XReg) (a : PReg) (b : XReg) (s : State) : Outcome :=
  command (.peval d a b) s <| whenReady s <| .ok (setXNat s d (evalTerms s.q (terms s a) (elemOp s b)))

/-- R157: raw cells, not reduced; the exception R150 (b) makes to "a coefficient written is a value in [0, q)" (log entry
18). -/
def execPcopy (d a : PReg) (s : State) : Outcome :=
  command (.pcopy d a) s <| whenReady s <| .ok (setPoly s d (getPoly s a))

/-- R158. -/
def execPclr (d : PReg) (s : State) : Outcome :=
  command (.pclr d) s <| whenReady s <| .ok (setPoly s d [])

end Sys2Proof.Machine
end

