-- ==== Sys2Proof/Machine/Property.lean ====
section
/-! DEFINITION. The property map commands (44_property.md R220 to R227). None needs an instance. -/

namespace Sys2Proof.Machine

/-- R221: position, then capacity; the location's low half in b, high half in c, the mark in d. -/
def execPradd (d a b c : XReg) (s : State) : Outcome :=
  command (.pradd d a b c) s <| whenPosition s (intOp s a) <|
    if (getProps s (intOp s a)).len ≥ s.par.propcap then .error .propListFull
    else .ok (setProps s (intOp s a) ((getProps s (intOp s a)).append (locOp s b c) (getX s d)))

/-- R222: whether the current entry has the location. -/
def currentMatches (l : PropList) (loc : Loc) : Bool :=
  match l.current with
  | some e => e.loc = loc
  | none => false

/-- R222: a true answer consumes the entry, a false one nothing. -/
def execPrmk (d a b c : XReg) (s : State) : Outcome :=
  command (.prmk d a b c) s <| whenPosition s (intOp s a) <|
    if currentMatches (getProps s (intOp s a)) (locOp s b c) then
      .ok (setXNat (setProps s (intOp s a) (getProps s (intOp s a)).advance) d 1)
    else .ok (setXNat s d 0)

/-- R223. -/
def execPrnext (a : XReg) (s : State) : Outcome :=
  command (.prnext a) s <| whenPosition s (intOp s a) <|
    .ok (setProps s (intOp s a) (getProps s (intOp s a)).advance)

/-- R224. -/
def execPrrew (a : XReg) (s : State) : Outcome :=
  command (.prrew a) s <| whenPosition s (intOp s a) <|
    .ok (setProps s (intOp s a) { getProps s (intOp s a) with cursor := 0 })

/-- R225. -/
def execPrclr (a : XReg) (s : State) : Outcome :=
  command (.prclr a) s <| whenPosition s (intOp s a) <| .ok (setProps s (intOp s a) emptyProps)

/-- R226. -/
def execPrclra (s : State) : Outcome := command .prclra s <| .ok { s with prop := [] }

/-- R227. -/
def execPrlen (d a : XReg) (s : State) : Outcome :=
  command (.prlen d a) s <| whenPosition s (intOp s a) <| .ok (setXNat s d (getProps s (intOp s a)).len)

end Sys2Proof.Machine
end

