-- ==== Sys2Proof/Machine/Dispatch.lean ====
section
/-! DEFINITION. One arm per command, in the order of spec/opcode_table.json. -/

namespace Sys2Proof.Machine

def exec (i : Instr) (s : State) : Host.Outcome State Fault Refusal :=
  match i with
  | .li d imm => Sys2Proof.Machine.execLi d imm s
  | .fadd d a b => Sys2Proof.Machine.execFadd d a b s
  | .fsub d a b => Sys2Proof.Machine.execFsub d a b s
  | .fmul d a b => Sys2Proof.Machine.execFmul d a b s
  | .fdiv d a b => Sys2Proof.Machine.execFdiv d a b s
  | .finv d a => Sys2Proof.Machine.execFinv d a s
  | .fexp d a b => Sys2Proof.Machine.execFexp d a b s
  | .fneg d a => Sys2Proof.Machine.execFneg d a s
  | .fcard d => Sys2Proof.Machine.execFcard d s
  | .fproot d => Sys2Proof.Machine.execFproot d s
  | .fnroot d a => Sys2Proof.Machine.execFnroot d a s
  | .fclhc d a => Sys2Proof.Machine.execFclhc d a s
  | .fjac d a => Sys2Proof.Machine.execFjac d a s
  | .pset d a b => Sys2Proof.Machine.execPset d a b s
  | .pget d a b => Sys2Proof.Machine.execPget d a b s
  | .pmul d a => Sys2Proof.Machine.execPmul d a s
  | .pder d => Sys2Proof.Machine.execPder d s
  | .pneg d => Sys2Proof.Machine.execPneg d s
  | .peval d a b => Sys2Proof.Machine.execPeval d a b s
  | .pcopy d a => Sys2Proof.Machine.execPcopy d a s
  | .pclr d => Sys2Proof.Machine.execPclr d s
  | .fft => Sys2Proof.Machine.execFft s
  | .ifft => Sys2Proof.Machine.execIfft s
  | .fftp => Sys2Proof.Machine.execFftp s
  | .ifftp => Sys2Proof.Machine.execIfftp s
  | .config => Sys2Proof.Machine.execConfig s
  | .nout d => Sys2Proof.Machine.execNout d s
  | .enc => Sys2Proof.Machine.execEnc s
  | .encp => Sys2Proof.Machine.execEncp s
  | .dec => Sys2Proof.Machine.execDec s
  | .decp => Sys2Proof.Machine.execDecp s
  | .daddd => Sys2Proof.Machine.execDaddd s
  | .daddp => Sys2Proof.Machine.execDaddp s
  | .dbuild => Sys2Proof.Machine.execDbuild s
  | .pradd d a b c => Sys2Proof.Machine.execPradd d a b c s
  | .prmk d a b c => Sys2Proof.Machine.execPrmk d a b c s
  | .prnext a => Sys2Proof.Machine.execPrnext a s
  | .prrew a => Sys2Proof.Machine.execPrrew a s
  | .prclr a => Sys2Proof.Machine.execPrclr a s
  | .prclra => Sys2Proof.Machine.execPrclra s
  | .prlen d a => Sys2Proof.Machine.execPrlen d a s

end Sys2Proof.Machine
end

