-- ==== Sys2Proof/Machine/Window.lean ====
section
/-! DEFINITION. The register window: the address map (10_state.md R27), what a register reads (R28 to R34, 20_memory.md
R65, R70, R72) and what a write to it does (R29, R32, R33, R65, R71), all but a write to `CMD`, which runs a command and
stands in Machine/Command.lean. -/

namespace Sys2Proof.Machine

/-- The registers of the window, by the names of R27. -/
inductive WinReg
  | id | ctrl | status | errcode | errinfo | errcmd | cmd
  | cfgWs | cfgK | cfgM | cfgP
  | actWs | actK | actM | actP | q | g | n | r
  | offsetLo | offsetHi
  | memsel | memlane | memidx | memdata
  | prsel | pridx | prlen | prcur | prlocLo | prlocHi | prmark
  | capNmax | capPmax | capProp
  | xreg (i : XReg)
  | reserved
deriving DecidableEq, Repr

/-- The address map (R27). -/
def winRegAt (offset : Nat) : WinReg :=
  match offset with
  | 0x000 => .id
  | 0x004 => .ctrl
  | 0x008 => .status
  | 0x00C => .errcode
  | 0x010 => .errinfo
  | 0x014 => .errcmd
  | 0x018 => .cmd
  | 0x020 => .cfgWs
  | 0x024 => .cfgK
  | 0x028 => .cfgM
  | 0x02C => .cfgP
  | 0x030 => .actWs
  | 0x034 => .actK
  | 0x038 => .actM
  | 0x03C => .actP
  | 0x040 => .q
  | 0x044 => .g
  | 0x048 => .n
  | 0x04C => .r
  | 0x050 => .offsetLo
  | 0x054 => .offsetHi
  | 0x060 => .memsel
  | 0x064 => .memlane
  | 0x068 => .memidx
  | 0x06C => .memdata
  | 0x070 => .prsel
  | 0x074 => .pridx
  | 0x078 => .prlen
  | 0x07C => .prcur
  | 0x080 => .prlocLo
  | 0x084 => .prlocHi
  | 0x088 => .prmark
  | 0x090 => .capNmax
  | 0x094 => .capPmax
  | 0x098 => .capProp
  | off => if 0x0C0 ≤ off ∧ off < 0x100 then .xreg (Fin.ofNat 16 ((off - 0x0C0) / 4)) else .reserved

/-- The polynomial register that `MEMSEL` 4 .. 7 selects (20_memory.md R70). -/
def selectedPoly (s : State) : PReg := Fin.ofNat 4 (s.win.memsel.toNat - 4)

/-- Position and lane of the data window lie inside the buffers (R70, R71). -/
def bufferInRange (s : State) : Bool :=
  decide (s.win.memidx.toNat < s.par.nmax) && decide (s.win.memlane.toNat < s.par.pmax)

/-- Read of `MEMDATA` (R70): the raw cell, zero-extended; 0 when nothing is selected. -/
def readMemdata (s : State) : Word :=
  let i := s.win.memidx.toNat
  let l := s.win.memlane.toNat
  match s.win.memsel.toNat with
  | 0 => if bufferInRange s then (Grid.read s.ibuf i l).setWidth 32 else 0
  | 1 => if bufferInRange s then (Grid.read s.obuf i l).setWidth 32 else 0
  | 2 => if i < s.par.nmax then (Memory.read 0 s.ids i).setWidth 32 else 0
  | 3 => 0
  | _ => if i < s.par.pcap then (Memory.read 0 (getPoly s (selectedPoly s)) i).setWidth 32 else 0

/-- Write of `MEMDATA` (R71): the cell's low bits; ignored when nothing is selected. -/
def writeMemdata (s : State) (v : Word) : State :=
  let i := s.win.memidx.toNat
  let l := s.win.memlane.toNat
  match s.win.memsel.toNat with
  | 0 => if bufferInRange s then { s with ibuf := Grid.write s.ibuf i l (v.setWidth 17) } else s
  | 1 => if bufferInRange s then { s with obuf := Grid.write s.obuf i l (v.setWidth 17) } else s
  | 2 => if i < s.par.nmax then { s with ids := Memory.write 0 s.ids i (v.setWidth 16) } else s
  | 3 => s
  | _ =>
    if i < s.par.pcap then
      setPoly s (selectedPoly s) (Memory.write 0 (getPoly s (selectedPoly s)) i (v.setWidth 17))
    else s

/-- The property list `PRSEL` selects, if there is one (R72). -/
def selectedProps (s : State) : Option PropList :=
  if s.win.prsel.toNat < s.par.nmax then some (getProps s s.win.prsel.toNat) else none

/-- The entry `PRIDX` selects, if there is one (R72). -/
def selectedEntry (s : State) : Option PropEntry := (selectedProps s).bind fun l => l.entries[s.win.pridx.toNat]?

/-- What a register reads. A write-only register and a reserved offset read 0 (R65). -/
def readReg (s : State) : WinReg → Word
  | .id => idWord
  | .ctrl => 0
  | .status => statusWord s
  | .errcode => s.error.code.setWidth 32
  | .errinfo => s.error.info
  | .errcmd => s.error.cmd
  | .cmd => 0
  | .cfgWs => s.cfg.ws
  | .cfgK => s.cfg.k
  | .cfgM => s.cfg.m
  | .cfgP => s.cfg.p
  | .actWs => s.inst.ws.setWidth 32
  | .actK => s.inst.k.setWidth 32
  | .actM => s.inst.m.setWidth 32
  | .actP => s.inst.p
  | .q => s.inst.q.setWidth 32
  | .g => s.inst.g.setWidth 32
  | .n => s.inst.n.setWidth 32
  | .r => s.inst.r.setWidth 32
  | .offsetLo => s.offset.extractLsb' 0 32
  | .offsetHi => s.offset.extractLsb' 32 32
  | .memsel => s.win.memsel.setWidth 32
  | .memlane => s.win.memlane
  | .memidx => s.win.memidx
  | .memdata => readMemdata s
  | .prsel => s.win.prsel
  | .pridx => s.win.pridx
  | .prlen => BitVec.ofNat 32 ((selectedProps s).elim 0 PropList.len)
  | .prcur => BitVec.ofNat 32 ((selectedProps s).elim 0 PropList.cursor)
  | .prlocLo => (selectedEntry s).elim 0 fun e => e.loc.extractLsb' 0 32
  | .prlocHi => (selectedEntry s).elim 0 fun e => e.loc.extractLsb' 32 32
  | .prmark => (selectedEntry s).elim 0 PropEntry.mark
  | .capNmax => BitVec.ofNat 32 s.par.nmax
  | .capPmax => BitVec.ofNat 32 s.par.pmax
  | .capProp => BitVec.ofNat 32 s.par.propcap
  | .xreg i => getX s i
  | .reserved => 0

/-- Write of `CTRL` (10_state.md R29): `SRST` wins over `CLRERR`; other bits are ignored. -/
def writeCtrl (s : State) (v : Word) : State :=
  if ctrlSrst v then resetEngine s else if ctrlClrerr v then clearFault s else s

/-- What a write to a register other than `CMD` does. A read-only register and a reserved offset ignore it (R65). -/
def writeReg (s : State) (v : Word) : WinReg → State
  | .ctrl => writeCtrl s v
  | .cfgWs => { s with cfg := { s.cfg with ws := v } }
  | .cfgK => { s with cfg := { s.cfg with k := v } }
  | .cfgM => { s with cfg := { s.cfg with m := v } }
  | .cfgP => { s with cfg := { s.cfg with p := v } }
  | .offsetLo => { s with offset := s.offset.extractLsb' 32 32 ++ v }
  | .offsetHi => { s with offset := v ++ s.offset.extractLsb' 0 32 }
  | .memsel => { s with win := { s.win with memsel := v.setWidth 3 } }
  | .memlane => { s with win := { s.win with memlane := v } }
  | .memidx => { s with win := { s.win with memidx := v } }
  | .memdata => writeMemdata s v
  | .prsel => { s with win := { s.win with prsel := v } }
  | .pridx => { s with win := { s.win with pridx := v } }
  | .xreg i => setX s i v
  | .id | .status | .errcode | .errinfo | .errcmd => s
  | .actWs | .actK | .actM | .actP | .q | .g | .n | .r => s
  | .prlen | .prcur | .prlocLo | .prlocHi | .prmark => s
  | .capNmax | .capPmax | .capProp => s
  | .cmd | .reserved => s

end Sys2Proof.Machine
end

