-- ==== Sys2Proof/Machine/Command.lean ====
section
/-! DEFINITION. Serving one host event: a read, a write, the write to `CMD` that runs a command, a hard reset. -/

namespace Sys2Proof.Machine

/-- A write of `w` to `CMD` (10_state.md R35): ignored while `ERR` = 1 (60_exceptions.md R247); else the word is decoded
and executed, and a word that is no command raises IllegalCommand (30_encoding.md R97). -/
def runWord (w : Word) (s : State) : Outcome :=
  if s.error.err then .next s
  else
    match decode w with
    | .ok i => exec i s
    | .error _ => .next (takeFault w .illegalCommand s)

/-- A read of a register answers its value and changes nothing else (20_memory.md R64). -/
def serveRead (reg : WinReg) (s : State) : State := { s with reads := s.reads ++ [readReg s reg] }

/-- A write to a register. -/
def serveWrite (reg : WinReg) (v : Word) (s : State) : Outcome :=
  if reg = .cmd then runWord v s else .next (writeReg s v reg)

/-- Serve one host event. An access that is not admitted is a bus error, for which the model has no step
(20_memory.md R62). -/
def serve (e : HostEvent) (s : State) : Outcome :=
  match e with
  | .read offset size => if admitted offset size then .next (serveRead (winRegAt offset) s) else .fault .busError
  | .write offset size v => if admitted offset size then serveWrite (winRegAt offset) v s else .fault .busError
  | .hardReset => .next (resetEngine s)

/-- The offset of `CMD` (10_state.md R27). -/
def cmdOffset : Nat := 0x018

/-- The host event that is a command: a 32-bit write of its word to `CMD` (30_encoding.md R90, R100). -/
def commandEvent (w : Word) : HostEvent := .write cmdOffset 4 w

/-- The next host event, and the state once it is taken from the port. -/
def takeEvent (s : State) : Option (HostEvent × State) :=
  match s.port with
  | [] => none
  | e :: rest => some (e, { s with port := rest })

/-- One step: with broken parameters there is no engine (93_implementation_defined.md U54); with no event the engine waits
(70_reset_and_hazards.md R271); else the oldest event is served whole (20_memory.md R66, R67). -/
def stepOnce (s : State) : Outcome :=
  if s.par.wf then
    match takeEvent s with
    | none => .next s
    | some (e, t) => serve e t
  else .refused .badParameters

end Sys2Proof.Machine
end

