-- ==== Sys2Proof/Machine/Step.lean ====
section
/-! DEFINITION. One step of the machine: one host access (10_state.md R25, 20_memory.md R66). -/

namespace Sys2Proof.Machine

def step (s : State) : Host.Outcome State Fault Refusal := stepOnce s

/-- `s` with the command of word `w` as the host's next access, so that the very next step runs it: the write to `CMD` is
put before the events that wait. While `ERR` = 1 a command is ignored (60_exceptions.md R247), so a recorded error is
cleared; nothing else changes (log entry 10). -/
def State.withFetchWord (s : State) (_nbits w : Nat) : State :=
  { s with
    port := commandEvent (BitVec.ofNat 32 w) :: s.port
    error := if s.error.err then ErrorRegs.zero else s.error }

end Sys2Proof.Machine
end

