-- ==== Sys2Proof/Safety.lean ====
section
/-! DEFINITION. What counts as a legal state and as a clean run. `Inv` collects the range invariants of 10_state.md R31,
R34, R36 to R39 and R44 and the canonical form of every memory; a clean run ends with `ERR` = 0, as 60_exceptions.md R247
asks of a claim about a command sequence. All parts are decidable. -/

namespace Sys2Proof.Machine

/-- The legal-value column of R31 for a constructed instance, and the check of 43_coder.md R186 that its root passed
(G^((Q−1)/2) mod Q = Q − 1, so that G is a primitive root, 40_field.md R135). -/
abbrev InstRegs.legal (par : Params) (i : InstRegs) : Prop :=
  (i.ws.toNat = 1 ∨ i.ws.toNat = 2) ∧
  (1 ≤ i.k.toNat ∧ i.k.toNat ≤ 65535) ∧
  (1 ≤ i.m.toNat ∧ i.m.toNat ≤ 65535) ∧
  (1 ≤ i.p.toNat ∧ i.p.toNat ≤ par.pmax) ∧
  i.q.toNat = fieldCard i.ws.toNat ∧
  i.g.toNat = par.groot i.ws.toNat ∧
  (∃ e ∈ List.range 17, i.n.toNat = 2 ^ e) ∧
  (2 ≤ i.n.toNat ∧ i.n.toNat ≤ i.q.toNat - 1 ∧ i.n.toNat ≤ par.nmax) ∧
  (i.k.toNat + i.m.toNat ≤ i.n.toNat ∧ i.n.toNat < 2 * (i.k.toNat + i.m.toNat)) ∧
  i.r.toNat = i.g.toNat ^ ((i.q.toNat - 1) / i.n.toNat) % i.q.toNat ∧
  i.g.toNat ^ ((i.q.toNat - 1) / 2) % i.q.toNat = i.q.toNat - 1

/-- R31: the eight values are legal when `READY` = 1 and all 0 when `READY` = 0. -/
abbrev State.instLegal (s : State) : Prop :=
  (s.ready = true → InstRegs.legal s.par s.inst) ∧ (s.ready = false → s.inst = InstRegs.zero)

/-- Every error of 60_exceptions.md R256. -/
def allErrors : List Err :=
  [.configWordSize, .configNoData, .configNoParities, .configPktSize, .configTooMany, .configCodeLength, .field,
   .divideByZero, .inverseOfZero, .duplicateIds, .nonSystematic, .rootOrder, .codeLength, .fragmentId, .position,
   .polyDegree, .productDegree, .propListFull, .illegalCommand, .notReady]

/-- R34: no error, all four registers 0; R256: an error, one of the listed pairs. -/
abbrev State.errorLegal (s : State) : Prop :=
  (s.error.err = false → s.error = ErrorRegs.zero) ∧
  (s.error.err = true → ∃ e ∈ allErrors, s.error.code = e.code ∧ s.error.info = e.info)

/-- A grid is canonical and lists no cell outside NMAX × PMAX (R37). -/
abbrev Grid.legal (par : Params) (g : Grid) : Prop :=
  Grid.wf g ∧ ∀ e ∈ g, e.1 < par.nmax ∧ ∀ c ∈ e.2, c.1 < par.pmax

/-- A polynomial register is canonical and lists no cell beyond PCAP (R36). -/
abbrev polyLegal (par : Params) (m : Memory Elem) : Prop :=
  Memory.wf 0 m ∧ ∀ e ∈ m, e.1 < par.pcap

/-- `IDS` is canonical and lists no cell beyond NMAX (R38). -/
abbrev idsLegal (par : Params) (m : Memory FragId) : Prop :=
  Memory.wf 0 m ∧ ∀ e ∈ m, e.1 < par.nmax

/-- The property store is canonical, lists no position beyond NMAX, and PCUR ≤ PLEN ≤ PROPCAP (R39, R44). -/
abbrev propLegal (par : Params) (m : Memory PropList) : Prop :=
  Memory.wf emptyProps m ∧ ∀ e ∈ m, e.1 < par.nmax ∧ e.2.len ≤ par.propcap ∧ e.2.cursor ≤ e.2.len

/-- The invariant: what every step keeps and reset has. -/
abbrev Inv (s : State) : Prop :=
  s.par.wf = true ∧ s.instLegal ∧ s.errorLegal ∧
  (∀ i : PReg, polyLegal s.par (getPoly s i)) ∧
  Grid.legal s.par s.ibuf ∧ Grid.legal s.par s.obuf ∧ idsLegal s.par s.ids ∧ propLegal s.par s.prop

/-- A run of `n` host events that ends without a recorded error: nothing in it stopped the machine, and no command of it
faulted (R247: a recorded error stays until the host clears it). -/
def CleanRun (n : Nat) (s t : State) : Prop :=
  Host.Core.run Sys2Proof.core n s = .next t ∧ t.error.err = false

/-! ### The terms in which statements about commands are made -/

/-- The commands that need an instance: every one but `LI`, `CONFIG` and the seven property commands
(60_exceptions.md R245). -/
def needsInstance : Instr → Bool
  | .li _ _ | .config => false
  | .pradd _ _ _ _ | .prmk _ _ _ _ | .prnext _ | .prrew _ | .prclr _ | .prclra | .prlen _ _ => false
  | .fadd _ _ _ | .fsub _ _ _ | .fmul _ _ _ | .fdiv _ _ _ | .finv _ _ | .fexp _ _ _ | .fneg _ _ => true
  | .fcard _ | .fproot _ | .fnroot _ _ | .fclhc _ _ | .fjac _ _ => true
  | .pset _ _ _ | .pget _ _ _ | .pmul _ _ | .pder _ | .pneg _ | .peval _ _ _ | .pcopy _ _ | .pclr _ => true
  | .fft | .ifft | .fftp | .ifftp => true
  | .nout _ | .enc | .encp | .dec | .decp | .daddd | .daddp | .dbuild => true

/-- The scalar register a command writes, if it writes one (10_state.md R22). -/
def scalarDest : Instr → Option XReg
  | .li d _ | .fadd d _ _ | .fsub d _ _ | .fmul d _ _ | .fdiv d _ _ | .finv d _ | .fexp d _ _ | .fneg d _ => some d
  | .fcard d | .fproot d | .fnroot d _ | .fclhc d _ | .fjac d _ => some d
  | .pget d _ _ | .peval d _ _ | .nout d | .prmk d _ _ _ | .prlen d _ => some d
  | .pset _ _ _ | .pmul _ _ | .pder _ | .pneg _ | .pcopy _ _ | .pclr _ => none
  | .fft | .ifft | .fftp | .ifftp | .config | .enc | .encp | .dec | .decp | .daddd | .daddp | .dbuild => none
  | .pradd _ _ _ _ | .prnext _ | .prrew _ | .prclr _ | .prclra => none

/-- The commands whose scalar result is a field element in [0, q): the four exceptions of 10_state.md R23 (`LI`; `FCARD`;
`FCLHC`, `NOUT`, `PRLEN`; `FJAC`) and `PRMK`, whose 0 or 1 needs no field, are left out. -/
def fieldResult : Instr → Bool
  | .fadd _ _ _ | .fsub _ _ _ | .fmul _ _ _ | .fdiv _ _ _ | .finv _ _ | .fexp _ _ _ | .fneg _ _ => true
  | .fproot _ | .fnroot _ _ | .pget _ _ _ | .peval _ _ _ => true
  | _ => false

/-- The polynomial register a command writes, if it writes one (41_poly.md R151 to R158). -/
def polyDest : Instr → Option PReg
  | .pset d _ _ | .pmul d _ | .pder d | .pneg d | .pcopy d _ | .pclr d => some d
  | _ => none

/-- The commands that write `OBUF` (10_state.md R37). -/
def writesObuf : Instr → Bool
  | .fft | .ifft | .fftp | .ifftp | .enc | .encp | .dec | .decp => true
  | _ => false

/-- The commands that write the property store (10_state.md R39). -/
def writesProps : Instr → Bool
  | .enc | .encp | .pradd _ _ _ _ | .prmk _ _ _ _ | .prnext _ | .prrew _ | .prclr _ | .prclra => true
  | _ => false

/-- The format R word with these fields is the command `i` (30_encoding.md R91, R95, R96). -/
def CommandWord (i : Instr) (op d a b c : Nat) : Prop := decode (wordR op d a b c) = .ok i

/-- The command faults: the error registers record kind, detail and the command's word, nothing else changes
(60_exceptions.md R246). -/
def Faults (i : Instr) (s : State) (code : BitVec 4) (info : Word) : Prop :=
  exec i s = .next { s with error := { err := true, code := code, info := info, cmd := encode i } }

/-- The rule of a command that needs an instance: NotReady without one (R245), `p` with one. -/
def WithInstance (i : Instr) (s : State) (p : Prop) : Prop :=
  (s.ready = false → Faults i s 8 0) ∧ (s.ready = true → p)

/-- Nothing changes but scalar register `d`. -/
def ChangesOnlyX (d : XReg) (s t : State) : Prop :=
  (∀ r, r ≠ d → getX t r = getX s r) ∧ t = { s with x := t.x }

/-- Nothing changes but polynomial register `d`. -/
def ChangesOnlyPoly (d : PReg) (s t : State) : Prop :=
  (∀ r, r ≠ d → getPoly t r = getPoly s r) ∧ t = { s with poly := t.poly }

/-- Nothing changes but `OBUF`. -/
def ChangesOnlyObuf (s t : State) : Prop := t = { s with obuf := t.obuf }

/-- Nothing changes but the property list of `pos` and its cursor. -/
def ChangesOnlyProps (pos : Nat) (s t : State) : Prop :=
  (∀ p, p ≠ pos → getProps t p = getProps s p) ∧ t = { s with prop := t.prop }

/-- The command completes with the number `v` in scalar register `d`, zero-extended, and changes nothing else. -/
def Writes (i : Instr) (s : State) (d : XReg) (v : Nat) : Prop :=
  ∃ t, exec i s = .next t ∧ (getX t d).toNat = v ∧ ChangesOnlyX d s t

/-- Cell [p][l] of `IBUF` as a field element (20_memory.md R74). -/
def inputElem (s : State) (p l : Nat) : Nat := (Grid.read s.ibuf p l).toNat % s.q

/-- n is `deg` of polynomial register i (00_scope.md R9). -/
def IsDeg (s : State) (i : PReg) (n : Nat) : Prop := coef s i n ≠ 0 ∧ ∀ j, n < j → coef s i j = 0

/-- Σ_{i<n} IBUF[i][l]·R^(i·j) mod Q: with n = N the forward transform (42_fft.md R170), with n = K the code value
v[j] of lane l (43_coder.md R189 (b)). -/
def transformSum (s : State) (n l j : Nat) : Nat := (∑ i ∈ Finset.range n, inputElem s i l * s.r ^ (i * j)) % s.q

/-- Fragment id i as an integer (10_state.md R38). -/
def fragId (s : State) (i : Nat) : Nat := (Memory.read 0 s.ids i).toNat

/-- The received value of fragment i in lane l, q − 1 restored where the list of its position has an OOR entry at the
lane's location (43_coder.md R193, R194; 44_property.md R228, R229). -/
def restored (s : State) (l i : Nat) : Nat :=
  if ∃ e ∈ (getProps s (fragId s i)).entries, e.loc = s.offset + BitVec.ofNat 64 (l * s.wordSize) ∧ e.mark = 1
  then s.q - 1 else inputElem s i l

end Sys2Proof.Machine
end

