-- ==== Sys2Proof/Certificates/Slice0/Obligations.lean ====
section
/-! DEFINITION. The statements about the engine, for the provers. -/

open Sys2Proof Sys2Proof.Machine

/-! ### Encoding -/

/-- Decoding the word of a well-formed instruction gives the instruction back, every operand at every value
(30_encoding.md R91, R92, R95, R96). -/
def Obligations.DecodeOfEncodeIsTheInstruction : Prop :=
  ∀ i : Instr, i.wellFormed = true → decode (encode i) = .ok i

/-- A word that decodes is the word of the instruction it decodes to, and that instruction is well formed: decoding drops
no bit (R96, R97). It is what makes `ERRCMD` the word written (60_exceptions.md R246). -/
def Obligations.DecodingDropsNoBit : Prop :=
  ∀ (w : Word) (i : Instr), decode w = .ok i → encode i = w ∧ i.wellFormed = true

/-- The opcode map R95 row by row: a word is the command of a row exactly when `w AND mask = match`. -/
def Obligations.WordIsCommandExactlyWhenMaskMatches : Prop :=
  ∀ (w mask mtch : Word),
    (mask, mtch) ∈
      ([(0xFF000000, 0x01000000), (0xFF000FFF, 0x10000000), (0xFF000FFF, 0x11000000), (0xFF000FFF, 0x12000000),
        (0xFF000FFF, 0x13000000), (0xFF00FFFF, 0x14000000), (0xFF000FFF, 0x15000000), (0xFF00FFFF, 0x16000000),
        (0xFF0FFFFF, 0x17000000), (0xFF0FFFFF, 0x18000000), (0xFF00FFFF, 0x19000000), (0xFF00FFFF, 0x1A000000),
        (0xFF00FFFF, 0x1B000000)] ++
       [(0xFFC00FFF, 0x20000000), (0xFF0C0FFF, 0x21000000), (0xFFCCFFFF, 0x22000000), (0xFFCFFFFF, 0x23000000),
        (0xFFCFFFFF, 0x24000000), (0xFF0C0FFF, 0x25000000), (0xFFCCFFFF, 0x26000000), (0xFFCFFFFF, 0x27000000),
        (0xFFFFFFFF, 0x30000000), (0xFFFFFFFF, 0x31000000), (0xFFFFFFFF, 0x32000000), (0xFFFFFFFF, 0x33000000)] ++
       [(0xFFFFFFFF, 0x40000000), (0xFF0FFFFF, 0x41000000), (0xFFFFFFFF, 0x42000000), (0xFFFFFFFF, 0x43000000),
        (0xFFFFFFFF, 0x44000000), (0xFFFFFFFF, 0x45000000), (0xFFFFFFFF, 0x46000000), (0xFFFFFFFF, 0x47000000),
        (0xFFFFFFFF, 0x48000000), (0xFF0000FF, 0x50000000), (0xFF0000FF, 0x51000000), (0xFFF0FFFF, 0x52000000),
        (0xFFF0FFFF, 0x53000000), (0xFFF0FFFF, 0x54000000), (0xFFFFFFFF, 0x55000000), (0xFF00FFFF, 0x56000000)] :
        List (Word × Word)) →
    ((∃ i, decode w = .ok i ∧ i.opcode = mtch.toNat / 2 ^ 24) ↔ w &&& mask = mtch)

/-- Eleven words, one or more for each family, and three words that are no command. The words and their reading are those of
the tables of 95_test_vectors.md (V-E; 0x41300000 from V-F, 0x52010000 from V-R), but for 0x30000000, the encoding
42_fft.md R171 gives `FFT`. -/
def Obligations.ExampleWordsDecodeAsTheSpecSays : Prop :=
  decode 0x013FFFFF = .ok (.li 3 1048575) ∧ decode 0x10312000 = .ok (.fadd 3 1 2) ∧
  decode 0x14210000 = .ok (.finv 2 1) ∧ decode 0x20012000 = .ok (.pset 0 1 2) ∧
  decode 0x21501000 = .ok (.pget 5 0 1) ∧ decode 0x22020000 = .ok (.pmul 0 2) ∧
  decode 0x30000000 = .ok .fft ∧ decode 0x42000000 = .ok .enc ∧ decode 0x41300000 = .ok (.nout 3) ∧
  decode 0x50412300 = .ok (.pradd 4 1 2 3) ∧ decode 0x52010000 = .ok (.prnext 1) ∧
  decode 0x00000000 = .error .unknownOpcode ∧ decode 0x10312100 = .error .nonzeroUnused ∧
  decode 0x22040000 = .error .polyField

/-! ### One step: the port, the window, commands -/

/-- The host's next access is a write of a command's word to `CMD`, no error is recorded and the parameters are legal:
the step runs exactly that command, on the state with the access taken from the port (10_state.md R35, 20_memory.md R66,
30_encoding.md R100). The port is the model's own field (log entry 1). -/
def Obligations.StepRunsTheDecodedCommand : Prop :=
  ∀ (s : State) (w : Word) (i : Instr) (rest : List HostEvent),
    s.par.wf = true → s.port = .write 0x018 4 w :: rest → s.error.err = false → decode w = .ok i →
    step s = exec i { s with port := rest }

/-- What places an instruction for the next step places exactly it: the step is `exec` of the decoded instruction on the
state as it was. The model's own device (log entry 10). -/
def Obligations.PlacedWordRunsNext : Prop :=
  ∀ (s : State) (n : Nat) (i : Instr) (w : Nat),
    s.par.wf = true → s.error.err = false → decodeTableWord n w = some i → step (s.withFetchWord n w) = exec i s

/-- An illegal word written to `CMD` raises IllegalCommand and changes no other state (R97, with R246's entry); the
all-zero and the all-ones word are illegal. -/
def Obligations.IllegalWordRaisesIllegalCommand : Prop :=
  (∀ (s : State) (w : Word) (rest : List HostEvent),
    s.par.wf = true → s.port = .write 0x018 4 w :: rest → s.error.err = false → (∀ i, decode w ≠ .ok i) →
    step s = .next { s with port := rest, error := { err := true, code := 7, info := 0, cmd := w } }) ∧
  (∀ i, decode 0x00000000 ≠ .ok i) ∧ (∀ i, decode 0xFFFFFFFF ≠ .ok i)

/-- While `ERR` = 1 a write to `CMD` changes no state, whatever the word (60_exceptions.md R247). -/
def Obligations.CommandsAreIgnoredWhileErrorIsRecorded : Prop :=
  ∀ (s : State) (w : Word) (rest : List HostEvent),
    s.par.wf = true → s.port = .write 0x018 4 w :: rest → s.error.err = true →
    step s = .next { s with port := rest }

/-- An admitted read answers one value and changes no state of the engine (20_memory.md R64); `ID` answers its constant
(10_state.md R28), `STATUS` answers {ERR, READY} (R30), `CTRL`, `CMD` and reserved offsets answer 0 (20_memory.md R65). -/
def Obligations.ReadsAnswerAndChangeNothing : Prop :=
  ∀ (s : State) (off : Nat) (rest : List HostEvent),
    s.par.wf = true → s.port = .read off 4 :: rest → off % 4 = 0 → off < 0x100 →
    ∃ v, step s = .next { s with port := rest, reads := s.reads ++ [v] } ∧
      (off = 0x000 → v = 0x464E5431) ∧
      (off = 0x008 → v.toNat = (if s.ready then 1 else 0) + 2 * (if s.error.err then 1 else 0)) ∧
      (off ∈ [0x004, 0x018, 0x01C, 0x058, 0x05C, 0x08C, 0x09C, 0x0A0, 0x0A4, 0x0A8, 0x0AC, 0x0B0, 0x0B4, 0x0B8, 0x0BC] →
        v = 0)

/-- Reads of the registers that show one piece of state, at the offsets of 10_state.md R27: the staged and the active
instance, the error registers, `OFFSET`, the selectors, the parameters, the scalar registers. That PMAX and PROPCAP fit
their 32-bit read-backs is the model's own bound on the parameters, no part of 00_scope.md R7 (DEDUCED, log entry 3). -/
def Obligations.RegistersReadTheirState : Prop :=
  ∀ (s : State) (off v : Nat) (rest : List HostEvent),
    s.par.wf = true → s.port = .read off 4 :: rest →
    (off, v) ∈
      ([(0x00C, s.error.code.toNat), (0x010, s.error.info.toNat), (0x014, s.error.cmd.toNat), (0x020, s.cfg.ws.toNat),
        (0x024, s.cfg.k.toNat), (0x028, s.cfg.m.toNat), (0x02C, s.cfg.p.toNat), (0x030, s.inst.ws.toNat),
        (0x034, s.inst.k.toNat), (0x038, s.inst.m.toNat), (0x03C, s.inst.p.toNat), (0x040, s.inst.q.toNat),
        (0x044, s.inst.g.toNat), (0x048, s.inst.n.toNat), (0x04C, s.inst.r.toNat)] ++
       [(0x050, s.offset.toNat % 2 ^ 32), (0x054, s.offset.toNat / 2 ^ 32), (0x060, s.win.memsel.toNat),
        (0x064, s.win.memlane.toNat), (0x068, s.win.memidx.toNat), (0x070, s.win.prsel.toNat),
        (0x074, s.win.pridx.toNat), (0x090, s.par.nmax), (0x094, s.par.pmax), (0x098, s.par.propcap)] ++
       (List.finRange 16).map fun i => (0x0C0 + 4 * i.val, (getX s i).toNat)) →
    step s = .next { s with port := rest, reads := s.reads ++ [BitVec.ofNat 32 v] } ∧ v < 2 ^ 32

/-- Writes to the plain registers store all 32 bits, `MEMSEL` its low three, an `OFFSET` half leaves the other half, and
nothing else changes (10_state.md R22, R32, R33, R40). -/
def Obligations.PlainRegistersStoreTheWrite : Prop :=
  ∀ (s : State) (off : Nat) (v : Word) (rest : List HostEvent) (t : State),
    s.par.wf = true → s.port = .write off 4 v :: rest →
    ((off, t) ∈
      ([(0x020, { s with cfg := { s.cfg with ws := v } }), (0x024, { s with cfg := { s.cfg with k := v } }),
        (0x028, { s with cfg := { s.cfg with m := v } }), (0x02C, { s with cfg := { s.cfg with p := v } }),
        (0x050, { s with offset := BitVec.ofNat 64 (s.offset.toNat / 2 ^ 32 * 2 ^ 32 + v.toNat) }),
        (0x054, { s with offset := BitVec.ofNat 64 (v.toNat * 2 ^ 32 + s.offset.toNat % 2 ^ 32) }),
        (0x060, { s with win := { s.win with memsel := BitVec.ofNat 3 v.toNat } }),
        (0x064, { s with win := { s.win with memlane := v } }), (0x068, { s with win := { s.win with memidx := v } }),
        (0x070, { s with win := { s.win with prsel := v } }), (0x074, { s with win := { s.win with pridx := v } })] ++
       (List.finRange 16).map fun i => (0x0C0 + 4 * i.val, { s with x := s.x.set i.val v i.isLt }))) →
    step s = .next { t with port := rest }

/-- A write to a read-only register or a reserved offset is ignored (20_memory.md R65). -/
def Obligations.ReadOnlyOffsetsIgnoreWrites : Prop :=
  ∀ (s : State) (off : Nat) (v : Word) (rest : List HostEvent),
    s.par.wf = true → s.port = .write off 4 v :: rest →
    off ∈ [0x000, 0x008, 0x00C, 0x010, 0x014, 0x01C, 0x030, 0x034, 0x038, 0x03C, 0x040, 0x044, 0x048, 0x04C, 0x058,
      0x05C, 0x078, 0x07C, 0x080, 0x084, 0x088, 0x08C, 0x090, 0x094, 0x098, 0x09C, 0x0A0, 0x0A4, 0x0A8, 0x0AC, 0x0B0,
      0x0B4, 0x0B8, 0x0BC] →
    step s = .next { s with port := rest }

/-- An access that is not a 32-bit aligned access inside the window has no step: the machine stops on it (20_memory.md
R62). -/
def Obligations.AccessNotAdmittedHasNoStep : Prop :=
  ∀ (s : State) (off size : Nat) (v : Word) (rest : List HostEvent),
    s.par.wf = true → (size ≠ 4 ∨ off % 4 ≠ 0 ∨ 0x100 ≤ off) →
    (s.port = .read off size :: rest ∨ s.port = .write off size v :: rest) → step s = .fault .busError

/-- The data window (20_memory.md R70, R71, R74): a write through it lands in the selected cell, cut to the cell's width,
and in no other; a read then answers the cell, zero-extended; out of range or with 3 selected the write is ignored and
the read answers 0. The selectors stay. -/
def Obligations.DataWindowStoresAndShowsTheSelectedCell : Prop :=
  ∀ (s : State) (v : Word) (rest : List HostEvent), Inv s → s.port = .write 0x06C 4 v :: .read 0x06C 4 :: rest →
    ∃ t, step s = .next t ∧ t.win = s.win ∧
      (s.win.memsel = 0 → s.win.memidx.toNat < s.par.nmax ∧ s.win.memlane.toNat < s.par.pmax →
        t = { s with port := t.port, ibuf := t.ibuf } ∧
        (∀ p l, Grid.read t.ibuf p l = if p = s.win.memidx.toNat ∧ l = s.win.memlane.toNat
          then BitVec.ofNat 17 v.toNat else Grid.read s.ibuf p l) ∧
        step t = .next { t with port := rest, reads := t.reads ++ [BitVec.ofNat 32 (v.toNat % 2 ^ 17)] }) ∧
      (s.win.memsel = 1 → s.win.memidx.toNat < s.par.nmax ∧ s.win.memlane.toNat < s.par.pmax →
        t = { s with port := t.port, obuf := t.obuf } ∧
        (∀ p l, Grid.read t.obuf p l = if p = s.win.memidx.toNat ∧ l = s.win.memlane.toNat
          then BitVec.ofNat 17 v.toNat else Grid.read s.obuf p l) ∧
        step t = .next { t with port := rest, reads := t.reads ++ [BitVec.ofNat 32 (v.toNat % 2 ^ 17)] }) ∧
      (s.win.memsel = 2 → s.win.memidx.toNat < s.par.nmax →
        t = { s with port := t.port, ids := t.ids } ∧
        (∀ i, Memory.read 0 t.ids i = if i = s.win.memidx.toNat then BitVec.ofNat 16 v.toNat else Memory.read 0 s.ids i) ∧
        step t = .next { t with port := rest, reads := t.reads ++ [BitVec.ofNat 32 (v.toNat % 2 ^ 16)] }) ∧
      (∀ i : PReg, s.win.memsel.toNat = 4 + i.val → s.win.memidx.toNat < 2 * s.par.nmax →
        t = { s with port := t.port, poly := t.poly } ∧
        (∀ r j, Memory.read 0 (getPoly t r) j = if r = i ∧ j = s.win.memidx.toNat
          then BitVec.ofNat 17 v.toNat else Memory.read 0 (getPoly s r) j) ∧
        step t = .next { t with port := rest, reads := t.reads ++ [BitVec.ofNat 32 (v.toNat % 2 ^ 17)] }) ∧
      ((s.win.memsel = 3 ∨
        (s.win.memsel.toNat < 2 ∧ (s.par.nmax ≤ s.win.memidx.toNat ∨ s.par.pmax ≤ s.win.memlane.toNat)) ∨
        (s.win.memsel = 2 ∧ s.par.nmax ≤ s.win.memidx.toNat) ∨
        (4 ≤ s.win.memsel.toNat ∧ 2 * s.par.nmax ≤ s.win.memidx.toNat)) →
        t = { s with port := t.port } ∧ step t = .next { t with port := rest, reads := t.reads ++ [0] })

/-- The property window (20_memory.md R72), a read of each of its registers. That a length and a cursor fit 32 bits rests on
the model's bound on PROPCAP (DEDUCED, log entry 3). -/
def Obligations.PropertyWindowShowsTheSelectedEntry : Prop :=
  ∀ (s : State) (off v : Nat) (rest : List HostEvent), Inv s → s.port = .read off 4 :: rest →
    (s.win.prsel.toNat < s.par.nmax →
      (off = 0x078 → v = (getProps s s.win.prsel.toNat).entries.length) ∧
      (off = 0x07C → v = (getProps s s.win.prsel.toNat).cursor) ∧
      (∀ e, (getProps s s.win.prsel.toNat).entries[s.win.pridx.toNat]? = some e →
        (off = 0x080 → v = e.loc.toNat % 2 ^ 32) ∧ (off = 0x084 → v = e.loc.toNat / 2 ^ 32) ∧
        (off = 0x088 → v = e.mark.toNat)) ∧
      ((getProps s s.win.prsel.toNat).entries.length ≤ s.win.pridx.toNat → off ∈ [0x080, 0x084, 0x088] → v = 0)) →
    (s.par.nmax ≤ s.win.prsel.toNat → v = 0) →
    off ∈ [0x078, 0x07C, 0x080, 0x084, 0x088] →
    step s = .next { s with port := rest, reads := s.reads ++ [BitVec.ofNat 32 v] } ∧ v < 2 ^ 32

/-- With no host event waiting nothing happens: the engine waits for host accesses (70_reset_and_hazards.md R271; the
port is the model's own, log entry 1). With parameters that break 00_scope.md R7 every step is refused
(93_implementation_defined.md U54, log entry 5). -/
def Obligations.EngineWaitsForTheHost : Prop :=
  (∀ s : State, s.par.wf = true → s.port = [] → step s = .next s) ∧
  (∀ s : State, s.par.wf = false → step s = .refused .badParameters)

/-! ### Errors and reset -/

/-- Every command answers a next state: it either leaves the error registers as they were, or it changes nothing but
them, and they record one of the listed errors and the command's word (60_exceptions.md R246, R256). -/
def Obligations.CommandsFaultPrecisely : Prop :=
  ∀ (i : Instr) (s : State), ∃ t, exec i s = .next t ∧
    (t.error = s.error ∨ ∃ e ∈ allErrors, Faults i s e.code e.info)

/-- Every command that needs an instance raises NotReady without one (60_exceptions.md R245, 40_field.md R120 (a)). -/
def Obligations.CommandsWithoutInstanceRaiseNotReady : Prop :=
  ∀ (i : Instr) (s : State), needsInstance i = true → s.ready = false → Faults i s 8 0

/-- Return from a fault: a write to `CTRL` with bit 1 set and bit 0 clear sets `ERR`, `ERRCODE`, `ERRINFO`, `ERRCMD` to 0
and keeps everything else; when `ERR` = 0 it does nothing (60_exceptions.md R248). -/
def Obligations.ClearErrClearsTheErrorOnly : Prop :=
  ∀ (s : State) (v : Word) (rest : List HostEvent),
    Inv s → s.port = .write 0x004 4 v :: rest → v.toNat % 4 = 2 →
    step s = .next { s with port := rest, error := { err := false, code := 0, info := 0, cmd := 0 } } ∧
    (s.error.err = false → step s = .next { s with port := rest })

/-- A soft reset (`CTRL` bit 0) and a hard reset put every piece of state to its reset value, also while `ERR` = 1
(70_reset_and_hazards.md R270); a write to `CTRL` with both low bits clear does nothing (10_state.md R29). What the model
keeps beside R20's state, the parameters, the port and the reads, stays (log entry 11). -/
def Obligations.ResetClearsEverything : Prop :=
  (∀ (s : State) (v : Word) (rest : List HostEvent), s.par.wf = true → s.port = .write 0x004 4 v :: rest →
    v.toNat % 2 = 1 → step s = .next { State.resetOf s.par with port := rest, reads := s.reads }) ∧
  (∀ (s : State) (rest : List HostEvent), s.par.wf = true → s.port = .hardReset :: rest →
    step s = .next { State.resetOf s.par with port := rest, reads := s.reads }) ∧
  (∀ (s : State) (v : Word) (rest : List HostEvent), s.par.wf = true → s.port = .write 0x004 4 v :: rest →
    v.toNat % 4 = 0 → step s = .next { s with port := rest })

/-- The reset values of 10_state.md R43, as the accessors of the model read them. -/
def Obligations.ResetStateReadsZero : Prop :=
  ∀ (c : Params) (s : State), s = State.resetOf c →
    (∀ i, getX s i = 0) ∧ s.cfg.ws = 0 ∧ s.cfg.k = 0 ∧ s.cfg.m = 0 ∧ s.cfg.p = 0 ∧ s.ready = false ∧
    s.inst.ws = 0 ∧ s.inst.k = 0 ∧ s.inst.m = 0 ∧ s.inst.p = 0 ∧ s.inst.q = 0 ∧ s.inst.g = 0 ∧ s.inst.n = 0 ∧
    s.inst.r = 0 ∧ s.offset = 0 ∧ s.error.err = false ∧ s.error.code = 0 ∧ s.error.info = 0 ∧ s.error.cmd = 0 ∧
    (∀ i j, Memory.read 0 (getPoly s i) j = 0) ∧ (∀ p l, Grid.read s.ibuf p l = 0) ∧ (∀ p l, Grid.read s.obuf p l = 0) ∧
    (∀ i, Memory.read 0 s.ids i = 0) ∧ (∀ p, (getProps s p).entries = []) ∧ (∀ p, (getProps s p).cursor = 0) ∧
    s.win.memsel = 0 ∧ s.win.memlane = 0 ∧ s.win.memidx = 0 ∧ s.win.prsel = 0 ∧ s.win.pridx = 0

/-- While `ERR` = 1 every host access but a write to `CMD`, to `CTRL`, or a read of the four registers that show the
error behaves as when `ERR` = 0: on two states that differ only in the error registers the step differs only in them
(20_memory.md R75). -/
def Obligations.HostAccessesWorkAlikeWhileErrorIsRecorded : Prop :=
  ∀ (s : State) (e : ErrorRegs) (off : Nat) (v : Word) (rest : List HostEvent) (t : State),
    s.par.wf = true → off % 4 = 0 → off < 0x100 →
    ((s.port = .write off 4 v :: rest ∧ off ≠ 0x018 ∧ off ≠ 0x004) ∨
      (s.port = .read off 4 :: rest ∧ off ∉ [0x008, 0x00C, 0x010, 0x014])) →
    step s = .next t → t.error = s.error ∧ step { s with error := e } = .next { t with error := e }

/-! ### What commands may change -/

/-- Each command writes exactly the scalar register its `d` field names, or none, and no other (10_state.md R22). -/
def Obligations.CommandsWriteOnlyTheirScalarRegister : Prop :=
  ∀ (i : Instr) (s t : State) (r : XReg), exec i s = .next t → scalarDest i ≠ some r → getX t r = getX s r

/-- No command writes `IBUF` (10_state.md R37), `IDS` (R38), `CFG_*` (R32), `OFFSET` (R33) or a window selector (R40), nor
the model's own fields; only `CONFIG` writes the active instance (R31). -/
def Obligations.CommandsNeverWriteTheirInputs : Prop :=
  ∀ (i : Instr) (s t : State), exec i s = .next t →
    t.ibuf = s.ibuf ∧ t.ids = s.ids ∧ t.cfg = s.cfg ∧ t.offset = s.offset ∧ t.win = s.win ∧ t.par = s.par ∧
    t.port = s.port ∧ t.reads = s.reads ∧ (i ≠ .config → t.inst = s.inst ∧ t.ready = s.ready)

/-- Polynomial registers are written by the polynomial commands only, each its own register (10_state.md R36); `OBUF` by
the transforms and the coder only (R37); the property store by encode and the property commands only (R39). -/
def Obligations.MemoriesAreWrittenOnlyByTheirCommands : Prop :=
  ∀ (i : Instr) (s t : State), exec i s = .next t →
    (∀ r, polyDest i ≠ some r → getPoly t r = getPoly s r) ∧ (writesObuf i = false → t.obuf = s.obuf) ∧
    (writesProps i = false → t.prop = s.prop)

/-- A cell that a command writes to a polynomial register is below the active q, but for `PCOPY`, whose cells are the raw
cells of its source (41_poly.md R150 (b), R157; what 10_state.md R36 and R44 say of every command is read with that
exception, log entry 18); a cell it writes to `OBUF` is below q (R37, R44), one that `ENC` or `ENCP` writes below
2^(8·WS) (R44). -/
def Obligations.CommandsWriteReducedCells : Prop :=
  ∀ (i : Instr) (s t : State), Inv s → exec i s = .next t →
    (∀ r j, Memory.read 0 (getPoly t r) j = Memory.read 0 (getPoly s r) j ∨
      (Memory.read 0 (getPoly t r) j).toNat < s.q ∨
      ∃ a, i = .pcopy r a ∧ Memory.read 0 (getPoly t r) j = Memory.read 0 (getPoly s a) j) ∧
    (∀ p l, Grid.read t.obuf p l = Grid.read s.obuf p l ∨ (Grid.read t.obuf p l).toNat < s.q) ∧
    (i = .enc ∨ i = .encp → ∀ p l, Grid.read t.obuf p l = Grid.read s.obuf p l ∨
      (Grid.read t.obuf p l).toNat < 2 ^ (8 * s.wordSize))

/-- The value a field or polynomial command writes to a scalar register is a field element in [0, q), zero-extended
(10_state.md R23, but for its exceptions). -/
def Obligations.ScalarResultsAreFieldElements : Prop :=
  ∀ (i : Instr) (s t : State) (d : XReg), Inv s → s.ready = true → exec i s = .next t → t.error = s.error →
    s.error.err = false → fieldResult i = true → scalarDest i = some d → (getX t d).toNat < s.q

/-! ### Field commands (40_field.md) -/

/-- R121: `LI` writes its immediate, in any state, and nothing else. -/
def Obligations.LoadImmediate : Prop :=
  ∀ (d : XReg) (imm : Word) (s : State), imm.toNat < 2 ^ 20 →
    decode (wordI 0x01 d imm.toNat) = .ok (.li d imm) ∧ Writes (.li d imm) s d imm.toNat

/-- R122, R123, R124, R128: addition, subtraction, multiplication, negation of the reduced operands. -/
def Obligations.FieldArithmetic : Prop :=
  ∀ (d a b : XReg) (s : State), Inv s →
    CommandWord (.fadd d a b) 0x10 d a b 0 ∧
    WithInstance (.fadd d a b) s (Writes (.fadd d a b) s d ((elemOp s a + elemOp s b) % s.q)) ∧
    CommandWord (.fsub d a b) 0x11 d a b 0 ∧
    WithInstance (.fsub d a b) s
      (Writes (.fsub d a b) s d (((elemOp s a : Int) - (elemOp s b : Int)) % (s.q : Int)).toNat) ∧
    CommandWord (.fmul d a b) 0x12 d a b 0 ∧
    WithInstance (.fmul d a b) s (Writes (.fmul d a b) s d (elemOp s a * elemOp s b % s.q)) ∧
    CommandWord (.fneg d a) 0x16 d a 0 0 ∧
    WithInstance (.fneg d a) s (Writes (.fneg d a) s d (if elemOp s a = 0 then 0 else s.q - elemOp s a))

/-- R125: division by the one inverse of the reduced divisor; ArithmeticError 1 when that is 0. -/
def Obligations.FieldDivision : Prop :=
  ∀ (d a b : XReg) (s : State), Inv s →
    CommandWord (.fdiv d a b) 0x13 d a b 0 ∧
    WithInstance (.fdiv d a b) s (
      (elemOp s b = 0 → Faults (.fdiv d a b) s 3 1) ∧
      (elemOp s b ≠ 0 → ∃ v, 1 ≤ v ∧ v < s.q ∧ elemOp s b * v % s.q = 1 ∧
        Writes (.fdiv d a b) s d (elemOp s a * v % s.q)))

/-- R126: the unique v in [1, q) with (u·v) mod q = 1; ArithmeticError 2 when the reduced argument is 0. -/
def Obligations.FieldInverse : Prop :=
  ∀ (d a : XReg) (s : State), Inv s →
    CommandWord (.finv d a) 0x14 d a 0 0 ∧
    WithInstance (.finv d a) s (
      (elemOp s a = 0 → Faults (.finv d a) s 3 2) ∧
      (elemOp s a ≠ 0 → ∃ v, 1 ≤ v ∧ v < s.q ∧ elemOp s a * v % s.q = 1 ∧
        (∀ v', 1 ≤ v' → v' < s.q → elemOp s a * v' % s.q = 1 → v' = v) ∧ Writes (.finv d a) s d v))

/-- R127: base^e mod q with the full 32-bit exponent, base^0 = 1. -/
def Obligations.FieldExponentiation : Prop :=
  ∀ (d a b : XReg) (s : State), Inv s →
    CommandWord (.fexp d a b) 0x15 d a b 0 ∧
    WithInstance (.fexp d a b) s (Writes (.fexp d a b) s d (elemOp s a ^ intOp s b % s.q))

/-- R129, R130, 43_coder.md R188: `FCARD` writes Q, `FPROOT` writes G, which is GROOT(WS) with the default 3
for both fields, `NOUT` writes N. -/
def Obligations.FieldConstantsAndCodeLength : Prop :=
  ∀ (d : XReg) (s : State), Inv s →
    CommandWord (.fcard d) 0x17 d 0 0 0 ∧ WithInstance (.fcard d) s (Writes (.fcard d) s d s.q) ∧
    CommandWord (.fproot d) 0x18 d 0 0 0 ∧
    WithInstance (.fproot d) s (Writes (.fproot d) s d s.g ∧ s.g = s.par.groot s.wordSize) ∧
    (Params.default.groot 1 = 3 ∧ Params.default.groot 2 = 3) ∧
    CommandWord (.nout d) 0x41 d 0 0 0 ∧ WithInstance (.nout d) s (Writes (.nout d) s d s.n)

/-- R131: g^((q−1)/n) mod q for n dividing q − 1; OperandError 1 otherwise. -/
def Obligations.NthRootOfUnity : Prop :=
  ∀ (d a : XReg) (s : State), Inv s →
    CommandWord (.fnroot d a) 0x19 d a 0 0 ∧
    WithInstance (.fnroot d a) s (
      (intOp s a = 0 ∨ (s.q - 1) % intOp s a ≠ 0 → Faults (.fnroot d a) s 5 1) ∧
      (intOp s a ≠ 0 → (s.q - 1) % intOp s a = 0 →
        Writes (.fnroot d a) s d (s.g ^ ((s.q - 1) / intOp s a) % s.q)))

/-- R132: the least power of two that is at least m; OperandError 2 for m > q − 1. -/
def Obligations.CodeLengthHighComposite : Prop :=
  ∀ (d a : XReg) (s : State), Inv s →
    CommandWord (.fclhc d a) 0x1A d a 0 0 ∧
    WithInstance (.fclhc d a) s (
      (intOp s a > s.q - 1 → Faults (.fclhc d a) s 5 2) ∧
      (intOp s a ≤ s.q - 1 → ∃ j, intOp s a ≤ 2 ^ j ∧ (∀ i, intOp s a ≤ 2 ^ i → j ≤ i) ∧
        Writes (.fclhc d a) s d (2 ^ j)))

/-- R133: the Jacobi symbol by u^((q−1)/2), −1 shown as 0xFFFFFFFF; that power is then q − 1. -/
def Obligations.JacobiSymbol : Prop :=
  ∀ (d a : XReg) (s : State), Inv s →
    CommandWord (.fjac d a) 0x1B d a 0 0 ∧
    WithInstance (.fjac d a) s (
      (elemOp s a = 0 → Writes (.fjac d a) s d 0) ∧
      (elemOp s a ≠ 0 → elemOp s a ^ ((s.q - 1) / 2) % s.q = 1 → Writes (.fjac d a) s d 1) ∧
      (elemOp s a ≠ 0 → elemOp s a ^ ((s.q - 1) / 2) % s.q ≠ 1 →
        Writes (.fjac d a) s d 0xFFFFFFFF ∧ elemOp s a ^ ((s.q - 1) / 2) % s.q = s.q - 1))

/-- 43_coder.md R187: N is the least power of two ≥ K + M and divides Q − 1, K ≤ N − 1, R^N = 1, R^(N/2) = Q − 1, and the
N powers of R are distinct and not 0. -/
def Obligations.InstanceRootHasOrderN : Prop :=
  ∀ s : State, Inv s → s.ready = true →
    (∃ j, s.n = 2 ^ j ∧ ∀ i, s.k + s.inst.m.toNat ≤ 2 ^ i → s.n ≤ 2 ^ i) ∧ s.k + s.inst.m.toNat ≤ s.n ∧
    s.n ∣ s.q - 1 ∧ s.k ≤ s.n - 1 ∧ s.r ^ s.n % s.q = 1 ∧ s.r ^ (s.n / 2) % s.q = s.q - 1 ∧
    (∀ i j, i < s.n → j < s.n → s.r ^ i % s.q = s.r ^ j % s.q → i = j) ∧ (∀ i, i < s.n → s.r ^ i % s.q ≠ 0)

/-! ### Polynomial commands (41_poly.md) -/

/-- R151, R152: `PSET` stores the reduced coefficient at one degree, CapacityError 1 beyond PCAP; `PGET` reads one
coefficient reduced, 0 beyond the register. -/
def Obligations.PolynomialSetAndGet : Prop :=
  ∀ (p : PReg) (d a b : XReg) (s : State), Inv s →
    CommandWord (.pset p a b) 0x20 p a b 0 ∧
    WithInstance (.pset p a b) s (
      (intOp s a ≥ s.par.pcap → Faults (.pset p a b) s 6 1) ∧
      (intOp s a < s.par.pcap → ∃ t, exec (.pset p a b) s = .next t ∧ ChangesOnlyPoly p s t ∧
        ∀ j, Memory.read 0 (getPoly t p) j =
          if j = intOp s a then BitVec.ofNat 17 (elemOp s b) else Memory.read 0 (getPoly s p) j)) ∧
    CommandWord (.pget d p b) 0x21 d p b 0 ∧
    WithInstance (.pget d p b) s (Writes (.pget d p b) s d
      (if intOp s b < s.par.pcap then (Memory.read 0 (getPoly s p) (intOp s b)).toNat % s.q else 0))

/-- R153: the exact product, coefficient by coefficient; CapacityError 2 when its degree would not fit. -/
def Obligations.PolynomialProduct : Prop :=
  ∀ (d a : PReg) (s : State), Inv s →
    CommandWord (.pmul d a) 0x22 d a 0 0 ∧
    WithInstance (.pmul d a) s (
      (∀ m n, IsDeg s d m → IsDeg s a n → m + n ≥ s.par.pcap → Faults (.pmul d a) s 6 2) ∧
      ((∀ m n, IsDeg s d m → IsDeg s a n → m + n < s.par.pcap) →
        ∃ t, exec (.pmul d a) s = .next t ∧ ChangesOnlyPoly d s t ∧
          ∀ j, j < s.par.pcap → (Memory.read 0 (getPoly t d) j).toNat =
            (∑ i ∈ Finset.range (j + 1), coef s d i * coef s a (j - i)) % s.q))

/-- R154, R155: the derivative, its integer factor taken modulo q, and the negation of every coefficient. -/
def Obligations.PolynomialDerivativeAndNegation : Prop :=
  ∀ (d : PReg) (s : State), Inv s →
    CommandWord (.pder d) 0x23 d 0 0 0 ∧
    WithInstance (.pder d) s (∃ t, exec (.pder d) s = .next t ∧ ChangesOnlyPoly d s t ∧
      (∀ j, j < s.par.pcap - 1 →
        (Memory.read 0 (getPoly t d) j).toNat = (j + 1) % s.q * coef s d (j + 1) % s.q) ∧
      Memory.read 0 (getPoly t d) (s.par.pcap - 1) = 0) ∧
    CommandWord (.pneg d) 0x24 d 0 0 0 ∧
    WithInstance (.pneg d) s (∃ t, exec (.pneg d) s = .next t ∧ ChangesOnlyPoly d s t ∧
      ∀ j, j < s.par.pcap →
        (Memory.read 0 (getPoly t d) j).toNat = if coef s d j = 0 then 0 else s.q - coef s d j)

/-- R156: the value Σ coef(a, j)·v^j mod q. -/
def Obligations.PolynomialEvaluation : Prop :=
  ∀ (d b : XReg) (a : PReg) (s : State), Inv s →
    CommandWord (.peval d a b) 0x25 d a b 0 ∧
    WithInstance (.peval d a b) s (Writes (.peval d a b) s d
      ((∑ j ∈ Finset.range s.par.pcap, coef s a j * elemOp s b ^ j) % s.q))

/-- R157, R158: copy of the raw cells, and the zero polynomial. -/
def Obligations.PolynomialCopyAndClear : Prop :=
  ∀ (d a : PReg) (s : State), Inv s →
    CommandWord (.pcopy d a) 0x26 d a 0 0 ∧
    WithInstance (.pcopy d a) s (∃ t, exec (.pcopy d a) s = .next t ∧ ChangesOnlyPoly d s t ∧
      ∀ j, Memory.read 0 (getPoly t d) j = Memory.read 0 (getPoly s a) j) ∧
    CommandWord (.pclr d) 0x27 d 0 0 0 ∧
    WithInstance (.pclr d) s (∃ t, exec (.pclr d) s = .next t ∧ ChangesOnlyPoly d s t ∧
      ∀ j, Memory.read 0 (getPoly t d) j = 0)

/-! ### FFT commands (42_fft.md) -/

/-- R171, R173: the forward transform of lane 0, and of the lanes 0 .. P−1, from `IBUF` to `OBUF`, every other cell and all
other state as before. -/
def Obligations.ForwardTransform : Prop :=
  ∀ s : State, Inv s →
    CommandWord .fft 0x30 0 0 0 0 ∧
    WithInstance .fft s (∃ t, exec .fft s = .next t ∧ ChangesOnlyObuf s t ∧
      ∀ p l, Grid.read t.obuf p l =
        if l = 0 ∧ p < s.n then BitVec.ofNat 17 (transformSum s s.n l p) else Grid.read s.obuf p l) ∧
    CommandWord .fftp 0x32 0 0 0 0 ∧
    WithInstance .fftp s (∃ t, exec .fftp s = .next t ∧ ChangesOnlyObuf s t ∧
      ∀ p l, Grid.read t.obuf p l =
        if l < s.lanes ∧ p < s.n then BitVec.ofNat 17 (transformSum s s.n l p) else Grid.read s.obuf p l)

/-- R172, R174: the inverse transform of lane 0, and of the lanes 0 .. P−1, with the inverses of R and of N. -/
def Obligations.InverseTransform : Prop :=
  ∀ s : State, Inv s →
    CommandWord .ifft 0x31 0 0 0 0 ∧
    WithInstance .ifft s (∃ t ri ni, s.r * ri % s.q = 1 ∧ s.n * ni % s.q = 1 ∧ exec .ifft s = .next t ∧
      ChangesOnlyObuf s t ∧
      ∀ p l, Grid.read t.obuf p l =
        if l = 0 ∧ p < s.n then
          BitVec.ofNat 17 (ni * (∑ j ∈ Finset.range s.n, inputElem s j l * ri ^ (p * j)) % s.q)
        else Grid.read s.obuf p l) ∧
    CommandWord .ifftp 0x33 0 0 0 0 ∧
    WithInstance .ifftp s (∃ t ri ni, s.r * ri % s.q = 1 ∧ s.n * ni % s.q = 1 ∧ exec .ifftp s = .next t ∧
      ChangesOnlyObuf s t ∧
      ∀ p l, Grid.read t.obuf p l =
        if l < s.lanes ∧ p < s.n then
          BitVec.ofNat 17 (ni * (∑ j ∈ Finset.range s.n, inputElem s j l * ri ^ (p * j)) % s.q)
        else Grid.read s.obuf p l)

/-- R175: a host that copies `OBUF` to `IBUF` after one transform and then runs the other gets the reduced input back, both
ways round. -/
def Obligations.TransformsUndoEachOther : Prop :=
  ∀ (s t u : State), Inv s → s.ready = true → Inv u → u.ready = true → u.inst = s.inst →
    (∀ p, p < s.n → Grid.read u.ibuf p 0 = Grid.read t.obuf p 0) →
    (exec .fft s = .next t → ∃ v, exec .ifft u = .next v ∧
      ∀ p, p < s.n → (Grid.read v.obuf p 0).toNat = inputElem s p 0) ∧
    (exec .ifft s = .next t → ∃ v, exec .fft u = .next v ∧
      ∀ p, p < s.n → (Grid.read v.obuf p 0).toNat = inputElem s p 0)

/-- R170, R175 for the functions the commands use: `forward` and `inverse` of a vector of N field elements are the sums of
R170, and each undoes the other. -/
def Obligations.TransformsOfVectorsUndoEachOther : Prop :=
  ∀ (s : State) (a : List Nat), Inv s → s.ready = true → a.length = s.n → (∀ v ∈ a, v < s.q) →
    (∀ j, j < s.n → (forward s.q s.r s.n a)[j]? =
      some ((∑ i ∈ Finset.range s.n, a.getD i 0 * s.r ^ (i * j)) % s.q)) ∧
    (∃ ri ni, s.r * ri % s.q = 1 ∧ s.n * ni % s.q = 1 ∧ ∀ i, i < s.n → (inverse s.q s.r s.n a)[i]? =
      some (ni * (∑ j ∈ Finset.range s.n, a.getD j 0 * ri ^ (i * j)) % s.q)) ∧
    inverse s.q s.r s.n (forward s.q s.r s.n a) = a ∧ forward s.q s.r s.n (inverse s.q s.r s.n a) = a

/-! ### Coder commands (43_coder.md) -/

/-- R186: construction. The checks in order, each with its error; when all pass, the instance holds the arguments and the
derived values, `READY` = 1, and nothing else changes. -/
def Obligations.ConfigConstructsTheInstance : Prop :=
  ∀ (s : State) (ws k m p q : Nat), s.par.wf = true → ws = s.cfg.ws.toNat → k = s.cfg.k.toNat → m = s.cfg.m.toNat →
    p = s.cfg.p.toNat → q = 2 ^ (8 * ws) + 1 →
    CommandWord .config 0x40 0 0 0 0 ∧
    (ws ≠ 1 → ws ≠ 2 → Faults .config s 1 1) ∧
    (ws = 1 ∨ ws = 2 →
      (k = 0 → Faults .config s 1 2) ∧
      (k ≠ 0 → m = 0 → Faults .config s 1 3) ∧
      (k ≠ 0 → m ≠ 0 → p = 0 ∨ p > s.par.pmax → Faults .config s 1 4) ∧
      (k ≠ 0 → m ≠ 0 → p ≠ 0 → p ≤ s.par.pmax →
        (k + m > q - 1 → Faults .config s 1 5) ∧
        (k + m ≤ q - 1 → ∀ n j, n = 2 ^ j → k + m ≤ n → (∀ i, k + m ≤ 2 ^ i → j ≤ i) →
          (n > s.par.nmax → Faults .config s 1 6) ∧
          (n ≤ s.par.nmax →
            (s.par.groot ws ^ ((q - 1) / 2) % q ≠ q - 1 → Faults .config s 2 0) ∧
            (s.par.groot ws ^ ((q - 1) / 2) % q = q - 1 →
              ∃ t, exec .config s = .next t ∧ t = { s with ready := true, inst := t.inst } ∧
                t.inst.ws.toNat = ws ∧ t.inst.k.toNat = k ∧ t.inst.m.toNat = m ∧ t.inst.p.toNat = p ∧
                t.inst.q.toNat = q ∧ t.inst.g.toNat = s.par.groot ws ∧ t.inst.n.toNat = n ∧
                t.inst.r.toNat = s.par.groot ws ^ ((q - 1) / n) % q)))))

/-- R190: scalar encode. The code values of lane 0 go to `OBUF`, an out-of-range one as 0 with the entry (OFFSET, 1)
appended to its list; CapacityError 3, before any write, when a list that must take an entry is full. -/
def Obligations.ScalarEncode : Prop :=
  ∀ s : State, Inv s →
    CommandWord .enc 0x42 0 0 0 0 ∧
    WithInstance .enc s (
      ((∃ j, j < s.n ∧ transformSum s s.k 0 j = s.q - 1 ∧ (getProps s j).entries.length = s.par.propcap) →
        Faults .enc s 6 3) ∧
      ((∀ j, j < s.n → transformSum s s.k 0 j = s.q - 1 → (getProps s j).entries.length ≠ s.par.propcap) →
        ∃ t, exec .enc s = .next t ∧ t = { s with obuf := t.obuf, prop := t.prop } ∧
          (∀ p l, Grid.read t.obuf p l =
            if l = 0 ∧ p < s.n then
              (if transformSum s s.k 0 p = s.q - 1 then 0 else BitVec.ofNat 17 (transformSum s s.k 0 p))
            else Grid.read s.obuf p l) ∧
          (∀ p, getProps t p =
            if p < s.n ∧ transformSum s s.k 0 p = s.q - 1 then
              { getProps s p with entries := (getProps s p).entries ++ [{ loc := s.offset, mark := 1 }] }
            else getProps s p)))

/-- R191: packet encode, lane by lane, the entries of a position in the order of the lanes at the locations
(OFFSET + l·WS) mod 2^64. -/
def Obligations.PacketEncode : Prop :=
  ∀ s : State, Inv s →
    CommandWord .encp 0x43 0 0 0 0 ∧
    WithInstance .encp s (
      ((∃ j, j < s.n ∧ (getProps s j).entries.length +
          ((List.range s.lanes).filter fun l => transformSum s s.k l j = s.q - 1).length > s.par.propcap) →
        Faults .encp s 6 3) ∧
      ((∀ j, j < s.n → (getProps s j).entries.length +
          ((List.range s.lanes).filter fun l => transformSum s s.k l j = s.q - 1).length ≤ s.par.propcap) →
        ∃ t, exec .encp s = .next t ∧ t = { s with obuf := t.obuf, prop := t.prop } ∧
          (∀ p l, Grid.read t.obuf p l =
            if l < s.lanes ∧ p < s.n then
              (if transformSum s s.k l p = s.q - 1 then 0 else BitVec.ofNat 17 (transformSum s s.k l p))
            else Grid.read s.obuf p l) ∧
          (∀ p, getProps t p =
            if p < s.n then
              { getProps s p with entries := (getProps s p).entries ++
                ((List.range s.lanes).filter fun l => transformSum s s.k l p = s.q - 1).map fun l =>
                  { loc := s.offset + BitVec.ofNat 64 (l * s.wordSize), mark := 1 } }
            else getProps s p)))

/-- R193 with R195: scalar decode. OperandError 3 for an id not below N, then ArithmeticError 3 for ids that are not
distinct; else `OBUF[0..K−1][0]` holds the coefficients below Q of the one polynomial of degree below K that takes the
restored value y[i] at R^(IDS[i]), and nothing else changes. -/
def Obligations.ScalarDecode : Prop :=
  ∀ s : State, Inv s →
    CommandWord .dec 0x44 0 0 0 0 ∧
    WithInstance .dec s (
      ((∃ i, i < s.k ∧ fragId s i ≥ s.n) → Faults .dec s 5 3) ∧
      ((∀ i, i < s.k → fragId s i < s.n) →
        ((∃ i j, i < j ∧ j < s.k ∧ fragId s i = fragId s j) → Faults .dec s 3 3) ∧
        ((∀ i j, i < j → j < s.k → fragId s i ≠ fragId s j) →
          ∃ t, exec .dec s = .next t ∧ ChangesOnlyObuf s t ∧
            (∀ p l, ¬ (l = 0 ∧ p < s.k) → Grid.read t.obuf p l = Grid.read s.obuf p l) ∧
            (∀ p, p < s.k → (Grid.read t.obuf p 0).toNat < s.q) ∧
            (∀ i, i < s.k →
              (∑ p ∈ Finset.range s.k, (Grid.read t.obuf p 0).toNat * (s.r ^ fragId s i) ^ p) % s.q = restored s 0 i) ∧
            (∀ c : Nat → Nat, (∀ p, p < s.k → c p < s.q) →
              (∀ i, i < s.k → (∑ p ∈ Finset.range s.k, c p * (s.r ^ fragId s i) ^ p) % s.q = restored s 0 i) →
              ∀ p, p < s.k → (Grid.read t.obuf p 0).toNat = c p))))

/-- R194: packet decode, every lane with its own location. -/
def Obligations.PacketDecode : Prop :=
  ∀ s : State, Inv s →
    CommandWord .decp 0x45 0 0 0 0 ∧
    WithInstance .decp s (
      ((∃ i, i < s.k ∧ fragId s i ≥ s.n) → Faults .decp s 5 3) ∧
      ((∀ i, i < s.k → fragId s i < s.n) →
        ((∃ i j, i < j ∧ j < s.k ∧ fragId s i = fragId s j) → Faults .decp s 3 3) ∧
        ((∀ i j, i < j → j < s.k → fragId s i ≠ fragId s j) →
          ∃ t, exec .decp s = .next t ∧ ChangesOnlyObuf s t ∧
            (∀ p l, ¬ (l < s.lanes ∧ p < s.k) → Grid.read t.obuf p l = Grid.read s.obuf p l) ∧
            (∀ p l, l < s.lanes → p < s.k → (Grid.read t.obuf p l).toNat < s.q) ∧
            (∀ i l, l < s.lanes → i < s.k →
              (∑ p ∈ Finset.range s.k, (Grid.read t.obuf p l).toNat * (s.r ^ fragId s i) ^ p) % s.q =
                restored s l i))))

/-- R201 (1): what `ENC` wrote from an empty property store, `DEC` recovers from any K distinct positions, in any order,
with the same instance, property store and OFFSET: the K source words, the OOR positions included. -/
def Obligations.DecodeRecoversWhatEncodeWrote : Prop :=
  ∀ (s t u : State), Inv s → s.ready = true → s.prop = [] → exec .enc s = .next t →
    Inv u → u.ready = true → u.inst = s.inst → u.par = s.par → u.offset = s.offset → u.prop = t.prop →
    (∀ i, i < s.k → fragId u i < s.n) → (∀ i j, i < j → j < s.k → fragId u i ≠ fragId u j) →
    (∀ i, i < s.k → Grid.read u.ibuf i 0 = Grid.read t.obuf (fragId u i) 0) →
    ∃ v, exec .dec u = .next v ∧ ∀ i, i < s.k → (Grid.read v.obuf i 0).toNat = inputElem s i 0

/-- R196, R197, R198: `DADDD` fails always, `DADDP` and `DBUILD` change nothing. -/
def Obligations.DecodeHooks : Prop :=
  ∀ s : State,
    CommandWord .daddd 0x46 0 0 0 0 ∧ WithInstance .daddd s (Faults .daddd s 4 0) ∧
    CommandWord .daddp 0x47 0 0 0 0 ∧ WithInstance .daddp s (exec .daddp s = .next s) ∧
    CommandWord .dbuild 0x48 0 0 0 0 ∧ WithInstance .dbuild s (exec .dbuild s = .next s)

/-! ### Property commands (44_property.md) -/

/-- R221: append one entry, position and capacity checked, the cursor unchanged. -/
def Obligations.PropertyAdd : Prop :=
  ∀ (d a b c : XReg) (s : State), Inv s →
    CommandWord (.pradd d a b c) 0x50 d a b c ∧
    (intOp s a ≥ s.par.nmax → Faults (.pradd d a b c) s 5 4) ∧
    (intOp s a < s.par.nmax → (getProps s (intOp s a)).entries.length = s.par.propcap →
      Faults (.pradd d a b c) s 6 3) ∧
    (intOp s a < s.par.nmax → (getProps s (intOp s a)).entries.length ≠ s.par.propcap →
      ∃ t, exec (.pradd d a b c) s = .next t ∧ ChangesOnlyProps (intOp s a) s t ∧
        (getProps t (intOp s a)).cursor = (getProps s (intOp s a)).cursor ∧
        (getProps t (intOp s a)).entries = (getProps s (intOp s a)).entries ++
          [{ loc := BitVec.ofNat 64 ((getX s c).toNat * 2 ^ 32 + (getX s b).toNat), mark := getX s d }])

/-- R222: `PRMK` answers 1 and consumes the current entry when its location is the one asked for, else answers 0 and
consumes nothing. -/
def Obligations.PropertyIsMarked : Prop :=
  ∀ (d a b c : XReg) (s : State), Inv s →
    CommandWord (.prmk d a b c) 0x51 d a b c ∧
    (intOp s a ≥ s.par.nmax → Faults (.prmk d a b c) s 5 4) ∧
    (intOp s a < s.par.nmax →
      ((∃ e, (getProps s (intOp s a)).entries[(getProps s (intOp s a)).cursor]? = some e ∧
          e.loc.toNat = (getX s c).toNat * 2 ^ 32 + (getX s b).toNat) →
        ∃ t, exec (.prmk d a b c) s = .next t ∧ getX t d = 1 ∧ (∀ r, r ≠ d → getX t r = getX s r) ∧
          (∀ p, p ≠ intOp s a → getProps t p = getProps s p) ∧
          (getProps t (intOp s a)).entries = (getProps s (intOp s a)).entries ∧
          (getProps t (intOp s a)).cursor = (getProps s (intOp s a)).cursor + 1 ∧
          t = { s with x := t.x, prop := t.prop }) ∧
      ((∀ e, (getProps s (intOp s a)).entries[(getProps s (intOp s a)).cursor]? = some e →
          e.loc.toNat ≠ (getX s c).toNat * 2 ^ 32 + (getX s b).toNat) →
        Writes (.prmk d a b c) s d 0))

/-- R223, R224, R225: advance the cursor by one (not beyond the end), set it to 0, empty the list. -/
def Obligations.PropertyIteratorCommands : Prop :=
  ∀ (a : XReg) (s : State), Inv s →
    CommandWord (.prnext a) 0x52 0 a 0 0 ∧ CommandWord (.prrew a) 0x53 0 a 0 0 ∧ CommandWord (.prclr a) 0x54 0 a 0 0 ∧
    (intOp s a ≥ s.par.nmax → Faults (.prnext a) s 5 4 ∧ Faults (.prrew a) s 5 4 ∧ Faults (.prclr a) s 5 4) ∧
    (intOp s a < s.par.nmax →
      (∃ t, exec (.prnext a) s = .next t ∧ ChangesOnlyProps (intOp s a) s t ∧
        (getProps t (intOp s a)).entries = (getProps s (intOp s a)).entries ∧
        (getProps t (intOp s a)).cursor =
          if (getProps s (intOp s a)).cursor < (getProps s (intOp s a)).entries.length
          then (getProps s (intOp s a)).cursor + 1 else (getProps s (intOp s a)).cursor) ∧
      (∃ t, exec (.prrew a) s = .next t ∧ ChangesOnlyProps (intOp s a) s t ∧
        (getProps t (intOp s a)).entries = (getProps s (intOp s a)).entries ∧
        (getProps t (intOp s a)).cursor = 0) ∧
      (∃ t, exec (.prclr a) s = .next t ∧ ChangesOnlyProps (intOp s a) s t ∧
        (getProps t (intOp s a)).entries = [] ∧ (getProps t (intOp s a)).cursor = 0))

/-- R226, R227: empty every list; the number of entries of a list, which 00_scope.md R9 has fit a register. -/
def Obligations.PropertyClearAllAndLength : Prop :=
  ∀ (d a : XReg) (s : State), Inv s →
    CommandWord .prclra 0x55 0 0 0 0 ∧
    (∃ t, exec .prclra s = .next t ∧ t = { s with prop := t.prop } ∧
      ∀ p, (getProps t p).entries = [] ∧ (getProps t p).cursor = 0) ∧
    CommandWord (.prlen d a) 0x56 d a 0 0 ∧
    (intOp s a ≥ s.par.nmax → Faults (.prlen d a) s 5 4) ∧
    (intOp s a < s.par.nmax → Writes (.prlen d a) s d (getProps s (intOp s a)).entries.length)

/-! ### The invariant -/

/-- The state after reset, with any legal parameters, meets the invariant. -/
def Obligations.ResetMeetsTheInvariant : Prop :=
  Inv State.reset ∧ ∀ c : Params, c.wf = true → Inv (State.resetOf c)

/-- Every step keeps the invariant (10_state.md R31, R34, R36 to R39, R44): the instance is legal or all 0, a recorded
error is one of the list, every memory keeps its canonical form and its bounds, and PCUR ≤ PLEN ≤ PROPCAP. -/
def Obligations.EveryStepKeepsTheInvariant : Prop :=
  ∀ s t : State, Inv s → step s = .next t → Inv t
end

