-- ==== Sys2Proof/Laws/State.lean ====
section
/-! SUPPORT. One lemma per field and per update of the state, and what reading a register gives after a write. -/

namespace Sys2Proof.Machine

open Sys2Proof

/-! ### setX -/

@[simp] theorem setX_cfg (s : State) (i : XReg) (v : Word) : (setX s i v).cfg = s.cfg := rfl
@[simp] theorem setX_ready (s : State) (i : XReg) (v : Word) : (setX s i v).ready = s.ready := rfl
@[simp] theorem setX_inst (s : State) (i : XReg) (v : Word) : (setX s i v).inst = s.inst := rfl
@[simp] theorem setX_offset (s : State) (i : XReg) (v : Word) : (setX s i v).offset = s.offset := rfl
@[simp] theorem setX_error (s : State) (i : XReg) (v : Word) : (setX s i v).error = s.error := rfl
@[simp] theorem setX_poly (s : State) (i : XReg) (v : Word) : (setX s i v).poly = s.poly := rfl
@[simp] theorem setX_ibuf (s : State) (i : XReg) (v : Word) : (setX s i v).ibuf = s.ibuf := rfl
@[simp] theorem setX_obuf (s : State) (i : XReg) (v : Word) : (setX s i v).obuf = s.obuf := rfl
@[simp] theorem setX_ids (s : State) (i : XReg) (v : Word) : (setX s i v).ids = s.ids := rfl
@[simp] theorem setX_prop (s : State) (i : XReg) (v : Word) : (setX s i v).prop = s.prop := rfl
@[simp] theorem setX_win (s : State) (i : XReg) (v : Word) : (setX s i v).win = s.win := rfl
@[simp] theorem setX_par (s : State) (i : XReg) (v : Word) : (setX s i v).par = s.par := rfl
@[simp] theorem setX_port (s : State) (i : XReg) (v : Word) : (setX s i v).port = s.port := rfl
@[simp] theorem setX_reads (s : State) (i : XReg) (v : Word) : (setX s i v).reads = s.reads := rfl

/-! ### setXNat -/

@[simp] theorem setXNat_cfg (s : State) (i : XReg) (v : Nat) : (setXNat s i v).cfg = s.cfg := rfl
@[simp] theorem setXNat_ready (s : State) (i : XReg) (v : Nat) : (setXNat s i v).ready = s.ready := rfl
@[simp] theorem setXNat_inst (s : State) (i : XReg) (v : Nat) : (setXNat s i v).inst = s.inst := rfl
@[simp] theorem setXNat_offset (s : State) (i : XReg) (v : Nat) : (setXNat s i v).offset = s.offset := rfl
@[simp] theorem setXNat_error (s : State) (i : XReg) (v : Nat) : (setXNat s i v).error = s.error := rfl
@[simp] theorem setXNat_poly (s : State) (i : XReg) (v : Nat) : (setXNat s i v).poly = s.poly := rfl
@[simp] theorem setXNat_ibuf (s : State) (i : XReg) (v : Nat) : (setXNat s i v).ibuf = s.ibuf := rfl
@[simp] theorem setXNat_obuf (s : State) (i : XReg) (v : Nat) : (setXNat s i v).obuf = s.obuf := rfl
@[simp] theorem setXNat_ids (s : State) (i : XReg) (v : Nat) : (setXNat s i v).ids = s.ids := rfl
@[simp] theorem setXNat_prop (s : State) (i : XReg) (v : Nat) : (setXNat s i v).prop = s.prop := rfl
@[simp] theorem setXNat_win (s : State) (i : XReg) (v : Nat) : (setXNat s i v).win = s.win := rfl
@[simp] theorem setXNat_par (s : State) (i : XReg) (v : Nat) : (setXNat s i v).par = s.par := rfl
@[simp] theorem setXNat_port (s : State) (i : XReg) (v : Nat) : (setXNat s i v).port = s.port := rfl
@[simp] theorem setXNat_reads (s : State) (i : XReg) (v : Nat) : (setXNat s i v).reads = s.reads := rfl

/-! ### setPoly -/

@[simp] theorem setPoly_x (s : State) (i : PReg) (m : Memory Elem) : (setPoly s i m).x = s.x := rfl
@[simp] theorem setPoly_cfg (s : State) (i : PReg) (m : Memory Elem) : (setPoly s i m).cfg = s.cfg := rfl
@[simp] theorem setPoly_ready (s : State) (i : PReg) (m : Memory Elem) : (setPoly s i m).ready = s.ready := rfl
@[simp] theorem setPoly_inst (s : State) (i : PReg) (m : Memory Elem) : (setPoly s i m).inst = s.inst := rfl
@[simp] theorem setPoly_offset (s : State) (i : PReg) (m : Memory Elem) : (setPoly s i m).offset = s.offset := rfl
@[simp] theorem setPoly_error (s : State) (i : PReg) (m : Memory Elem) : (setPoly s i m).error = s.error := rfl
@[simp] theorem setPoly_ibuf (s : State) (i : PReg) (m : Memory Elem) : (setPoly s i m).ibuf = s.ibuf := rfl
@[simp] theorem setPoly_obuf (s : State) (i : PReg) (m : Memory Elem) : (setPoly s i m).obuf = s.obuf := rfl
@[simp] theorem setPoly_ids (s : State) (i : PReg) (m : Memory Elem) : (setPoly s i m).ids = s.ids := rfl
@[simp] theorem setPoly_prop (s : State) (i : PReg) (m : Memory Elem) : (setPoly s i m).prop = s.prop := rfl
@[simp] theorem setPoly_win (s : State) (i : PReg) (m : Memory Elem) : (setPoly s i m).win = s.win := rfl
@[simp] theorem setPoly_par (s : State) (i : PReg) (m : Memory Elem) : (setPoly s i m).par = s.par := rfl
@[simp] theorem setPoly_port (s : State) (i : PReg) (m : Memory Elem) : (setPoly s i m).port = s.port := rfl
@[simp] theorem setPoly_reads (s : State) (i : PReg) (m : Memory Elem) : (setPoly s i m).reads = s.reads := rfl

/-! ### setProps -/

@[simp] theorem setProps_x (s : State) (pos : Nat) (l : PropList) : (setProps s pos l).x = s.x := rfl
@[simp] theorem setProps_cfg (s : State) (pos : Nat) (l : PropList) : (setProps s pos l).cfg = s.cfg := rfl
@[simp] theorem setProps_ready (s : State) (pos : Nat) (l : PropList) : (setProps s pos l).ready = s.ready := rfl
@[simp] theorem setProps_inst (s : State) (pos : Nat) (l : PropList) : (setProps s pos l).inst = s.inst := rfl
@[simp] theorem setProps_offset (s : State) (pos : Nat) (l : PropList) : (setProps s pos l).offset = s.offset := rfl
@[simp] theorem setProps_error (s : State) (pos : Nat) (l : PropList) : (setProps s pos l).error = s.error := rfl
@[simp] theorem setProps_poly (s : State) (pos : Nat) (l : PropList) : (setProps s pos l).poly = s.poly := rfl
@[simp] theorem setProps_ibuf (s : State) (pos : Nat) (l : PropList) : (setProps s pos l).ibuf = s.ibuf := rfl
@[simp] theorem setProps_obuf (s : State) (pos : Nat) (l : PropList) : (setProps s pos l).obuf = s.obuf := rfl
@[simp] theorem setProps_ids (s : State) (pos : Nat) (l : PropList) : (setProps s pos l).ids = s.ids := rfl
@[simp] theorem setProps_win (s : State) (pos : Nat) (l : PropList) : (setProps s pos l).win = s.win := rfl
@[simp] theorem setProps_par (s : State) (pos : Nat) (l : PropList) : (setProps s pos l).par = s.par := rfl
@[simp] theorem setProps_port (s : State) (pos : Nat) (l : PropList) : (setProps s pos l).port = s.port := rfl
@[simp] theorem setProps_reads (s : State) (pos : Nat) (l : PropList) : (setProps s pos l).reads = s.reads := rfl

/-! ### takeFault -/

@[simp] theorem takeFault_x (w : Word) (e : Err) (s : State) : (takeFault w e s).x = s.x := rfl
@[simp] theorem takeFault_cfg (w : Word) (e : Err) (s : State) : (takeFault w e s).cfg = s.cfg := rfl
@[simp] theorem takeFault_ready (w : Word) (e : Err) (s : State) : (takeFault w e s).ready = s.ready := rfl
@[simp] theorem takeFault_inst (w : Word) (e : Err) (s : State) : (takeFault w e s).inst = s.inst := rfl
@[simp] theorem takeFault_offset (w : Word) (e : Err) (s : State) : (takeFault w e s).offset = s.offset := rfl
@[simp] theorem takeFault_poly (w : Word) (e : Err) (s : State) : (takeFault w e s).poly = s.poly := rfl
@[simp] theorem takeFault_ibuf (w : Word) (e : Err) (s : State) : (takeFault w e s).ibuf = s.ibuf := rfl
@[simp] theorem takeFault_obuf (w : Word) (e : Err) (s : State) : (takeFault w e s).obuf = s.obuf := rfl
@[simp] theorem takeFault_ids (w : Word) (e : Err) (s : State) : (takeFault w e s).ids = s.ids := rfl
@[simp] theorem takeFault_prop (w : Word) (e : Err) (s : State) : (takeFault w e s).prop = s.prop := rfl
@[simp] theorem takeFault_win (w : Word) (e : Err) (s : State) : (takeFault w e s).win = s.win := rfl
@[simp] theorem takeFault_par (w : Word) (e : Err) (s : State) : (takeFault w e s).par = s.par := rfl
@[simp] theorem takeFault_port (w : Word) (e : Err) (s : State) : (takeFault w e s).port = s.port := rfl
@[simp] theorem takeFault_reads (w : Word) (e : Err) (s : State) : (takeFault w e s).reads = s.reads := rfl

/-! ### clearFault -/

@[simp] theorem clearFault_x (s : State) : (clearFault s).x = s.x := rfl
@[simp] theorem clearFault_cfg (s : State) : (clearFault s).cfg = s.cfg := rfl
@[simp] theorem clearFault_ready (s : State) : (clearFault s).ready = s.ready := rfl
@[simp] theorem clearFault_inst (s : State) : (clearFault s).inst = s.inst := rfl
@[simp] theorem clearFault_offset (s : State) : (clearFault s).offset = s.offset := rfl
@[simp] theorem clearFault_poly (s : State) : (clearFault s).poly = s.poly := rfl
@[simp] theorem clearFault_ibuf (s : State) : (clearFault s).ibuf = s.ibuf := rfl
@[simp] theorem clearFault_obuf (s : State) : (clearFault s).obuf = s.obuf := rfl
@[simp] theorem clearFault_ids (s : State) : (clearFault s).ids = s.ids := rfl
@[simp] theorem clearFault_prop (s : State) : (clearFault s).prop = s.prop := rfl
@[simp] theorem clearFault_win (s : State) : (clearFault s).win = s.win := rfl
@[simp] theorem clearFault_par (s : State) : (clearFault s).par = s.par := rfl
@[simp] theorem clearFault_port (s : State) : (clearFault s).port = s.port := rfl
@[simp] theorem clearFault_reads (s : State) : (clearFault s).reads = s.reads := rfl

@[simp] theorem takeFault_error (w : Word) (e : Err) (s : State) :
    (takeFault w e s).error = { err := true, code := e.code, info := e.info, cmd := w } := rfl
@[simp] theorem clearFault_error (s : State) : (clearFault s).error = ErrorRegs.zero := rfl
@[simp] theorem setProps_prop (s : State) (pos : Nat) (l : PropList) :
    (setProps s pos l).prop = Memory.write emptyProps s.prop pos l := rfl

/-! ### resetEngine -/

@[simp] theorem resetEngine_x (s : State) : (resetEngine s).x = (State.resetOf s.par).x := rfl
@[simp] theorem resetEngine_cfg (s : State) : (resetEngine s).cfg = (State.resetOf s.par).cfg := rfl
@[simp] theorem resetEngine_ready (s : State) : (resetEngine s).ready = (State.resetOf s.par).ready := rfl
@[simp] theorem resetEngine_inst (s : State) : (resetEngine s).inst = (State.resetOf s.par).inst := rfl
@[simp] theorem resetEngine_offset (s : State) : (resetEngine s).offset = (State.resetOf s.par).offset := rfl
@[simp] theorem resetEngine_error (s : State) : (resetEngine s).error = (State.resetOf s.par).error := rfl
@[simp] theorem resetEngine_poly (s : State) : (resetEngine s).poly = (State.resetOf s.par).poly := rfl
@[simp] theorem resetEngine_ibuf (s : State) : (resetEngine s).ibuf = (State.resetOf s.par).ibuf := rfl
@[simp] theorem resetEngine_obuf (s : State) : (resetEngine s).obuf = (State.resetOf s.par).obuf := rfl
@[simp] theorem resetEngine_ids (s : State) : (resetEngine s).ids = (State.resetOf s.par).ids := rfl
@[simp] theorem resetEngine_prop (s : State) : (resetEngine s).prop = (State.resetOf s.par).prop := rfl
@[simp] theorem resetEngine_win (s : State) : (resetEngine s).win = (State.resetOf s.par).win := rfl
@[simp] theorem resetEngine_par (s : State) : (resetEngine s).par = s.par := rfl
@[simp] theorem resetEngine_port (s : State) : (resetEngine s).port = s.port := rfl
@[simp] theorem resetEngine_reads (s : State) : (resetEngine s).reads = s.reads := rfl

/-! ### Reading a register after a write -/

@[simp] theorem getX_setX_same (s : State) (i : XReg) (v : Word) : getX (setX s i v) i = v := by
  simp [getX, setX]

theorem getX_setX_ne (s : State) (i j : XReg) (v : Word) (h : j ≠ i) : getX (setX s i v) j = getX s j := by
  have h' : i.val ≠ j.val := fun e => h (Fin.ext e.symm)
  simp [getX, setX, h']

theorem getX_setXNat_same (s : State) (i : XReg) (v : Nat) : getX (setXNat s i v) i = BitVec.ofNat 32 v :=
  getX_setX_same s i _

theorem getX_setXNat_ne (s : State) (i j : XReg) (v : Nat) (h : j ≠ i) : getX (setXNat s i v) j = getX s j :=
  getX_setX_ne s i j _ h

@[simp] theorem getPoly_setPoly_same (s : State) (i : PReg) (m : Memory Elem) : getPoly (setPoly s i m) i = m := by
  simp [getPoly, setPoly]

theorem getPoly_setPoly_ne (s : State) (i j : PReg) (m : Memory Elem) (h : j ≠ i) :
    getPoly (setPoly s i m) j = getPoly s j := by
  have h' : i.val ≠ j.val := fun e => h (Fin.ext e.symm)
  simp [getPoly, setPoly, h']

/-- A register operand is a 32-bit number. -/
theorem intOp_lt (s : State) (i : XReg) : intOp s i < 2 ^ 32 := (getX s i).isLt

/-! ### Two halves of a 64-bit value (10_state.md R33, 44_property.md R221) -/

theorem append_toNat (hi lo : Word) : (hi ++ lo : BitVec 64).toNat = hi.toNat * 2 ^ 32 + lo.toNat := by
  rw [BitVec.toNat_append, Nat.shiftLeft_eq, mul_comm, ← Nat.two_pow_add_eq_or_of_lt lo.isLt]

theorem low_toNat (v : Loc) : (v.extractLsb' 0 32).toNat = v.toNat % 2 ^ 32 := by simp

theorem high_toNat (v : Loc) : (v.extractLsb' 32 32).toNat = v.toNat / 2 ^ 32 := by
  have := v.isLt
  simp [Nat.shiftRight_eq_div_pow]; omega

/-! ### The bounds that legal parameters have (00_scope.md R7) -/

theorem nmax_le {c : Params} (h : c.wf = true) : 2 ≤ c.nmax ∧ c.nmax ≤ 65536 := by
  simp only [Params.wf, Bool.and_eq_true, List.any_eq_true, decide_eq_true_eq, List.mem_range] at h
  obtain ⟨⟨⟨⟨⟨e, he, h1, h2⟩, -⟩, -⟩, -⟩, -⟩ := h
  have := Nat.pow_le_pow_right (n := 2) (by omega) h1
  have := Nat.pow_le_pow_right (n := 2) (by omega) (show e ≤ 16 by omega)
  omega

theorem pmax_lt {c : Params} (h : c.wf = true) : 1 ≤ c.pmax ∧ c.pmax < 2 ^ 32 := by
  simp only [Params.wf, Bool.and_eq_true, decide_eq_true_eq] at h
  exact h.1.1.1.2

theorem propcap_lt {c : Params} (h : c.wf = true) : c.pmax ≤ c.propcap ∧ c.propcap < 2 ^ 32 := by
  simp only [Params.wf, Bool.and_eq_true, decide_eq_true_eq] at h
  exact h.1.1.2

theorem groot_lt {c : Params} (h : c.wf = true) {ws : Nat} (hw : ws = 1 ∨ ws = 2) :
    1 ≤ c.groot ws ∧ c.groot ws < fieldCard ws := by
  simp only [Params.wf, Bool.and_eq_true, decide_eq_true_eq] at h
  rcases hw with rfl | rfl
  · exact h.1.2
  · exact h.2

/-! ### The parts of a legal state -/

section
variable {s : State} (h : Inv s)
include h

theorem Inv.params : s.par.wf = true := h.1
theorem Inv.inst : s.instLegal := h.2.1
theorem Inv.error : s.errorLegal := h.2.2.1
theorem Inv.polys : ∀ i : PReg, polyLegal s.par (getPoly s i) := h.2.2.2.1
theorem Inv.ibuf : Grid.legal s.par s.ibuf := h.2.2.2.2.1
theorem Inv.obuf : Grid.legal s.par s.obuf := h.2.2.2.2.2.1
theorem Inv.ids : idsLegal s.par s.ids := h.2.2.2.2.2.2.1
theorem Inv.prop : propLegal s.par s.prop := h.2.2.2.2.2.2.2

end

end Sys2Proof.Machine
end

