-- ==== Sys2Proof/Laws/Arith.lean ====
section
/-! SUPPORT. One spec lemma per function of Machine/Arith.lean over plain numbers: the powers, the code length, the
Horner value and the transforms as sums. -/

namespace Sys2Proof.Machine

/-! ### Powers (40_field.md R127) -/

theorem fpowDigits_eq (q b n e : Nat) (h : e < 2 ^ n) : fpowDigits q b n e = b ^ e % q := by
  induction n generalizing e with
  | zero =>
    have : e = 0 := by simpa using h
    simp [fpowDigits, this]
  | succ n ih =>
    have hhalf : fpowDigits q b n (e / 2) = b ^ (e / 2) % q := ih (e / 2) (by rw [pow_succ] at h; omega)
    have hsq : fsquare q (fpowDigits q b n (e / 2)) = b ^ (2 * (e / 2)) % q := by
      rw [fsquare, fmul, hhalf, ← Nat.mul_mod, ← pow_add, two_mul]
    simp only [fpowDigits, hsq]
    split
    · next h0 => simp [h0]
    · split
      · next hodd => rw [fmul, Nat.mod_mul_mod, ← pow_succ]; congr 2; omega
      · next hev => congr 2; omega

/-- `fpow` is b^e mod q. -/
theorem fpow_eq (q b e : Nat) : fpow q b e = b ^ e % q :=
  fpowDigits_eq q b _ e Nat.lt_log2_self

theorem fpow_lt {q : Nat} (hq : 0 < q) (b e : Nat) : fpow q b e < q := by
  rw [fpow_eq]; exact Nat.mod_lt _ hq

/-! ### Difference and negation (R123, R128) -/

/-- `fsub` is the difference modulo q. -/
theorem fsub_eq {q a b : Nat} (hb : b ≤ q) : (fsub q a b : Int) = ((a : Int) - b) % q := by
  rw [fsub, Int.natCast_mod, Nat.cast_add, Nat.cast_sub hb, show (a : Int) + (q - b) = a - b + q by ring,
    Int.add_emod_right]

theorem fneg_eq {q a : Nat} (ha : a < q) : fneg q a = if a = 0 then 0 else q - a := by
  unfold fneg
  split
  · next h => rw [h, Nat.sub_zero, Nat.mod_self]
  · exact Nat.mod_eq_of_lt (by omega)

/-! ### The code length (R132) -/

theorem codeLen_pow (m : Nat) : ∃ j, codeLen m = 2 ^ j := by
  unfold codeLen
  split
  · exact ⟨0, rfl⟩
  · exact ⟨_, rfl⟩

theorem le_codeLen (m : Nat) : m ≤ codeLen m := by
  unfold codeLen
  split
  · assumption
  · have := @Nat.lt_log2_self (m - 1)
    omega

theorem codeLen_lt {m : Nat} (h : 2 ≤ m) : codeLen m < 2 * m := by
  unfold codeLen
  rw [if_neg (by omega), pow_succ]
  have := Nat.log2_self_le (n := m - 1) (by omega)
  omega

/-- No power of two below `codeLen m` reaches m. -/
theorem codeLen_least (m j : Nat) (h : m ≤ 2 ^ j) : codeLen m ≤ 2 ^ j := by
  by_cases hm : m ≤ 1
  · rw [codeLen, if_pos hm]; exact Nat.one_le_two_pow
  · obtain ⟨i, hi⟩ := codeLen_pow m
    have hlt := codeLen_lt (m := m) (by omega)
    rw [hi] at hlt ⊢
    refine Nat.pow_le_pow_right (by omega) ?_
    by_contra hji
    have : 2 ^ (j + 1) ≤ 2 ^ i := Nat.pow_le_pow_right (by omega) (by omega)
    rw [pow_succ] at this
    omega

theorem one_le_codeLen (m : Nat) : 1 ≤ codeLen m := by
  obtain ⟨j, hj⟩ := codeLen_pow m
  rw [hj]; exact Nat.one_le_two_pow

/-! ### Horner values and term sums (41_poly.md R156) -/

theorem horner_lt {q : Nat} (hq : 0 < q) (cs : List Nat) (v : Nat) : horner q cs v < q := by
  cases cs with
  | nil => exact hq
  | cons c cs => exact Nat.mod_lt _ hq

theorem horner_cons (q c : Nat) (cs : List Nat) (v : Nat) : horner q (c :: cs) v = (horner q cs v * v + c) % q := rfl

/-- A Horner value is the sum Σ c_i·v^i mod q. -/
theorem horner_eq_sum (q : Nat) (cs : List Nat) (v : Nat) :
    horner q cs v = (∑ i ∈ Finset.range cs.length, cs.getD i 0 * v ^ i) % q := by
  induction cs with
  | nil => simp [horner]
  | cons c cs ih =>
    rw [horner_cons, ih, List.length_cons, Finset.sum_range_succ']
    simp only [List.getD_cons_zero, List.getD_cons_succ, pow_zero, mul_one]
    rw [((Nat.mod_modEq _ q).mul_right v).add_right c, Finset.sum_mul]
    congr 2
    exact Finset.sum_congr rfl fun i _ => by ring

theorem evalTerms_lt {q : Nat} (hq : 0 < q) (ts : List (Nat × Nat)) (v : Nat) : evalTerms q ts v < q := by
  cases ts with
  | nil => exact hq
  | cons t ts => exact Nat.mod_lt _ hq

/-- A term sum is Σ c·v^e mod q. -/
theorem evalTerms_eq_sum (q : Nat) (ts : List (Nat × Nat)) (v : Nat) :
    evalTerms q ts v % q = (ts.map fun t => t.2 * v ^ t.1).sum % q := by
  induction ts with
  | nil => simp [evalTerms]
  | cons t ts ih =>
    have : evalTerms q (t :: ts) v = fadd q (fmul q t.2 (fpow q v t.1)) (evalTerms q ts v) := rfl
    rw [this, fadd, fmul, fpow_eq, List.map_cons, List.sum_cons, Nat.mod_mod, Nat.add_mod, ih, Nat.mod_mod, Nat.mul_mod_mod,
      ← Nat.add_mod]

/-! ### The transforms (42_fft.md R170) -/

@[simp] theorem length_forward (q r n : Nat) (a : List Nat) : (forward q r n a).length = n := by simp [forward]

@[simp] theorem length_inverse (q r n : Nat) (a : List Nat) : (inverse q r n a).length = n := by simp [inverse]

theorem sum_pow_mod (q r j : Nat) (a : List Nat) :
    (∑ i ∈ Finset.range a.length, a.getD i 0 * (r ^ j % q) ^ i) % q =
      (∑ i ∈ Finset.range a.length, a.getD i 0 * r ^ (i * j)) % q := by
  rw [Finset.sum_nat_mod, Finset.sum_nat_mod (f := fun i => a.getD i 0 * r ^ (i * j))]
  congr 1
  refine Finset.sum_congr rfl fun i _ => ?_
  rw [Nat.mul_mod, ← Nat.pow_mod, ← Nat.mul_mod, ← pow_mul, mul_comm j i]

/-- Value j of the forward transform: Σ a_i·r^(i·j) mod q, a vector shorter than n counting as padded with zeros. -/
theorem forward_getD (q r n : Nat) (a : List Nat) {j : Nat} (hj : j < n) :
    (forward q r n a).getD j 0 = (∑ i ∈ Finset.range a.length, a.getD i 0 * r ^ (i * j)) % q := by
  simp only [forward, List.getD_eq_getElem?_getD, List.getElem?_map, List.getElem?_range hj, Option.map_some,
    Option.getD_some]
  rw [horner_eq_sum, fpow_eq]
  simpa only [List.getD_eq_getElem?_getD] using sum_pow_mod q r j a

/-- Value i of the inverse transform, with the inverses it uses named. -/
theorem inverse_getD (q r n : Nat) (a : List Nat) {i : Nat} (hi : i < n) :
    (inverse q r n a).getD i 0 =
      finv q (n % q) * (∑ j ∈ Finset.range a.length, a.getD j 0 * (finv q r) ^ (j * i)) % q := by
  simp only [inverse, List.getD_eq_getElem?_getD, List.getElem?_map, List.getElem?_range hi, Option.map_some,
    Option.getD_some, fmul]
  rw [horner_eq_sum, fpow_eq, Nat.mul_mod_mod]
  conv_rhs => rw [← Nat.mul_mod_mod]
  rw [← Nat.mul_mod_mod]
  congr 2
  simpa only [List.getD_eq_getElem?_getD] using sum_pow_mod q (finv q r) i a

theorem forward_lt {q : Nat} (hq : 0 < q) (r n : Nat) (a : List Nat) : ∀ v ∈ forward q r n a, v < q := by
  intro v hv
  obtain ⟨j, -, rfl⟩ := List.mem_map.1 hv
  exact horner_lt hq _ _

theorem inverse_lt {q : Nat} (hq : 0 < q) (r n : Nat) (a : List Nat) : ∀ v ∈ inverse q r n a, v < q := by
  intro v hv
  obtain ⟨j, -, rfl⟩ := List.mem_map.1 hv
  exact Nat.mod_lt _ hq

end Sys2Proof.Machine
end

