-- ==== Sys2Proof/Laws/PrimeField.lean ====
section
/-! SUPPORT. The engine's arithmetic seen in the field of q elements: each function's value, cast to `ZMod q`, is the
field operation it stands for; inverses exist; the roots have the order R135 and R187 say; the two transforms undo each
other (42_fft.md R175). -/

namespace Sys2Proof.Machine

/-- The two moduli are prime (40_field.md R134). -/
theorem fieldCard_prime {ws : Nat} (h : ws = 1 ∨ ws = 2) : (fieldCard ws).Prime := by
  rcases h with rfl | rfl <;> norm_num [fieldCard]

section
variable {q : Nat}

theorem cast_mod (a : Nat) : ((a % q : Nat) : ZMod q) = a := by simp

theorem cast_fadd (a b : Nat) : ((fadd q a b : Nat) : ZMod q) = a + b := by simp [fadd]

theorem cast_fmul (a b : Nat) : ((fmul q a b : Nat) : ZMod q) = a * b := by simp [fmul]

theorem cast_fpow (a e : Nat) : ((fpow q a e : Nat) : ZMod q) = (a : ZMod q) ^ e := by simp [fpow_eq]

theorem cast_fsub {b : Nat} (a : Nat) (hb : b ≤ q) : ((fsub q a b : Nat) : ZMod q) = a - b := by
  simp [fsub, Nat.cast_sub hb, sub_eq_add_neg]

theorem cast_fneg {a : Nat} (ha : a ≤ q) : ((fneg q a : Nat) : ZMod q) = -a := by
  simp [fneg, Nat.cast_sub ha]

/-- Two numbers below q are equal when they are equal in the field. -/
theorem eq_of_cast {a b : Nat} (ha : a < q) (hb : b < q) (h : (a : ZMod q) = b) : a = b := by
  have := (ZMod.natCast_eq_natCast_iff' a b q).1 h
  rwa [Nat.mod_eq_of_lt ha, Nat.mod_eq_of_lt hb] at this

theorem cast_ne_zero {a : Nat} : (a : ZMod q) ≠ 0 ↔ a % q ≠ 0 := by
  rw [Ne, ZMod.natCast_eq_zero_iff, Nat.dvd_iff_mod_eq_zero]

theorem cast_horner (cs : List Nat) (v : Nat) :
    ((horner q cs v : Nat) : ZMod q) = ∑ i ∈ Finset.range cs.length, (cs.getD i 0 : ZMod q) * (v : ZMod q) ^ i := by
  rw [horner_eq_sum]; simp

variable [Fact q.Prime]

/-- `finv` is the inverse of the field; the inverse of 0 is 0 there (the commands never ask for it). -/
theorem cast_finv (hq : 2 < q) (a : Nat) : ((finv q a : Nat) : ZMod q) = (a : ZMod q)⁻¹ := by
  rw [finv, cast_fpow]
  by_cases h : (a : ZMod q) = 0
  · rw [h, inv_zero, zero_pow (by omega)]
  · refine eq_inv_of_mul_eq_one_left ?_
    rw [← pow_succ, show q - 2 + 1 = q - 1 by omega]
    exact ZMod.pow_card_sub_one_eq_one h

/-- R126: `finv` gives the v in [1, q) with u·v mod q = 1. -/
theorem finv_spec (hq : 2 < q) {u : Nat} (hu : u % q ≠ 0) :
    (1 ≤ finv q u ∧ finv q u < q) ∧ u * finv q u % q = 1 := by
  have h0 : (u : ZMod q) ≠ 0 := cast_ne_zero.2 hu
  have hlt : finv q u < q := fpow_lt (by omega) _ _
  have h1 : u * finv q u % q = 1 := by
    refine eq_of_cast (q := q) (Nat.mod_lt _ (by omega)) (by omega) ?_
    rw [cast_mod, Nat.cast_mul, cast_finv hq, mul_inv_cancel₀ h0, Nat.cast_one]
  refine ⟨⟨Nat.one_le_iff_ne_zero.2 fun h => ?_, hlt⟩, h1⟩
  rw [h] at h1
  simp at h1

/-! ### Roots of unity (R135, 43_coder.md R187) -/

/-- If G^((q−1)/2) = −1, then r = G^((q−1)/n), n = 2^(e+1) dividing q − 1, has r^n = 1 and r^(n/2) = −1. -/
theorem root_pow {g n e : Nat} (hq : 2 < q) (hn : n = 2 ^ (e + 1)) (hdvd : n ∣ q - 1)
    (hg : g ^ ((q - 1) / 2) % q = q - 1) :
    ((g : ZMod q) ^ ((q - 1) / n)) ^ n = 1 ∧ ((g : ZMod q) ^ ((q - 1) / n)) ^ (n / 2) = -1 := by
  have hhalf : ((g : ZMod q)) ^ ((q - 1) / 2) = -1 := by
    have := congrArg (Nat.cast (R := ZMod q)) hg
    rw [cast_mod, Nat.cast_pow, Nat.cast_sub (by omega)] at this
    simpa using this
  obtain ⟨c, hc⟩ := hdvd
  have hn0 : 0 < n := by rw [hn]; exact Nat.two_pow_pos _
  have hdiv : (q - 1) / n = c := by rw [hc]; exact Nat.mul_div_cancel_left c hn0
  have hn2 : n / 2 * 2 = n := by rw [hn, pow_succ]; omega
  have hh : c * (n / 2) = (q - 1) / 2 := by
    rw [hc, ← hn2]
    have : n / 2 * 2 / 2 = n / 2 := by omega
    rw [this, show n / 2 * 2 * c = 2 * (c * (n / 2)) by ring]
    omega
  have h2 : ((g : ZMod q) ^ ((q - 1) / n)) ^ (n / 2) = -1 := by rw [hdiv, ← pow_mul, hh, hhalf]
  refine ⟨?_, h2⟩
  rw [show n = n / 2 * 2 by omega, pow_mul, show n / 2 * 2 = n by omega, h2]
  ring

/-- r has order exactly n. -/
theorem root_primitive {r : ZMod q} {n e : Nat} (hq : 2 < q) (hn : n = 2 ^ (e + 1)) (h1 : r ^ n = 1)
    (h2 : r ^ (n / 2) = -1) : IsPrimitiveRoot r n := by
  have hne : (-1 : ZMod q) ≠ 1 := by
    intro h
    have : ((2 : Nat) : ZMod q) = 0 := by
      push_cast
      linear_combination -h
    rw [ZMod.natCast_eq_zero_iff] at this
    exact absurd (Nat.le_of_dvd (by omega) this) (by omega)
  have ho : orderOf r = 2 ^ (e + 1) := by
    refine orderOf_eq_prime_pow ?_ (hn ▸ h1)
    rw [hn, pow_succ, Nat.mul_div_cancel _ (by omega)] at h2
    rw [h2]
    exact hne
  rw [hn, ← ho]
  exact IsPrimitiveRoot.orderOf r

/-- The powers of a root of order n sum to 0 over a full turn, but for the constant one. -/
theorem root_sum {r : ZMod q} {n : Nat} (hr : IsPrimitiveRoot r n) {i i' : Nat} (hi : i < n) (hi' : i' < n) :
    ∑ j ∈ Finset.range n, r ^ (j * i) * (r⁻¹) ^ (j * i') = if i = i' then (n : ZMod q) else 0 := by
  have hn : 0 < n := by omega
  have hr0 : r ≠ 0 := hr.ne_zero (by omega)
  have hterm : ∀ j, r ^ (j * i) * (r⁻¹) ^ (j * i') = (r ^ i * (r⁻¹) ^ i') ^ j := fun j => by
    rw [mul_pow, ← pow_mul, ← pow_mul, mul_comm i j, mul_comm i' j]
  simp only [hterm]
  split
  · next h =>
    subst h
    rw [inv_pow, mul_inv_cancel₀ (pow_ne_zero _ hr0)]
    simp
  · next h =>
    set z := r ^ i * (r⁻¹) ^ i' with hz
    have hz1 : z ≠ 1 := by
      intro hone
      rw [hz, inv_pow, mul_inv_eq_one₀ (pow_ne_zero _ hr0)] at hone
      exact h (hr.pow_inj hi hi' hone)
    have hzn : z ^ n = 1 := by
      rw [hz, mul_pow, ← pow_mul, ← pow_mul, mul_comm i, mul_comm i', pow_mul, pow_mul, inv_pow, hr.pow_eq_one]
      simp
    have := mul_geom_sum z n
    rw [hzn, sub_self] at this
    exact (mul_eq_zero.1 this).resolve_left (sub_ne_zero.2 hz1)

end

end Sys2Proof.Machine
end

