-- ==== Sys2Proof/Laws/Instance.lean ====
section
/-! SUPPORT. What a legal state with an instance has: its modulus is one of the two primes, its root has order N, every
size is within bounds (10_state.md R31, 40_field.md R134, R135, 43_coder.md R187). -/

namespace Sys2Proof.Machine

open Sys2Proof

section
variable {s : State} (h : Inv s) (hr : s.ready = true)
include h hr

theorem inst_legal : InstRegs.legal s.par s.inst := h.inst.1 hr

theorem inst_ws : s.wordSize = 1 ∨ s.wordSize = 2 := (inst_legal h hr).1

theorem q_eq : s.q = fieldCard s.wordSize := (inst_legal h hr).2.2.2.2.1

theorem q_cases : s.q = 257 ∨ s.q = 65537 := by
  rw [q_eq h hr]
  rcases inst_ws h hr with e | e <;> rw [e] <;> simp [fieldCard]

theorem q_bounds : 257 ≤ s.q ∧ s.q ≤ 65537 := by have := q_cases h hr; omega

theorem q_prime : s.q.Prime := by rw [q_eq h hr]; exact fieldCard_prime (inst_ws h hr)

theorem g_eq : s.g = s.par.groot s.wordSize := (inst_legal h hr).2.2.2.2.2.1

theorem g_nonresidue : s.g ^ ((s.q - 1) / 2) % s.q = s.q - 1 := (inst_legal h hr).2.2.2.2.2.2.2.2.2.2

theorem r_eq : s.r = s.g ^ ((s.q - 1) / s.n) % s.q := (inst_legal h hr).2.2.2.2.2.2.2.2.2.1

theorem r_lt : s.r < s.q := by rw [r_eq h hr]; exact Nat.mod_lt _ (by have := q_bounds h hr; omega)

theorem n_bounds : 2 ≤ s.n ∧ s.n ≤ s.q - 1 ∧ s.n ≤ s.par.nmax := (inst_legal h hr).2.2.2.2.2.2.2.1

/-- N is a power of two, not 1. -/
theorem n_pow : ∃ e, s.n = 2 ^ (e + 1) := by
  obtain ⟨e, -, he⟩ := (inst_legal h hr).2.2.2.2.2.2.1
  have h2 := (n_bounds h hr).1
  cases e with
  | zero => rw [show s.n = 2 ^ 0 from he] at h2; simp at h2
  | succ e => exact ⟨e, he⟩

theorem k_bounds : 1 ≤ s.k ∧ s.k < s.n := by
  have h1 := (inst_legal h hr).2.1
  have h2 := (inst_legal h hr).2.2.1
  have h3 := (inst_legal h hr).2.2.2.2.2.2.2.2.1
  simp only [State.k, State.n]
  omega

theorem km_bounds : s.k + s.inst.m.toNat ≤ s.n ∧ s.n < 2 * (s.k + s.inst.m.toNat) :=
  (inst_legal h hr).2.2.2.2.2.2.2.2.1

theorem lanes_bounds : 1 ≤ s.lanes ∧ s.lanes ≤ s.par.pmax := (inst_legal h hr).2.2.2.1

theorem n_dvd : s.n ∣ s.q - 1 := by
  obtain ⟨e, he⟩ := n_pow h hr
  have hle := (n_bounds h hr).2.1
  have hq : s.q - 1 = 2 ^ 8 ∨ s.q - 1 = 2 ^ 16 := by
    rcases q_cases h hr with e | e <;> rw [e]
    · exact .inl rfl
    · exact .inr rfl
  rw [he] at hle ⊢
  rcases hq with hq | hq <;> rw [hq] at hle ⊢ <;>
    exact pow_dvd_pow 2 ((Nat.pow_le_pow_iff_right (by omega)).1 hle)

theorem r_cast : (s.r : ZMod s.q) = (s.g : ZMod s.q) ^ ((s.q - 1) / s.n) := by rw [r_eq h hr]; simp

/-- R^N = 1 and R^(N/2) = −1 in the field (43_coder.md R187). -/
theorem r_pow : (s.r : ZMod s.q) ^ s.n = 1 ∧ (s.r : ZMod s.q) ^ (s.n / 2) = -1 := by
  obtain ⟨e, he⟩ := n_pow h hr
  rw [r_cast h hr]
  have := Fact.mk (q_prime h hr)
  exact root_pow (by have := q_bounds h hr; omega) he (n_dvd h hr) (g_nonresidue h hr)

/-- R has order exactly N. -/
theorem r_primitive : IsPrimitiveRoot (s.r : ZMod s.q) s.n := by
  obtain ⟨e, he⟩ := n_pow h hr
  have := Fact.mk (q_prime h hr)
  exact root_primitive (by have := q_bounds h hr; omega) he (r_pow h hr).1 (r_pow h hr).2

theorem n_ne_zero : (s.n : ZMod s.q) ≠ 0 := by
  rw [cast_ne_zero, Nat.mod_eq_of_lt] <;>
  · have := n_bounds h hr
    have := q_bounds h hr
    omega

theorem r_ne_zero : s.r % s.q ≠ 0 := by
  have := Fact.mk (q_prime h hr)
  exact cast_ne_zero.1 ((r_primitive h hr).ne_zero (by have := n_bounds h hr; omega))

theorem elemOp_lt (i : XReg) : elemOp s i < s.q := Nat.mod_lt _ (by have := q_bounds h hr; omega)

end

end Sys2Proof.Machine
end

