-- ==== Sys2Proof/Laws/Transforms.lean ====
section
/-! SUPPORT. The forward and the inverse transform undo each other (42_fft.md R175). -/

namespace Sys2Proof.Machine

section
variable {q : Nat} [Fact q.Prime]

theorem cast_forward (r n : Nat) (a : List Nat) {j : Nat} (hj : j < n) :
    (((forward q r n a).getD j 0 : Nat) : ZMod q) =
      ∑ i ∈ Finset.range a.length, (a.getD i 0 : ZMod q) * (r : ZMod q) ^ (i * j) := by
  rw [forward_getD q r n a hj]; simp

theorem cast_inverse (hq : 2 < q) (r n : Nat) (a : List Nat) {i : Nat} (hi : i < n) :
    (((inverse q r n a).getD i 0 : Nat) : ZMod q) =
      (n : ZMod q)⁻¹ * ∑ j ∈ Finset.range a.length, (a.getD j 0 : ZMod q) * ((r : ZMod q)⁻¹) ^ (j * i) := by
  rw [inverse_getD q r n a hi]
  simp [cast_finv hq]

/-- Two lists of numbers below q are equal when their entries are equal in the field. -/
theorem list_eq_of_cast {a b : List Nat} (hl : a.length = b.length) (ha : ∀ v ∈ a, v < q) (hb : ∀ v ∈ b, v < q)
    (h : ∀ i < a.length, ((a.getD i 0 : Nat) : ZMod q) = (b.getD i 0 : Nat)) : a = b := by
  refine List.ext_getElem hl fun i h1 h2 => ?_
  have := h i h1
  rw [List.getD_eq_getElem a 0 h1, List.getD_eq_getElem b 0 h2] at this
  exact eq_of_cast (ha _ (List.getElem_mem h1)) (hb _ (List.getElem_mem h2)) this

theorem double_sum {n : Nat} {ρ : ZMod q} (hρ : IsPrimitiveRoot ρ n) (hn0 : (n : ZMod q) ≠ 0) (a : Nat → ZMod q)
    {i : Nat} (hi : i < n) :
    (n : ZMod q)⁻¹ * ∑ j ∈ Finset.range n, (∑ i' ∈ Finset.range n, a i' * ρ ^ (i' * j)) * (ρ⁻¹) ^ (j * i) = a i := by
  have : ∑ j ∈ Finset.range n, (∑ i' ∈ Finset.range n, a i' * ρ ^ (i' * j)) * (ρ⁻¹) ^ (j * i) =
      ∑ i' ∈ Finset.range n, a i' * ∑ j ∈ Finset.range n, ρ ^ (j * i') * (ρ⁻¹) ^ (j * i) := by
    simp only [Finset.sum_mul, Finset.mul_sum]
    rw [Finset.sum_comm]
    exact Finset.sum_congr rfl fun i' _ => Finset.sum_congr rfl fun j _ => by rw [mul_comm i' j]; ring
  rw [this]
  have hsum : ∀ i' ∈ Finset.range n, a i' * ∑ j ∈ Finset.range n, ρ ^ (j * i') * (ρ⁻¹) ^ (j * i) =
      if i' = i then a i * n else 0 := by
    intro i' hi'
    rw [root_sum hρ (Finset.mem_range.1 hi') hi]
    split
    · next h => rw [h]
    · simp
  rw [Finset.sum_congr rfl hsum, Finset.sum_ite_eq' (Finset.range n) i, if_pos (Finset.mem_range.2 hi)]
  field_simp

/-- R175: `inverse` undoes `forward` on every vector of n field elements. -/
theorem inverse_forward (hq : 2 < q) {r n : Nat} (hr : IsPrimitiveRoot (r : ZMod q) n) (hn0 : (n : ZMod q) ≠ 0)
    {a : List Nat} (hl : a.length = n) (ha : ∀ v ∈ a, v < q) : inverse q r n (forward q r n a) = a := by
  refine list_eq_of_cast (q := q) (by simp [hl]) (inverse_lt (by omega) _ _ _) ha fun i hi => ?_
  rw [length_inverse] at hi
  rw [cast_inverse hq r n _ hi, length_forward]
  rw [Finset.sum_congr rfl fun j hj => by rw [cast_forward r n a (Finset.mem_range.1 hj), hl]]
  exact double_sum hr hn0 (fun i => (a.getD i 0 : ZMod q)) hi

/-- R175: `forward` undoes `inverse` on every vector of n field elements. -/
theorem forward_inverse (hq : 2 < q) {r n : Nat} (hr : IsPrimitiveRoot (r : ZMod q) n) (hn0 : (n : ZMod q) ≠ 0)
    {a : List Nat} (hl : a.length = n) (ha : ∀ v ∈ a, v < q) : forward q r n (inverse q r n a) = a := by
  refine list_eq_of_cast (q := q) (by simp [hl]) (forward_lt (by omega) _ _ _) ha fun i hi => ?_
  rw [length_forward] at hi
  rw [cast_forward r n _ hi, length_inverse]
  rw [Finset.sum_congr rfl fun j hj => by rw [cast_inverse hq r n a (Finset.mem_range.1 hj), hl]]
  have := double_sum hr.inv hn0 (fun i => (a.getD i 0 : ZMod q)) hi
  rw [inv_inv] at this
  rw [← this, Finset.mul_sum]
  exact Finset.sum_congr rfl fun j _ => by ring

end

end Sys2Proof.Machine
end

