-- ==== Sys2Proof/Laws/Interpolation.lean ====
section
/-! SUPPORT. The interpolation function `lagrange` returns the coefficients of the one polynomial of degree below k
through the received points (43_coder.md R195). The coefficient lists are seen as polynomials over the field. -/

namespace Sys2Proof.Machine

open Polynomial

section
variable {q : Nat}

/-- A coefficient list as a polynomial over the field. -/
noncomputable def toPoly (q : Nat) : List Nat → (ZMod q)[X]
  | [] => 0
  | c :: cs => C (c : ZMod q) + X * toPoly q cs

theorem toPoly_coeff (cs : List Nat) (i : Nat) : (toPoly q cs).coeff i = (cs.getD i 0 : Nat) := by
  induction cs generalizing i with
  | nil => simp [toPoly]
  | cons c cs ih =>
    cases i with
    | zero => simp [toPoly]
    | succ i => simp [toPoly, ih]

theorem eval_toPoly (cs : List Nat) (v : Nat) : (toPoly q cs).eval (v : ZMod q) = (horner q cs v : Nat) := by
  induction cs with
  | nil => simp [toPoly, horner]
  | cons c cs ih => rw [horner_cons, cast_mod]; simp [toPoly, ih]; ring

theorem toPoly_append_zero (cs : List Nat) : toPoly q (cs ++ [0]) = toPoly q cs := by
  induction cs with
  | nil => simp [toPoly]
  | cons c cs ih => simp [toPoly, ih]

theorem toPoly_mulRoot_aux (z : Nat) (hq : 0 < q) (u : Nat) (cs : List Nat) :
    toPoly q (List.zipWith (fun up here => fsub q up (fmul q z here)) (u :: cs) (cs ++ [0])) =
      C (u : ZMod q) + X * toPoly q cs - C (z : ZMod q) * toPoly q cs := by
  have hb : ∀ c, fmul q z c ≤ q := fun c => (Nat.mod_lt _ hq).le
  induction cs generalizing u with
  | nil => simp [toPoly, cast_fsub _ (hb 0), cast_fmul]
  | cons c cs ih =>
    rw [List.cons_append, List.zipWith_cons_cons, toPoly, ih, cast_fsub _ (hb c), cast_fmul]
    simp only [toPoly, map_sub, map_mul]
    ring

theorem toPoly_mulRoot (z : Nat) (hq : 0 < q) (cs : List Nat) :
    toPoly q (mulRoot q z cs) = toPoly q cs * (X - C (z : ZMod q)) := by
  rw [mulRoot, toPoly_mulRoot_aux z hq]
  simp
  ring

theorem toPoly_masterPoly (hq : 0 < q) (zs : List Nat) :
    toPoly q (masterPoly q zs) = (zs.map fun z : Nat => (X - C (z : ZMod q))).prod := by
  have main : ∀ acc : List Nat, toPoly q (zs.foldl (fun acc z => mulRoot q z acc) acc) =
      toPoly q acc * (zs.map fun z : Nat => (X - C (z : ZMod q))).prod := by
    induction zs with
    | nil => intro acc; simp
    | cons z zs ih => intro acc; rw [List.foldl_cons, ih, toPoly_mulRoot z hq, List.map_cons, List.prod_cons]; ring
  rw [masterPoly, main]
  simp [toPoly]

theorem toPoly_deriveFrom (j : Nat) (cs : List Nat) :
    toPoly q (deriveFrom q j cs) = derivative (X * toPoly q cs) + C ((j : ZMod q) - 1) * toPoly q cs := by
  induction cs generalizing j with
  | nil => simp [toPoly, deriveFrom]
  | cons c cs ih =>
    rw [deriveFrom, toPoly, ih, cast_fmul, cast_mod]
    simp only [toPoly, derivative_mul, derivative_X, derivative_C, map_mul, map_sub, map_one,
      Nat.cast_add, Nat.cast_one, map_add]
    ring

theorem toPoly_derive (cs : List Nat) : toPoly q (derive q cs) = derivative (toPoly q cs) := by
  cases cs with
  | nil => simp [derive, deriveFrom, toPoly]
  | cons c cs => rw [derive, List.tail_cons, toPoly_deriveFrom]; simp [toPoly]

theorem cast_evalTerms (ts : List (Nat × Nat)) (v : Nat) :
    ((evalTerms q ts v : Nat) : ZMod q) = (ts.map fun t => (t.2 : ZMod q) * (v : ZMod q) ^ t.1).sum := by
  induction ts with
  | nil => simp [evalTerms]
  | cons t ts ih =>
    have : evalTerms q (t :: ts) v = fadd q (fmul q t.2 (fpow q v t.1)) (evalTerms q ts v) := rfl
    rw [this, cast_fadd, cast_fmul, cast_fpow, ih, List.map_cons, List.sum_cons]

theorem cast_convAt_aux (f : Nat → Nat × Nat) (l : List Nat) :
    ((l.foldr (fun t acc => fadd q (fmul q (f t).1 (f t).2) acc) 0 : Nat) : ZMod q) =
      (l.map fun t => ((f t).1 : ZMod q) * ((f t).2 : ZMod q)).sum := by
  induction l with
  | nil => simp
  | cons t l ih => rw [List.foldr_cons, cast_fadd, cast_fmul, ih, List.map_cons, List.sum_cons]

theorem cast_convAt (a b : List Nat) (i : Nat) :
    ((convAt q a b i : Nat) : ZMod q) = (toPoly q a * toPoly q b).coeff i := by
  rw [convAt, cast_convAt_aux fun t => (a.getD t 0, b.getD (i - t) 0), coeff_mul,
    Finset.Nat.sum_antidiagonal_eq_sum_range_succ fun x y => (toPoly q a).coeff x * (toPoly q b).coeff y]
  simp only [toPoly_coeff]
  rfl

theorem convAt_lt (hq : 0 < q) (a b : List Nat) (i : Nat) : convAt q a b i < q := by
  rw [convAt, List.range_succ_eq_map, List.foldr_cons]
  exact Nat.mod_lt _ hq

theorem lagrange_lt (hq : 0 < q) (r : Nat) (f y : List Nat) : ∀ v ∈ lagrange q r f y, v < q := by
  intro v hv
  obtain ⟨i, -, rfl⟩ := List.mem_map.1 hv
  exact convAt_lt hq _ _ _

@[simp] theorem length_lagrange (r : Nat) (f y : List Nat) : (lagrange q r f y).length = f.length := by
  simp [lagrange]

/-- (x − X)·Σ_{t<k} x^(−(t+1)) X^t = 1 − x^(−k) X^k: the geometric series of R195, cut at k. -/
theorem geom_cut [Fact q.Prime] {x : ZMod q} (hx : x ≠ 0) (k : Nat) :
    (X - C x) * ∑ t ∈ Finset.range k, C (-(x⁻¹) ^ (t + 1)) * X ^ t = 1 - C ((x⁻¹) ^ k) * X ^ k := by
  induction k with
  | zero => simp
  | succ k ih =>
    rw [Finset.sum_range_succ, mul_add, ih]
    have hc : C x * C ((x⁻¹) ^ (k + 1)) = C ((x⁻¹) ^ k) := by
      rw [← C_mul, pow_succ]
      congr 1
      field_simp
    simp only [map_neg]
    linear_combination (X : (ZMod q)[X]) ^ k * hc

end

section
variable {q : Nat} [Fact q.Prime] (hq : 2 < q) {r n : Nat} (hr : IsPrimitiveRoot (r : ZMod q) n)
  {f y : List Nat} (hf : ∀ i ∈ f, i < n) (hnd : f.Nodup) (hy : y.length = f.length)

/-- The point of fragment i: x_i = r^(f_i) (R192 step 2). -/
def point (q r : Nat) (f : List Nat) (i : Nat) : ZMod q := (r : ZMod q) ^ f.getD i 0

include hr hf hnd in
/-- Distinct ids have distinct points (R187, R193). -/
theorem point_inj {i j : Nat} (hi : i < f.length) (hj : j < f.length) (h : point q r f i = point q r f j) : i = j := by
  simp only [point, List.getD_eq_getElem f 0 hi, List.getD_eq_getElem f 0 hj] at h
  exact hnd.getElem_inj_iff.1 (hr.pow_inj (hf _ (List.getElem_mem hi)) (hf _ (List.getElem_mem hj)) h)

theorem toPoly_master_points (hq : 0 < q) (r : Nat) (f : List Nat) :
    toPoly q (masterPoly q (f.map (fpow q r))) = Lagrange.nodal (Finset.range f.length) (point q r f) := by
  rw [toPoly_masterPoly hq, Lagrange.nodal, List.map_map]
  induction f with
  | nil => simp
  | cons a f ih =>
    rw [List.map_cons, List.prod_cons, ih, List.length_cons, Finset.prod_range_succ', mul_comm]
    simp only [Function.comp_apply, cast_fpow, point, List.getD_cons_zero, List.getD_cons_succ]

/-- The numerators of R192 step 5 in the field. -/
theorem cast_numerators (hq : 2 < q) {r : Nat} {f y : List Nat} (hy : y.length = f.length) {i : Nat}
    (hi : i < f.length) :
    (((numerators q (f.map (fpow q r)) y).getD i 0 : Nat) : ZMod q) =
      (y.getD i 0 : ZMod q) *
        ((derivative (Lagrange.nodal (Finset.range f.length) (point q r f))).eval (point q r f i))⁻¹ := by
  have hl : i < (numerators q (f.map (fpow q r)) y).length := by simp [numerators, hy, hi]
  rw [List.getD_eq_getElem _ 0 hl, List.getD_eq_getElem y 0 (hy ▸ hi)]
  simp only [numerators, List.getElem_zipWith, List.getElem_map, cast_fmul, cast_finv hq]
  rw [← toPoly_master_points (by omega) r f, ← toPoly_derive, point, List.getD_eq_getElem f 0 hi, ← cast_fpow,
    eval_toPoly]

/-- −S[t] of R192 step 7 in the field. -/
theorem cast_negS (hq : 2 < q) {r : Nat} {f ns : List Nat} (hn : ns.length = f.length) (t : Nat) :
    ((negS q r (List.zip f ns) t : Nat) : ZMod q) =
      -∑ i ∈ Finset.range f.length, (ns.getD i 0 : ZMod q) * ((point q r f i)⁻¹) ^ (t + 1) := by
  rw [negS, cast_fneg (evalTerms_lt (by omega) _ _).le, cast_evalTerms, cast_fpow, cast_finv hq]
  congr 1
  induction f generalizing ns with
  | nil => simp
  | cons a f ih =>
    cases ns with
    | nil => simp at hn
    | cons c ns =>
      rw [List.zip_cons_cons, List.map_cons, List.sum_cons, ih (by simpa using hn), List.length_cons,
        Finset.sum_range_succ', add_comm]
      simp only [point, List.getD_cons_zero, List.getD_cons_succ]
      congr 1
      rw [← pow_mul, inv_pow, inv_pow, ← pow_mul, mul_comm (t + 1) a]

/-- A list of values as a polynomial is the sum of its monomials. -/
theorem toPoly_map_range (g : Nat → Nat) (k : Nat) :
    toPoly q ((List.range k).map g) = ∑ t ∈ Finset.range k, C ((g t : Nat) : ZMod q) * X ^ t := by
  ext i
  rw [toPoly_coeff, finsetSum_coeff]
  simp only [coeff_C_mul, coeff_X_pow, mul_ite, mul_one, mul_zero, Finset.sum_ite_eq, Finset.mem_range]
  by_cases h : i < k
  · simp [h, List.getD_eq_getElem?_getD]
  · simp [h, List.getD_eq_getElem?_getD]

/-- The polynomial Σ n_i·Π_{j≠i}(x − x_j) of R195. -/
noncomputable def interpolant (k : Nat) (x : Nat → ZMod q) (n : Nat → ZMod q) : (ZMod q)[X] :=
  ∑ i ∈ Finset.range k, C (n i) * Lagrange.nodal ((Finset.range k).erase i) x

theorem interpolant_coeff_high (k : Nat) (x n : Nat → ZMod q) {i : Nat} (hi : k ≤ i) :
    (interpolant k x n).coeff i = 0 := by
  rw [interpolant, finsetSum_coeff]
  refine Finset.sum_eq_zero fun j hj => ?_
  rw [coeff_C_mul]
  have hd : (Lagrange.nodal ((Finset.range k).erase j) x).natDegree < i := by
    rw [Lagrange.natDegree_nodal, Finset.card_erase_of_mem hj, Finset.card_range]
    have := Finset.mem_range.1 hj
    omega
  rw [coeff_eq_zero_of_natDegree_lt hd, mul_zero]

theorem interpolant_eval (k : Nat) (x n : Nat → ZMod q) {i : Nat} (hi : i < k) :
    (interpolant k x n).eval (x i) = n i * (derivative (Lagrange.nodal (Finset.range k) x)).eval (x i) := by
  have hmem := Finset.mem_range.2 hi
  rw [interpolant, eval_finsetSum, Finset.sum_eq_single i]
  · rw [eval_mul, eval_C, Lagrange.eval_nodal_derivative_eval_node_eq hmem]
  · intro j hj hji
    rw [eval_mul, Lagrange.eval_nodal_at_node (Finset.mem_erase.2 ⟨hji.symm, hmem⟩), mul_zero]
  · intro h
    exact absurd hmem h

/-- Below degree k, A·Σ(−S[t])x^t has the coefficients of the interpolant (R195). -/
theorem master_mul_series (k : Nat) (x n : Nat → ZMod q) (hx : ∀ i < k, x i ≠ 0) {i : Nat} (hi : i < k) :
    ((∑ t ∈ Finset.range k, C (-∑ j ∈ Finset.range k, n j * ((x j)⁻¹) ^ (t + 1)) * X ^ t) *
      Lagrange.nodal (Finset.range k) x).coeff i = (interpolant k x n).coeff i := by
  have hterm : ∀ j ∈ Finset.range k,
      (∑ t ∈ Finset.range k, C (-((x j)⁻¹) ^ (t + 1)) * X ^ t) * Lagrange.nodal (Finset.range k) x =
        Lagrange.nodal ((Finset.range k).erase j) x -
          X ^ k * (C (((x j)⁻¹) ^ k) * Lagrange.nodal ((Finset.range k).erase j) x) := by
    intro j hj
    rw [Lagrange.nodal_eq_mul_nodal_erase hj]
    have := geom_cut (hx j (Finset.mem_range.1 hj)) k
    linear_combination (Lagrange.nodal ((Finset.range k).erase j) x) * this
  have hsum : (∑ t ∈ Finset.range k, C (-∑ j ∈ Finset.range k, n j * ((x j)⁻¹) ^ (t + 1)) * X ^ t) *
      Lagrange.nodal (Finset.range k) x =
      interpolant k x n - X ^ k * ∑ j ∈ Finset.range k,
        C (n j) * (C (((x j)⁻¹) ^ k) * Lagrange.nodal ((Finset.range k).erase j) x) := by
    have hswap : (∑ t ∈ Finset.range k, C (-∑ j ∈ Finset.range k, n j * ((x j)⁻¹) ^ (t + 1)) * X ^ t) =
        ∑ j ∈ Finset.range k, C (n j) * ∑ t ∈ Finset.range k, C (-((x j)⁻¹) ^ (t + 1)) * X ^ t := by
      simp only [map_neg, map_sum, map_mul, Finset.sum_mul, Finset.mul_sum, neg_mul, ← Finset.sum_neg_distrib]
      rw [Finset.sum_comm]
      exact Finset.sum_congr rfl fun j _ => Finset.sum_congr rfl fun t _ => by ring
    rw [hswap, Finset.sum_mul, interpolant, Finset.mul_sum, ← Finset.sum_sub_distrib]
    refine Finset.sum_congr rfl fun j hj => ?_
    rw [mul_assoc, hterm j hj]
    ring
  rw [hsum, coeff_sub, coeff_X_pow_mul', if_neg (by omega), sub_zero]

/-- The recovered coefficients are those of the interpolant. -/
theorem toPoly_lagrange (hq : 2 < q) {r n : Nat} (hr : IsPrimitiveRoot (r : ZMod q) n) (hn : 0 < n) {f y : List Nat}
    (hy : y.length = f.length) :
    toPoly q (lagrange q r f y) = interpolant f.length (point q r f)
      (fun i => ((numerators q (f.map (fpow q r)) y).getD i 0 : Nat)) := by
  have hl : (numerators q (f.map (fpow q r)) y).length = f.length := by simp [numerators, hy]
  ext i
  by_cases hi : i < f.length
  · have hx : ∀ j < f.length, point q r f j ≠ 0 := fun j _ => pow_ne_zero _ (hr.ne_zero (by omega))
    rw [← master_mul_series _ _ _ hx hi, ← toPoly_master_points (by omega) r f]
    simp only [← cast_negS hq hl]
    rw [← toPoly_map_range, toPoly_coeff, List.getD_eq_getElem _ 0 (by simpa using hi)]
    simp only [lagrange, List.getElem_map, List.getElem_range]
    exact cast_convAt _ _ _
  · rw [interpolant_coeff_high _ _ _ (by omega), toPoly_coeff, List.getD_eq_default _ 0 (by simp; omega), Nat.cast_zero]

/-- R195: the polynomial with the recovered coefficients takes the value y_i at x_i = r^(f_i). -/
theorem lagrange_interpolates (hq : 2 < q) {r n : Nat} (hr : IsPrimitiveRoot (r : ZMod q) n) (hn : 0 < n)
    {f y : List Nat} (hf : ∀ i ∈ f, i < n) (hnd : f.Nodup) (hy : y.length = f.length) {i : Nat} (hi : i < f.length) :
    (toPoly q (lagrange q r f y)).eval (point q r f i) = (y.getD i 0 : Nat) := by
  rw [toPoly_lagrange hq hr hn hy, interpolant_eval _ _ _ hi, cast_numerators hq hy hi, mul_assoc, inv_mul_cancel₀,
    mul_one]
  rw [Lagrange.eval_nodal_derivative_eval_node_eq (Finset.mem_range.2 hi), Lagrange.eval_nodal]
  refine Finset.prod_ne_zero_iff.2 fun j hj => sub_ne_zero.2 fun h => ?_
  obtain ⟨hji, hj⟩ := Finset.mem_erase.1 hj
  exact hji (point_inj hr hf hnd hi (Finset.mem_range.1 hj) h).symm

/-- R195: the recovered coefficients are the only k numbers below q whose polynomial goes through the points. -/
theorem lagrange_unique (hq : 2 < q) {r n : Nat} (hr : IsPrimitiveRoot (r : ZMod q) n) (hn : 0 < n)
    {f y w : List Nat} (hf : ∀ i ∈ f, i < n) (hnd : f.Nodup) (hy : y.length = f.length) (hw : w.length = f.length)
    (hlt : ∀ v ∈ w, v < q)
    (h : ∀ i < f.length, (toPoly q w).eval (point q r f i) = (y.getD i 0 : Nat)) : lagrange q r f y = w := by
  have hdeg : ∀ cs : List Nat, cs.length = f.length → (toPoly q cs).degree < (Finset.range f.length).card := by
    intro cs hcs
    rw [Finset.card_range, degree_lt_iff_coeff_zero]
    intro m hm
    rw [toPoly_coeff, List.getD_eq_default _ 0 (by omega), Nat.cast_zero]
  have heq : toPoly q (lagrange q r f y) = toPoly q w := by
    refine Polynomial.eq_of_degrees_lt_of_eval_index_eq (Finset.range f.length) (v := point q r f) ?_
      (hdeg _ (by simp)) (hdeg _ hw) fun i hi => ?_
    · intro i hi j hj hij
      exact point_inj hr hf hnd (by simpa using hi) (by simpa using hj) hij
    · rw [lagrange_interpolates hq hr hn hf hnd hy (Finset.mem_range.1 hi), h i (Finset.mem_range.1 hi)]
  refine list_eq_of_cast (q := q) (by simp [hw]) (lagrange_lt (by omega) _ _ _) hlt fun i _ => ?_
  rw [← toPoly_coeff, ← toPoly_coeff, heq]

end

end Sys2Proof.Machine
end

