-- ==== Sys2Proof/Laws/Memory.lean ====
section
/-! SUPPORT. What a sparse memory and a grid do: read after write, and that every write keeps the canonical form. -/

namespace Sys2Proof.Machine

section
variable {ν : Type}

@[simp] theorem Memory.read_nil (d : ν) (k : Nat) : Memory.read d [] k = d := rfl

theorem Memory.read_cons (d : ν) (i : Nat) (v : ν) (m : Memory ν) (k : Nat) :
    Memory.read d ((i, v) :: m) k = if k = i then v else Memory.read d m k := rfl

/-- An index that is listed nowhere reads as the reset value. -/
theorem Memory.read_of_not_listed (d : ν) (m : Memory ν) (k : Nat) (h : ∀ e ∈ m, e.1 ≠ k) :
    Memory.read d m k = d := by
  induction m with
  | nil => rfl
  | cons e m ih =>
    obtain ⟨i, v⟩ := e
    have hi : k ≠ i := fun hk => h (i, v) (by simp) hk.symm
    rw [Memory.read_cons, if_neg hi]
    exact ih fun e he => h e (by simp [he])

/-- What a memory reads is its reset value or the value of a listed entry. -/
theorem Memory.read_mem (d : ν) (m : Memory ν) (k : Nat) :
    Memory.read d m k = d ∨ (k, Memory.read d m k) ∈ m := by
  induction m with
  | nil => exact .inl rfl
  | cons e m ih =>
    obtain ⟨i, v⟩ := e
    rw [Memory.read_cons]
    split
    · next hk => exact .inr (by simp [hk])
    · exact ih.imp_right (List.mem_cons_of_mem _)

variable [DecidableEq ν]

theorem Memory.wf_nil (d : ν) : Memory.wf d ([] : Memory ν) := by simp [Memory.wf]

theorem Memory.wf_cons (d : ν) (i : Nat) (v : ν) (m : Memory ν) :
    Memory.wf d ((i, v) :: m) ↔ ((∀ e ∈ m, i < e.1) ∧ v ≠ d) ∧ Memory.wf d m := by
  simp only [Memory.wf, List.map_cons, List.pairwise_cons, List.forall_mem_map, List.forall_mem_cons]
  tauto

/-- Every entry of a canonical memory is what its index reads. -/
theorem Memory.read_of_mem {d : ν} {m : Memory ν} (hm : Memory.wf d m) {e : Nat × ν} (he : e ∈ m) :
    Memory.read d m e.1 = e.2 := by
  induction m with
  | nil => simp at he
  | cons a m ih =>
    obtain ⟨i, v⟩ := a
    obtain ⟨⟨hlt, -⟩, hm'⟩ := (Memory.wf_cons d i v m).1 hm
    rw [Memory.read_cons]
    rcases List.mem_cons.1 he with rfl | he
    · simp
    · rw [if_neg (Nat.ne_of_gt (hlt e he))]
      exact ih hm' he

/-- A write leaves every other index alone. -/
theorem Memory.read_write_ne (d : ν) (m : Memory ν) (k j : Nat) (v : ν) (h : j ≠ k) :
    Memory.read d (Memory.write d m k v) j = Memory.read d m j := by
  induction m with
  | nil =>
    simp only [Memory.write]
    split
    · rfl
    · simp [Memory.read_cons, h]
  | cons a m ih =>
    obtain ⟨i, u⟩ := a
    simp only [Memory.write]
    split
    · split
      · rfl
      · simp [Memory.read_cons, h]
    · split
      · next hk =>
        subst hk
        split <;> simp [Memory.read_cons, h]
      · simp only [Memory.read_cons, ih]

/-- A read after a write to the same index gives the value written. -/
theorem Memory.read_write_same {d : ν} {m : Memory ν} (hm : Memory.wf d m) (k : Nat) (v : ν) :
    Memory.read d (Memory.write d m k v) k = v := by
  induction m with
  | nil =>
    simp only [Memory.write]
    split
    · next hv => simp [hv]
    · simp [Memory.read_cons]
  | cons a m ih =>
    obtain ⟨i, u⟩ := a
    obtain ⟨⟨hlt, -⟩, hm'⟩ := (Memory.wf_cons d i u m).1 hm
    simp only [Memory.write]
    split
    · next hki =>
      split
      · next hv =>
        subst hv
        refine Memory.read_of_not_listed v ((i, u) :: m) k fun e he => ?_
        rcases List.mem_cons.1 he with rfl | he
        · exact Nat.ne_of_gt hki
        · exact Nat.ne_of_gt (Nat.lt_trans hki (hlt e he))
      · simp [Memory.read_cons]
    · split
      · next hk =>
        subst hk
        split
        · next hv =>
          subst hv
          exact Memory.read_of_not_listed v m k fun e he => Nat.ne_of_gt (hlt e he)
        · simp [Memory.read_cons]
      · next hk => simp only [Memory.read_cons, if_neg hk, ih hm']

theorem Memory.read_write {d : ν} {m : Memory ν} (hm : Memory.wf d m) (k j : Nat) (v : ν) :
    Memory.read d (Memory.write d m k v) j = if j = k then v else Memory.read d m j := by
  split
  · next h => rw [h, Memory.read_write_same hm]
  · next h => exact Memory.read_write_ne d m k j v h

/-- Every entry after a write is the one written or an old one. -/
theorem Memory.mem_write {d : ν} {m : Memory ν} {k : Nat} {v : ν} {e : Nat × ν}
    (h : e ∈ Memory.write d m k v) : (e = (k, v) ∧ v ≠ d) ∨ e ∈ m := by
  induction m with
  | nil =>
    simp only [Memory.write] at h
    split at h
    · simp at h
    · next hv => exact .inl ⟨by simpa using h, hv⟩
  | cons a m ih =>
    obtain ⟨i, u⟩ := a
    simp only [Memory.write] at h
    split at h
    · split at h
      · exact .inr h
      · next hv => exact (List.mem_cons.1 h).imp_left fun e => ⟨e, hv⟩
    · split at h
      · next hk =>
        subst hk
        split at h
        · exact .inr (List.mem_cons_of_mem _ h)
        · next hv => exact (List.mem_cons.1 h).imp (fun e => ⟨e, hv⟩) (List.mem_cons_of_mem _)
      · rcases List.mem_cons.1 h with rfl | h
        · exact .inr (by simp)
        · exact (ih h).imp_right (List.mem_cons_of_mem _)

/-- Every write keeps the canonical form. -/
theorem Memory.wf_write {d : ν} {m : Memory ν} (hm : Memory.wf d m) (k : Nat) (v : ν) :
    Memory.wf d (Memory.write d m k v) := by
  induction m with
  | nil =>
    simp only [Memory.write]
    split
    · exact hm
    · next hv => exact (Memory.wf_cons d k v []).2 ⟨⟨by simp, hv⟩, hm⟩
  | cons a m ih =>
    obtain ⟨i, u⟩ := a
    obtain ⟨⟨hlt, hu⟩, hm'⟩ := (Memory.wf_cons d i u m).1 hm
    simp only [Memory.write]
    split
    · next hki =>
      split
      · exact hm
      · next hv =>
        refine (Memory.wf_cons d k v _).2 ⟨⟨fun e he => ?_, hv⟩, hm⟩
        rcases List.mem_cons.1 he with rfl | he
        · exact hki
        · exact Nat.lt_trans hki (hlt e he)
    · next hki =>
      split
      · next hk =>
        subst hk
        split
        · exact hm'
        · next hv => exact (Memory.wf_cons d k v m).2 ⟨⟨hlt, hv⟩, hm'⟩
      · next hk =>
        refine (Memory.wf_cons d i u _).2 ⟨⟨fun e he => ?_, hu⟩, ih hm'⟩
        rcases Memory.mem_write he with ⟨rfl, -⟩ | he
        · exact Nat.lt_of_le_of_ne (Nat.le_of_not_lt hki) fun h => hk h.symm
        · exact hlt e he

/-- Canonical memories that read alike are the same data. -/
theorem Memory.ext_of_read {d : ν} {m m' : Memory ν} (hm : Memory.wf d m) (hm' : Memory.wf d m')
    (h : ∀ k, Memory.read d m k = Memory.read d m' k) : m = m' := by
  induction m generalizing m' with
  | nil =>
    cases m' with
    | nil => rfl
    | cons b m' =>
      obtain ⟨j, w⟩ := b
      obtain ⟨⟨-, hw⟩, -⟩ := (Memory.wf_cons d j w m').1 hm'
      exact absurd (by simpa [Memory.read_cons] using h j) (Ne.symm hw)
  | cons a m ih =>
    obtain ⟨i, v⟩ := a
    obtain ⟨⟨hlt, hv⟩, hmt⟩ := (Memory.wf_cons d i v m).1 hm
    cases m' with
    | nil => exact absurd (by simpa [Memory.read_cons] using h i) hv
    | cons b m' =>
      obtain ⟨j, w⟩ := b
      obtain ⟨⟨hlt', hw⟩, hmt'⟩ := (Memory.wf_cons d j w m').1 hm'
      have below : ∀ {n : Memory ν} {a k : Nat}, (∀ e ∈ n, a < e.1) → k ≤ a → Memory.read d n k = d :=
        fun hn hk => Memory.read_of_not_listed d _ _ fun e he => Nat.ne_of_gt (Nat.lt_of_le_of_lt hk (hn e he))
      have hij : i = j := by
        rcases Nat.lt_trichotomy i j with hlt1 | heq | hgt
        · have := h i
          rw [Memory.read_cons, if_pos rfl, Memory.read_cons, if_neg (Nat.ne_of_lt hlt1),
            below hlt' (Nat.le_of_lt hlt1)] at this
          exact absurd this hv
        · exact heq
        · have := h j
          rw [Memory.read_cons, if_neg (Nat.ne_of_lt hgt), Memory.read_cons, if_pos rfl,
            below hlt (Nat.le_of_lt hgt)] at this
          exact absurd this.symm hw
      subst hij
      have hvw : v = w := by simpa [Memory.read_cons] using h i
      subst hvw
      congr 1
      refine ih hmt hmt' fun k => ?_
      by_cases hk : k = i
      · rw [hk, below hlt (Nat.le_refl i), below hlt' (Nat.le_refl i)]
      · simpa [Memory.read_cons, hk] using h k

/-- Writing back what is there changes nothing. -/
theorem Memory.write_read_self {d : ν} {m : Memory ν} (hm : Memory.wf d m) (k : Nat) :
    Memory.write d m k (Memory.read d m k) = m := by
  refine Memory.ext_of_read (Memory.wf_write hm _ _) hm fun j => ?_
  rw [Memory.read_write hm]
  split
  · next h => rw [h]
  · rfl

end

/-! ### Grids -/

theorem Grid.row_wf {g : Grid} (hg : Grid.wf g) (pos : Nat) : Memory.wf (0 : Elem) (Memory.read [] g pos) := by
  rcases Memory.read_mem [] g pos with h | h
  · rw [h]; exact Memory.wf_nil 0
  · exact hg.2 _ h

/-- A write to a grid leaves every other cell alone, whatever the grid. -/
theorem Grid.read_write_ne (g : Grid) (pos lane p l : Nat) (v : Elem) (hg : Grid.wf g) (h : ¬ (p = pos ∧ l = lane)) :
    Grid.read (Grid.write g pos lane v) p l = Grid.read g p l := by
  unfold Grid.read Grid.write
  by_cases hp : p = pos
  · subst hp
    have hl : l ≠ lane := fun e => h ⟨rfl, e⟩
    rw [Memory.read_write_same hg.1, Memory.read_write_ne _ _ _ _ _ hl]
  · rw [Memory.read_write_ne _ _ _ _ _ hp]

theorem Grid.read_write_same {g : Grid} (hg : Grid.wf g) (pos lane : Nat) (v : Elem) :
    Grid.read (Grid.write g pos lane v) pos lane = v := by
  unfold Grid.read Grid.write
  rw [Memory.read_write_same hg.1, Memory.read_write_same (Grid.row_wf hg pos)]

theorem Grid.read_write {g : Grid} (hg : Grid.wf g) (pos lane p l : Nat) (v : Elem) :
    Grid.read (Grid.write g pos lane v) p l = if p = pos ∧ l = lane then v else Grid.read g p l := by
  split
  · next h => rw [h.1, h.2, Grid.read_write_same hg]
  · next h => exact Grid.read_write_ne g pos lane p l v hg h

/-- A write to a grid of `par`'s shape, inside the shape, keeps canonical form and shape. -/
theorem Grid.legal_write {par : Params} {g : Grid} (hg : Grid.legal par g) {pos lane : Nat} (v : Elem)
    (hp : pos < par.nmax) (hl : lane < par.pmax) : Grid.legal par (Grid.write g pos lane v) := by
  obtain ⟨hwf, hin⟩ := hg
  have hrow := Memory.wf_write (Grid.row_wf hwf pos) lane v
  have hlanes : ∀ c ∈ Memory.write 0 (Memory.read [] g pos) lane v, c.1 < par.pmax := by
    intro c hc
    rcases Memory.mem_write hc with ⟨rfl, -⟩ | hc
    · exact hl
    · rcases Memory.read_mem [] g pos with h | h
      · rw [h] at hc; simp at hc
      · exact (hin _ h).2 c hc
  refine ⟨⟨Memory.wf_write hwf.1 _ _, fun e he => ?_⟩, fun e he => ?_⟩
  · rcases Memory.mem_write he with ⟨rfl, -⟩ | he
    · exact hrow
    · exact hwf.2 e he
  · rcases Memory.mem_write he with ⟨rfl, -⟩ | he
    · exact ⟨hp, hlanes⟩
    · exact hin e he

theorem Grid.wf_write {g : Grid} (hg : Grid.wf g) (pos lane : Nat) (v : Elem) : Grid.wf (Grid.write g pos lane v) := by
  refine ⟨Memory.wf_write hg.1 _ _, fun e he => ?_⟩
  rcases Memory.mem_write he with ⟨rfl, -⟩ | he
  · exact Memory.wf_write (Grid.row_wf hg pos) lane v
  · exact hg.2 e he

theorem Grid.wf_writeColumn {g : Grid} (hg : Grid.wf g) (lane pos : Nat) (vs : List Nat) :
    Grid.wf (Grid.writeColumn g lane pos vs) := by
  induction vs generalizing g pos with
  | nil => exact hg
  | cons v vs ih => exact ih (Grid.wf_write hg pos lane _) (pos + 1)

/-- What a column write does: the lane's cells from `pos` on hold the values, every other cell is as before. -/
theorem Grid.read_writeColumn {g : Grid} (hg : Grid.wf g) (lane pos : Nat) (vs : List Nat) (p l : Nat) :
    Grid.read (Grid.writeColumn g lane pos vs) p l =
      if l = lane ∧ pos ≤ p ∧ p < pos + vs.length then BitVec.ofNat 17 (vs.getD (p - pos) 0) else Grid.read g p l := by
  induction vs generalizing g pos with
  | nil =>
    rw [if_neg (by simp only [List.length_nil]; omega)]
    rfl
  | cons v vs ih =>
    have hw : Grid.wf (Grid.write g pos lane (BitVec.ofNat 17 v)) := Grid.wf_write hg pos lane _
    rw [Grid.writeColumn, ih hw, Grid.read_write hg]
    simp only [List.length_cons]
    by_cases hl : l = lane
    · by_cases hp : p = pos
      · subst hp
        rw [if_neg (by omega), if_pos ⟨rfl, hl⟩, if_pos (by omega)]
        simp
      · by_cases h2 : pos + 1 ≤ p ∧ p < pos + 1 + vs.length
        · rw [if_pos ⟨hl, h2⟩, if_pos (by omega)]
          have : p - pos = (p - (pos + 1)) + 1 := by omega
          rw [this, List.getD_cons_succ]
        · rw [if_neg (by tauto), if_neg (by tauto), if_neg (by omega)]
    · rw [if_neg (by tauto), if_neg (by tauto), if_neg (by tauto)]

theorem Grid.legal_writeColumn {par : Params} {g : Grid} (hg : Grid.legal par g) {lane pos : Nat} {vs : List Nat}
    (hp : pos + vs.length ≤ par.nmax) (hl : lane < par.pmax) : Grid.legal par (Grid.writeColumn g lane pos vs) := by
  induction vs generalizing g pos with
  | nil => exact hg
  | cons v vs ih =>
    simp only [List.length_cons] at hp
    exact ih (Grid.legal_write hg _ (by omega) hl) (by omega)

theorem Grid.wf_writeColumns {g : Grid} (hg : Grid.wf g) (cols : List (Nat × List Nat)) :
    Grid.wf (Grid.writeColumns g cols) := by
  induction cols generalizing g with
  | nil => exact hg
  | cons c cols ih => exact ih (Grid.wf_writeColumn hg c.1 0 c.2)

theorem Grid.legal_writeColumns {par : Params} {g : Grid} (hg : Grid.legal par g) {cols : List (Nat × List Nat)}
    (h : ∀ c ∈ cols, c.1 < par.pmax ∧ c.2.length ≤ par.nmax) : Grid.legal par (Grid.writeColumns g cols) := by
  induction cols generalizing g with
  | nil => exact hg
  | cons c cols ih =>
    have hc := h c (by simp)
    exact ih (Grid.legal_writeColumn hg (by omega) hc.1) fun c' hc' => h c' (by simp [hc'])

/-- What writing one column per lane does, for distinct lanes: cell (p, l) holds value p of lane l's column when there
is one, and is as before otherwise. -/
theorem Grid.read_writeColumns {g : Grid} (hg : Grid.wf g) (lanes : List Nat) (hnd : lanes.Nodup)
    (col : Nat → List Nat) (p l : Nat) :
    Grid.read (Grid.writeColumns g (lanes.map fun i => (i, col i))) p l =
      if l ∈ lanes ∧ p < (col l).length then BitVec.ofNat 17 ((col l).getD p 0) else Grid.read g p l := by
  induction lanes generalizing g with
  | nil => simp [Grid.writeColumns]
  | cons i lanes ih =>
    obtain ⟨hi, hnd'⟩ := List.nodup_cons.1 hnd
    have step : Grid.writeColumns g ((i :: lanes).map fun i => (i, col i)) =
        Grid.writeColumns (Grid.writeColumn g i 0 (col i)) (lanes.map fun i => (i, col i)) := rfl
    rw [step, ih (Grid.wf_writeColumn hg i 0 _) hnd', Grid.read_writeColumn hg]
    by_cases hl : l ∈ lanes
    · have hli : l ≠ i := fun e => hi (e ▸ hl)
      simp [hl, hli]
    · by_cases hli : l = i
      · subst hli
        simp [hl]
      · simp [hl, hli]

end Sys2Proof.Machine
end

