-- ==== Sys2Proof/Laws/Buffers.lean ====
section
/-! SUPPORT. What the transforms and the coder read from `IBUF`, `IDS` and the property store and write to `OBUF`, cell by
cell, and that the results are legal (42_fft.md R170 to R174, 43_coder.md R189 to R194, 44_property.md R228). -/

namespace Sys2Proof.Machine

open Sys2Proof

/-! ### Reading a column of `IBUF` -/

@[simp] theorem length_inputColumn (s : State) (n l : Nat) : (inputColumn s n l).length = n := by simp [inputColumn]

theorem inputColumn_getD (s : State) (n l : Nat) {i : Nat} (h : i < n) :
    (inputColumn s n l).getD i 0 = inputElem s i l := by
  simp [inputColumn, inputElem, h]

theorem inputColumn_lt {s : State} (hq : 0 < s.q) (n l : Nat) : ∀ v ∈ inputColumn s n l, v < s.q := by
  intro v hv
  obtain ⟨i, -, rfl⟩ := List.mem_map.1 hv
  exact Nat.mod_lt _ hq

/-- Value j of the transform of the first n cells of a lane. -/
theorem forward_column (s : State) (n l : Nat) {j : Nat} (h : j < s.n) :
    (forward s.q s.r s.n (inputColumn s n l)).getD j 0 = transformSum s n l j := by
  rw [forward_getD _ _ _ _ h, transformSum, length_inputColumn]
  congr 1
  exact Finset.sum_congr rfl fun i hi => by rw [inputColumn_getD s n l (Finset.mem_range.1 hi)]

/-- Value i of the inverse transform of a lane. -/
theorem inverse_column (s : State) (l : Nat) {i : Nat} (h : i < s.n) :
    (inverse s.q s.r s.n (inputColumn s s.n l)).getD i 0 =
      finv s.q (s.n % s.q) * (∑ j ∈ Finset.range s.n, inputElem s j l * finv s.q s.r ^ (j * i)) % s.q := by
  rw [inverse_getD _ _ _ _ h, length_inputColumn]
  congr 2
  exact Finset.sum_congr rfl fun j hj => by rw [inputColumn_getD s s.n l (Finset.mem_range.1 hj)]

/-! ### Writing columns of `OBUF` -/

theorem nodup_packetLanes (s : State) : (packetLanes s).Nodup := List.nodup_range

@[simp] theorem mem_packetLanes (s : State) (l : Nat) : l ∈ packetLanes s ↔ l < s.lanes := List.mem_range

/-- The forward transform of distinct lanes, cell by cell. -/
theorem read_forwardLanes {s : State} (hw : Grid.wf s.obuf) {lanes : List Nat} (hnd : lanes.Nodup) (p l : Nat) :
    Grid.read (forwardLanes s lanes).obuf p l =
      if l ∈ lanes ∧ p < s.n then BitVec.ofNat 17 (transformSum s s.n l p) else Grid.read s.obuf p l := by
  rw [forwardLanes, Grid.read_writeColumns hw lanes hnd, length_forward]
  split
  · next h => rw [forward_column s s.n l h.2]
  · rfl

/-- The inverse transform of distinct lanes, cell by cell. -/
theorem read_inverseLanes {s : State} (hw : Grid.wf s.obuf) {lanes : List Nat} (hnd : lanes.Nodup) (p l : Nat) :
    Grid.read (inverseLanes s lanes).obuf p l =
      if l ∈ lanes ∧ p < s.n then
        BitVec.ofNat 17 (finv s.q (s.n % s.q) *
          (∑ j ∈ Finset.range s.n, inputElem s j l * finv s.q s.r ^ (j * p)) % s.q)
      else Grid.read s.obuf p l := by
  rw [inverseLanes, Grid.read_writeColumns hw lanes hnd, length_inverse]
  split
  · next h => rw [inverse_column s l h.2]
  · rfl

/-- Columns of at most N values in lanes below P are legal contents of `OBUF`. -/
theorem legal_columns {s : State} (h : Inv s) (hr : s.ready = true) {lanes : List Nat}
    (hl : ∀ l ∈ lanes, l < s.lanes) {col : Nat → List Nat} (hc : ∀ l, (col l).length ≤ s.n) :
    Grid.legal s.par (Grid.writeColumns s.obuf (lanes.map fun l => (l, col l))) := by
  refine Grid.legal_writeColumns h.obuf fun c hc' => ?_
  obtain ⟨l, hmem, rfl⟩ := List.mem_map.1 hc'
  have := lanes_bounds h hr
  have := n_bounds h hr
  exact ⟨(hl l hmem).trans_le (by omega), (hc l).trans (by omega)⟩

theorem zero_lt_lanes {s : State} (h : Inv s) (hr : s.ready = true) : ∀ l ∈ [0], l < s.lanes := by
  have := lanes_bounds h hr
  simp
  omega

/-! ### Fragment ids and received values -/

@[simp] theorem length_fragIds (s : State) : (fragIds s).length = s.k := by simp [fragIds]

theorem fragIds_getElem (s : State) {i : Nat} (h : i < (fragIds s).length) : (fragIds s)[i] = fragId s i := by
  simp [fragIds, fragId]

theorem fragIds_getD (s : State) {i : Nat} (h : i < s.k) : (fragIds s).getD i 0 = fragId s i := by
  simp [fragIds, fragId, h]

theorem mem_fragIds (s : State) (f : Nat) : f ∈ fragIds s ↔ ∃ i, i < s.k ∧ fragId s i = f := by
  simp [fragIds, fragId]

theorem nodup_fragIds (s : State) :
    (fragIds s).Nodup ↔ ∀ i j, i < j → j < s.k → fragId s i ≠ fragId s j := by
  rw [List.Nodup, List.pairwise_iff_getElem]
  constructor
  · intro h i j hij hj
    have := h i j (by rw [length_fragIds]; omega) (by rw [length_fragIds]; omega) hij
    rwa [fragIds_getElem, fragIds_getElem] at this
  · intro h i j hi hj hij
    rw [fragIds_getElem, fragIds_getElem]
    exact h i j hij (by rwa [length_fragIds] at hj)

theorem hasOor_iff (l : PropList) (loc : Loc) :
    hasOor l loc = true ↔ ∃ e ∈ l.entries, e.loc = loc ∧ e.mark = 1 := by
  simp only [hasOor, List.any_eq_true, Bool.and_eq_true]
  exact exists_congr fun e => and_congr_right fun _ => and_congr decide_eq_true_iff decide_eq_true_iff

@[simp] theorem length_received (s : State) (l : Nat) (f : List Nat) : (received s l f).length = f.length := by
  simp [received]

theorem receivedValue_eq (s : State) (l i : Nat) : receivedValue s l i (fragId s i) = restored s l i := by
  unfold receivedValue restored
  simp only [hasOor_iff, laneLoc]
  rfl

theorem received_getD (s : State) (l : Nat) {i : Nat} (h : i < s.k) :
    (received s l (fragIds s)).getD i 0 = restored s l i := by
  have h' : i < (fragIds s).length := by rwa [length_fragIds]
  rw [← receivedValue_eq, List.getD_eq_getElem _ 0 (by simpa using h)]
  simp only [received, List.getElem_mapIdx, fragIds_getElem s h']

theorem length_recovered (s : State) (l : Nat) : (recovered s l (fragIds s)).length = s.k := by
  simp [recovered, length_lagrange]

/-- The effect of a decode over distinct lanes, cell by cell. -/
theorem read_recovered {s : State} (hw : Grid.wf s.obuf) {lanes : List Nat} (hnd : lanes.Nodup) (p l : Nat) :
    Grid.read (Grid.writeColumns s.obuf (lanes.map fun l => (l, recovered s l (fragIds s)))) p l =
      if l ∈ lanes ∧ p < s.k then BitVec.ofNat 17 ((recovered s l (fragIds s)).getD p 0) else Grid.read s.obuf p l := by
  rw [Grid.read_writeColumns hw lanes hnd fun l => recovered s l (fragIds s)]
  simp only [length_recovered]

/-- What the checks of a decode ask. -/
theorem decodeLanes_fragmentId {s : State} {lanes : List Nat} (h : ∃ i, i < s.k ∧ s.n ≤ fragId s i) :
    decodeLanes s lanes = .error .fragmentId := by
  obtain ⟨i, hi, hf⟩ := h
  rw [decodeLanes, if_pos]
  simp only [List.any_eq_true, decide_eq_true_eq]
  exact ⟨_, (mem_fragIds s _).2 ⟨i, hi, rfl⟩, hf⟩

theorem decodeLanes_in_range {s : State} {lanes : List Nat} (h : ∀ i, i < s.k → fragId s i < s.n) :
    decodeLanes s lanes =
      if ¬ (fragIds s).Nodup then .error .duplicateIds
      else .ok { s with obuf := Grid.writeColumns s.obuf (lanes.map fun l => (l, recovered s l (fragIds s))) } := by
  rw [decodeLanes, if_neg]
  simp only [List.any_eq_true, decide_eq_true_eq, not_exists, not_and, ge_iff_le, not_le]
  intro f hf
  obtain ⟨i, hi, rfl⟩ := (mem_fragIds s f).1 hf
  exact h i hi

end Sys2Proof.Machine
end

