-- ==== Sys2Proof/Laws/Command.lean ====
section
/-! SUPPORT. What running a command can do, said once for `command`, `whenReady`, `whenPosition`, and what serving a host
event can do. -/

namespace Sys2Proof.Machine

open Sys2Proof

/-! ### The end of a command -/

@[simp] theorem command_ok (i : Instr) (s t : State) : command i s (.ok t) = .next t := rfl

@[simp] theorem command_error (i : Instr) (s : State) (e : Err) :
    command i s (.error e) = .next (takeFault (encode i) e s) := rfl

/-- A command always answers a next state: its effect, or fault entry. -/
theorem command_cases (i : Instr) (s : State) (r : Except Err State) :
    (∃ t, r = .ok t ∧ command i s r = .next t) ∨
    ∃ e, r = .error e ∧ command i s r = .next (takeFault (encode i) e s) := by
  cases r with
  | ok t => exact .inl ⟨t, rfl, rfl⟩
  | error e => exact .inr ⟨e, rfl, rfl⟩

theorem command_next {i : Instr} {s t : State} {r : Except Err State} (h : command i s r = .next t) :
    r = .ok t ∨ ∃ e, r = .error e ∧ t = takeFault (encode i) e s := by
  cases r with
  | ok u => exact .inl (by simpa using h)
  | error e => exact .inr ⟨e, rfl, by simpa using h.symm⟩

/-- Fault entry by `command` is what `Faults` says. -/
theorem faults_of_command {i : Instr} {s : State} {r : Except Err State} (h : exec i s = command i s r) {e : Err}
    (hr : r = .error e) : Faults i s e.code e.info := by
  rw [Faults, h, hr]; rfl

/-! ### The two checks that commands share -/

@[simp] theorem whenReady_true {s : State} (h : s.ready = true) (r : Except Err State) : whenReady s r = r := by
  simp [whenReady, h]

@[simp] theorem whenReady_false {s : State} (h : s.ready = false) (r : Except Err State) :
    whenReady s r = .error .notReady := by
  simp [whenReady, h]

theorem whenReady_ok {s t : State} {r : Except Err State} (h : whenReady s r = .ok t) :
    s.ready = true ∧ r = .ok t := by
  cases hr : s.ready <;> simp_all

theorem whenPosition_lt {s : State} {pos : Nat} (h : pos < s.par.nmax) (r : Except Err State) :
    whenPosition s pos r = r := by
  simp [whenPosition, h]

theorem whenPosition_ge {s : State} {pos : Nat} (h : s.par.nmax ≤ pos) (r : Except Err State) :
    whenPosition s pos r = .error .position := by
  simp [whenPosition, h]

theorem whenPosition_ok {s t : State} {pos : Nat} {r : Except Err State} (h : whenPosition s pos r = .ok t) :
    pos < s.par.nmax ∧ r = .ok t := by
  by_cases hp : pos < s.par.nmax
  · exact ⟨hp, by rwa [whenPosition_lt hp] at h⟩
  · rw [whenPosition_ge (by omega)] at h; cases h

/-! ### Errors -/

theorem mem_allErrors (e : Err) : e ∈ allErrors := by cases e <;> decide

/-- Fault entry leaves a legal error record. -/
theorem errorLegal_takeFault (w : Word) (e : Err) (s : State) : (takeFault w e s).errorLegal :=
  ⟨fun h => by simp at h, fun _ => ⟨e, mem_allErrors e, rfl, rfl⟩⟩

theorem errorLegal_clearFault (s : State) : (clearFault s).errorLegal :=
  ⟨fun _ => rfl, fun h => by simp [ErrorRegs.zero] at h⟩

/-! ### Writing a scalar register -/

/-- A command whose effect is one scalar register completes as `Writes` says. -/
theorem writes_of_setXNat {i : Instr} {s : State} {d : XReg} {v : Nat} (h : exec i s = .next (setXNat s d v))
    (hv : v < 2 ^ 32) : Writes i s d v :=
  ⟨_, h, by rw [getX_setXNat_same, BitVec.toNat_ofNat, Nat.mod_eq_of_lt hv],
    fun r hr => getX_setXNat_ne s d r v hr, rfl⟩

/-- A command whose effect is one polynomial register changes nothing else. -/
theorem changesOnlyPoly_setPoly (s : State) (d : PReg) (m : Memory Elem) : ChangesOnlyPoly d s (setPoly s d m) :=
  ⟨fun r hr => getPoly_setPoly_ne s d r m hr, rfl⟩

/-! ### Serving a host event -/

theorem stepOnce_nil {s : State} (hp : s.par.wf = true) (h : s.port = []) : stepOnce s = .next s := by
  simp [stepOnce, hp, takeEvent, h]

/-- A step with a waiting event takes it from the port and serves it. -/
theorem stepOnce_cons {s : State} (hp : s.par.wf = true) {e : HostEvent} {rest : List HostEvent}
    (h : s.port = e :: rest) : stepOnce s = serve e { s with port := rest } := by
  simp [stepOnce, hp, takeEvent, h]

theorem stepOnce_refused {s : State} (hp : s.par.wf = false) : stepOnce s = .refused .badParameters := by
  simp [stepOnce, hp]

theorem serve_read {off size : Nat} (h : admitted off size = true) (s : State) :
    serve (.read off size) s = .next (serveRead (winRegAt off) s) := by simp [serve, h]

theorem serve_write {off size : Nat} (h : admitted off size = true) (v : Word) (s : State) :
    serve (.write off size v) s = serveWrite (winRegAt off) v s := by simp [serve, h]

/-- A command word that decodes is run by `exec`, unless an error is recorded. -/
theorem runWord_decoded {w : Word} {i : Instr} {s : State} (he : s.error.err = false) (hd : decode w = .ok i) :
    runWord w s = exec i s := by simp [runWord, he, hd]

theorem runWord_illegal {w : Word} {x : IllegalWord} {s : State} (he : s.error.err = false)
    (hd : decode w = .error x) : runWord w s = .next (takeFault w .illegalCommand s) := by simp [runWord, he, hd]

theorem runWord_ignored {w : Word} {s : State} (he : s.error.err = true) : runWord w s = .next s := by
  simp [runWord, he]

theorem admitted_of_aligned {off : Nat} (h : off % 4 = 0) (hlt : off < 0x100) : admitted off 4 = true := by
  simp [admitted, h, hlt]

theorem not_admitted {off size : Nat} (h : size ≠ 4 ∨ off % 4 ≠ 0 ∨ 0x100 ≤ off) : admitted off size = false := by
  simp only [admitted, Bool.and_eq_false_iff, decide_eq_false_iff_not]
  omega

/-- What a register reads does not depend on the port. -/
@[simp] theorem readReg_port (s : State) (p : List HostEvent) (reg : WinReg) :
    readReg { s with port := p } reg = readReg s reg := by cases reg <;> rfl

/-- An admitted read is one step: it answers the register and changes nothing else. -/
theorem step_read {s : State} {off : Nat} {rest : List HostEvent} (hp : s.par.wf = true)
    (h : s.port = .read off 4 :: rest) (ha : admitted off 4 = true) :
    step s = .next { s with port := rest, reads := s.reads ++ [readReg s (winRegAt off)] } := by
  rw [step, stepOnce_cons hp h, serve_read ha, serveRead, readReg_port]

/-- An admitted write is one step. -/
theorem step_write {s : State} {off : Nat} {v : Word} {rest : List HostEvent} (hp : s.par.wf = true)
    (h : s.port = .write off 4 v :: rest) (ha : admitted off 4 = true) :
    step s = serveWrite (winRegAt off) v { s with port := rest } := by
  rw [step, stepOnce_cons hp h, serve_write ha]

/-- An admitted write to a register other than `CMD` stores what `writeReg` says. -/
theorem step_writeReg {s : State} {off : Nat} {v : Word} {rest : List HostEvent} (hp : s.par.wf = true)
    (h : s.port = .write off 4 v :: rest) (ha : admitted off 4 = true) (hc : winRegAt off ≠ .cmd) :
    step s = .next (writeReg { s with port := rest } v (winRegAt off)) := by
  rw [step_write hp h ha, serveWrite, if_neg hc]

/-- The only offset of `CMD`. -/
theorem winRegAt_cmd {off : Nat} (h : winRegAt off = .cmd) : off = 0x018 := by
  unfold winRegAt at h
  split at h <;> first | rfl | cases h | (split at h <;> cases h)

end Sys2Proof.Machine
end

