-- ==== Sys2Proof/Laws/Decode.lean ====
section
/-! SUPPORT. What the decoder reads from a word written by `wordR` or `wordI`: one lemma per word form, the fields, and the
decoder's format helpers on them. -/

namespace Sys2Proof

section
variable {op d a b c : Nat} (ho : op < 256) (hd : d < 16) (ha : a < 16) (hb : b < 16) (hc : c < 16)
include ho hd ha hb hc

theorem wordR_toNat : (wordR op d a b c).toNat = op * 2 ^ 24 + d * 2 ^ 20 + a * 2 ^ 16 + b * 2 ^ 12 + c * 2 ^ 8 := by
  simp only [wordR, BitVec.toNat_ofNat]; omega

theorem opField_wordR : opField (wordR op d a b c) = op := by
  simp only [opField, wordR_toNat ho hd ha hb hc]; omega

theorem dField_wordR : dField (wordR op d a b c) = d := by
  simp only [dField, wordR_toNat ho hd ha hb hc]; omega

theorem aField_wordR : aField (wordR op d a b c) = a := by
  simp only [aField, wordR_toNat ho hd ha hb hc]; omega

theorem bField_wordR : bField (wordR op d a b c) = b := by
  simp only [bField, wordR_toNat ho hd ha hb hc]; omega

theorem cField_wordR : cField (wordR op d a b c) = c := by
  simp only [cField, wordR_toNat ho hd ha hb hc]; omega

theorem lowBits8_wordR : lowBits (wordR op d a b c) 8 = 0 := by
  simp only [lowBits, wordR_toNat ho hd ha hb hc]; omega

end

section
variable {op d a b : Nat} (ho : op < 256) (hd : d < 16) (ha : a < 16) (hb : b < 16)
include ho hd ha hb

theorem lowBits12_wordR : lowBits (wordR op d a b 0) 12 = 0 := by
  simp only [lowBits, wordR_toNat ho hd ha hb (Nat.zero_lt_succ _)]; omega

end

section
variable {op d a : Nat} (ho : op < 256) (hd : d < 16) (ha : a < 16)
include ho hd ha

theorem lowBits16_wordR : lowBits (wordR op d a 0 0) 16 = 0 := by
  simp only [lowBits, wordR_toNat ho hd ha (Nat.zero_lt_succ _) (Nat.zero_lt_succ _)]; omega

end

theorem lowBits20_wordR {op d : Nat} (ho : op < 256) (hd : d < 16) : lowBits (wordR op d 0 0 0) 20 = 0 := by
  simp only [lowBits, wordR_toNat ho hd (Nat.zero_lt_succ _) (Nat.zero_lt_succ _) (Nat.zero_lt_succ _)]; omega

theorem lowBits24_wordR {op : Nat} (ho : op < 256) : lowBits (wordR op 0 0 0 0) 24 = 0 := by
  simp only [lowBits, wordR_toNat ho (Nat.zero_lt_succ _) (Nat.zero_lt_succ _) (Nat.zero_lt_succ _) (Nat.zero_lt_succ _)]
  omega

section
variable {op d imm : Nat} (ho : op < 256) (hd : d < 16)
include ho hd

theorem wordI_toNat : (wordI op d imm).toNat = op * 2 ^ 24 + d * 2 ^ 20 + imm % 2 ^ 20 := by
  simp only [wordI, BitVec.toNat_ofNat]; omega

theorem opField_wordI : opField (wordI op d imm) = op := by simp only [opField, wordI_toNat ho hd]; omega

theorem dField_wordI : dField (wordI op d imm) = d := by simp only [dField, wordI_toNat ho hd]; omega

theorem lowBits20_wordI : lowBits (wordI op d imm) 20 = imm % 2 ^ 20 := by
  simp only [lowBits, wordI_toNat ho hd]; omega

end

@[simp] theorem xregOf_val (i : XReg) : xregOf i.val = i := Fin.ext (Nat.mod_eq_of_lt i.isLt)

@[simp] theorem pregOf_val (i : PReg) (k : PReg → Except IllegalWord Instr) : pregOf i.val k = k i := by
  simp [pregOf]

/-! ### Masks (R95) -/

theorem land_block (x a k : Nat) : x &&& ((2 ^ k - 1) * 2 ^ a) = x / 2 ^ a % 2 ^ k * 2 ^ a := by
  apply Nat.eq_of_testBit_eq
  intro i
  rw [Nat.testBit_and, Nat.testBit_mul_two_pow, Nat.testBit_mul_two_pow, Nat.testBit_two_pow_sub_one,
    Nat.testBit_mod_two_pow, Nat.testBit_div_two_pow]
  by_cases hi : a ≤ i
  · by_cases hk : i - a < k
    · simp [hi, hk, Nat.sub_add_cancel hi]
    · simp [hk]
  · simp [hi]

theorem land_disjoint (x m n c : Nat) (hm : m < 2 ^ c) (hn : 2 ^ c ∣ n) : x &&& (m + n) = (x &&& m) + (x &&& n) := by
  obtain ⟨k, rfl⟩ := hn
  have h1 : m + 2 ^ c * k = 2 ^ c * k ||| m := by rw [← Nat.two_pow_add_eq_or_of_lt hm]; omega
  have h2 : x &&& (2 ^ c * k) = 2 ^ c * (x / 2 ^ c &&& k) := by
    apply Nat.eq_of_testBit_eq
    intro i
    rw [Nat.testBit_and, Nat.testBit_two_pow_mul, Nat.testBit_two_pow_mul, Nat.testBit_and, Nat.testBit_div_two_pow]
    by_cases hi : c ≤ i
    · simp [hi, Nat.sub_add_cancel hi]
    · simp [hi]
  have h3 : x &&& m < 2 ^ c := lt_of_le_of_lt Nat.and_le_right hm
  rw [h1, Nat.and_or_distrib_left, h2, ← Nat.two_pow_add_eq_or_of_lt h3]
  omega

/-- A word under a mask of up to three blocks of ones: its low `l` bits, `k` bits from `a` on, `n` bits from `b` on. -/
theorem land_mask (x l a k b n : Nat) (h1 : l ≤ a) (h2 : a + k ≤ b) :
    x &&& (2 ^ l - 1 + (2 ^ k - 1) * 2 ^ a + (2 ^ n - 1) * 2 ^ b) =
      x % 2 ^ l + x / 2 ^ a % 2 ^ k * 2 ^ a + x / 2 ^ b % 2 ^ n * 2 ^ b := by
  have p1 := Nat.two_pow_pos l
  have p2 := Nat.two_pow_pos k
  have q1 : 2 ^ l ≤ 2 ^ a := Nat.pow_le_pow_right (by omega) h1
  have q2 : 2 ^ (a + k) ≤ 2 ^ b := Nat.pow_le_pow_right (by omega) h2
  have q3 : (2 ^ k - 1) * 2 ^ a + 2 ^ a = 2 ^ (a + k) := by
    rw [pow_add, mul_comm (2 ^ a), Nat.sub_mul, one_mul]
    exact Nat.sub_add_cancel (Nat.le_mul_of_pos_left _ p2)
  rw [land_disjoint x _ _ b (by omega) (Dvd.intro_left _ rfl), land_disjoint x _ _ a (by omega) (Dvd.intro_left _ rfl),
    land_block, land_block, Nat.and_two_pow_sub_one_eq_mod]

/-! ### A word read by its format -/

section
variable {op : Nat} (ho : op < 256)
include ho

theorem fmtXXXX_wordR (d a b c : XReg) (mk : XReg → XReg → XReg → XReg → Instr) :
    fmtXXXX (wordR op d a b c) mk = .ok (mk d a b c) := by
  simp [fmtXXXX, lowBits8_wordR, dField_wordR, aField_wordR, bField_wordR, cField_wordR, *]

theorem fmtXXX_wordR (d a b : XReg) (mk : XReg → XReg → XReg → Instr) :
    fmtXXX (wordR op d a b 0) mk = .ok (mk d a b) := by
  simp [fmtXXX, lowBits12_wordR, dField_wordR, aField_wordR, bField_wordR, *]

theorem fmtXX_wordR (d a : XReg) (mk : XReg → XReg → Instr) : fmtXX (wordR op d a 0 0) mk = .ok (mk d a) := by
  simp [fmtXX, lowBits16_wordR, dField_wordR, aField_wordR, *]

theorem fmtX_wordR (d : XReg) (mk : XReg → Instr) : fmtX (wordR op d 0 0 0) mk = .ok (mk d) := by
  simp [fmtX, lowBits20_wordR, dField_wordR, *]

theorem fmtA_wordR (a : XReg) (mk : XReg → Instr) : fmtA (wordR op 0 a 0 0) mk = .ok (mk a) := by
  simp [fmtA, lowBits16_wordR, dField_wordR, aField_wordR, *]

theorem fmtNone_wordR (i : Instr) : fmtNone (wordR op 0 0 0 0) i = .ok i := by
  simp [fmtNone, lowBits24_wordR ho]

theorem fmtPXX_wordR (d : PReg) (a b : XReg) (mk : PReg → XReg → XReg → Instr) :
    fmtPXX (wordR op d a b 0) mk = .ok (mk d a b) := by
  have hd : d.val < 16 := by omega
  simp [fmtPXX, lowBits12_wordR, dField_wordR, aField_wordR, bField_wordR, *]

theorem fmtXPX_wordR (d : XReg) (a : PReg) (b : XReg) (mk : XReg → PReg → XReg → Instr) :
    fmtXPX (wordR op d a b 0) mk = .ok (mk d a b) := by
  have ha : a.val < 16 := by omega
  simp [fmtXPX, lowBits12_wordR, dField_wordR, aField_wordR, bField_wordR, *]

theorem fmtPP_wordR (d a : PReg) (mk : PReg → PReg → Instr) : fmtPP (wordR op d a 0 0) mk = .ok (mk d a) := by
  have hd : d.val < 16 := by omega
  have ha : a.val < 16 := by omega
  simp [fmtPP, lowBits16_wordR, dField_wordR, aField_wordR, *]

theorem fmtP_wordR (d : PReg) (mk : PReg → Instr) : fmtP (wordR op d 0 0 0) mk = .ok (mk d) := by
  have hd : d.val < 16 := by omega
  simp [fmtP, lowBits20_wordR, dField_wordR, *]

theorem fmtI_wordI (d : XReg) {imm : Word} (h : imm.toNat < 2 ^ 20) (mk : XReg → Word → Instr) :
    fmtI (wordI op d imm.toNat) mk = .ok (mk d imm) := by
  simp only [fmtI, dField_wordI ho d.isLt, xregOf_val, lowBits20_wordI ho d.isLt, Nat.mod_eq_of_lt h,
    BitVec.ofNat_toNat, BitVec.setWidth_eq]

end

/-! ### The opcode of a decoded word -/

theorem opField_of_decode {w : Word} {i : Instr} (h : decode w = .ok i) : opField w = i.opcode := by
  unfold decode at h
  split at h
  all_goals (try (simp only [reduceCtorEq] at h))
  all_goals
    rename_i ho
    simp only [fmtI, fmtXXXX, fmtXXX, fmtXX, fmtX, fmtA, fmtNone, pregOf, fmtPXX, fmtXPX, fmtPP, fmtP] at h
    (repeat' split at h) <;> (try (simp only [reduceCtorEq] at h)) <;>
    (simp only [Except.ok.injEq] at h; subst h; exact ho)

end Sys2Proof
end

