-- ==== Sys2Proof/Laws/Property.lean ====
section
/-! SUPPORT. The property store: reading a list after a write, the location and iterator operations, legal stores
(10_state.md R39, R44, 44_property.md R220 to R227). -/

namespace Sys2Proof.Machine

open Sys2Proof

/-! ### Lists after a write -/

theorem getProps_setProps_same {s : State} (h : propLegal s.par s.prop) (p : Nat) (l : PropList) :
    getProps (setProps s p l) p = l := Memory.read_write_same h.1 _ _

theorem getProps_setProps_ne (s : State) {p j : Nat} (hj : j ≠ p) (l : PropList) :
    getProps (setProps s p l) j = getProps s j := Memory.read_write_ne _ _ _ _ _ hj

@[simp] theorem getProps_setX (s : State) (d : XReg) (v : Word) (p : Nat) : getProps (setX s d v) p = getProps s p := rfl

@[simp] theorem getProps_setXNat (s : State) (d : XReg) (v : Nat) (p : Nat) :
    getProps (setXNat s d v) p = getProps s p := rfl

/-! ### Locations and the iterator -/

theorem locOp_toNat (s : State) (lo hi : XReg) :
    (locOp s lo hi).toNat = (getX s hi).toNat * 2 ^ 32 + (getX s lo).toNat := append_toNat _ _

theorem PropList.advance_of_lt {l : PropList} (h : l.cursor < l.entries.length) :
    l.advance = { l with cursor := l.cursor + 1 } := if_pos h

theorem PropList.advance_of_ge {l : PropList} (h : l.entries.length ≤ l.cursor) : l.advance = l :=
  if_neg (Nat.not_lt.2 h)

theorem PropList.current_of_some {l : PropList} {e : PropEntry} (h : l.current = some e) :
    l.cursor < l.entries.length := by
  by_contra hc
  rw [PropList.current, List.getElem?_eq_none (by omega)] at h
  cases h

/-- `PRMK` answers 1 exactly when there is a current entry and it has the location (R222). -/
theorem currentMatches_iff (l : PropList) (loc : Loc) :
    currentMatches l loc = true ↔ ∃ e, l.current = some e ∧ e.loc = loc := by
  unfold currentMatches
  cases l.current with
  | none => simp
  | some e => exact ⟨fun h => ⟨e, rfl, of_decide_eq_true h⟩, fun ⟨x, hx, h⟩ => by cases hx; exact decide_eq_true h⟩

/-- Advancing keeps the list within its bounds. -/
theorem advance_legal {l : PropList} (h : l.cursor ≤ l.len) : l.advance.len = l.len ∧ l.advance.cursor ≤ l.len := by
  unfold PropList.advance
  split
  · next hlt => exact ⟨rfl, hlt⟩
  · exact ⟨rfl, h⟩

/-! ### The property lists of a legal store (10_state.md R39, R44) -/

theorem getProps_legal {s : State} (h : propLegal s.par s.prop) (p : Nat) :
    (getProps s p).entries.length ≤ s.par.propcap ∧ (getProps s p).cursor ≤ (getProps s p).entries.length := by
  rcases Memory.read_mem emptyProps s.prop p with e | e
  · rw [getProps, e]; simp [emptyProps]
  · exact (h.2 _ e).2

/-! ### Legal property stores -/

/-- Writing one list keeps a legal store. -/
theorem propLegal_write {par : Params} {prop : Memory PropList} (h : propLegal par prop) {p : Nat} (hp : p < par.nmax)
    {pl : PropList} (hl : pl.len ≤ par.propcap) (hc : pl.cursor ≤ pl.len) :
    propLegal par (Memory.write emptyProps prop p pl) := by
  refine ⟨Memory.wf_write h.1 _ _, fun e he => ?_⟩
  rcases Memory.mem_write he with ⟨rfl, -⟩ | he
  · exact ⟨hp, hl, hc⟩
  · exact h.2 e he

/-- A canonical store is legal when what it reads is: no list beyond NMAX, every list within its bounds. -/
theorem propLegal_of_read {par : Params} {prop : Memory PropList} (hw : Memory.wf emptyProps prop)
    (hb : ∀ p, par.nmax ≤ p → Memory.read emptyProps prop p = emptyProps)
    (hl : ∀ p, (Memory.read emptyProps prop p).len ≤ par.propcap ∧
      (Memory.read emptyProps prop p).cursor ≤ (Memory.read emptyProps prop p).len) : propLegal par prop := by
  refine ⟨hw, fun e he => ?_⟩
  have hr := Memory.read_of_mem hw he
  refine ⟨?_, hr ▸ hl e.1⟩
  by_contra hc
  exact hw.2 e he (hr.symm.trans (hb e.1 (by omega)))

theorem getProps_beyond {s : State} (h : propLegal s.par s.prop) {p : Nat} (hp : s.par.nmax ≤ p) :
    getProps s p = emptyProps := by
  rcases Memory.read_mem emptyProps s.prop p with e | e
  · exact e
  · exact absurd (h.2 _ e).1 (by omega)

end Sys2Proof.Machine
end

