-- ==== Sys2Proof/Laws/Encode.lean ====
section
/-! SUPPORT. What an encode does to `OBUF` and to the property store, and its capacity check (43_coder.md R189 to R191). -/

namespace Sys2Proof.Machine

open Sys2Proof

/-- A lane's code value at a position is out of range (R189 (c)). -/
abbrev oorAt (s : State) (j l : Nat) : Prop := transformSum s s.k l j = s.q - 1

@[simp] theorem length_codeValues (s : State) (l : Nat) : (codeValues s l).length = s.n := by simp [codeValues]

theorem codeValues_getD (s : State) (l : Nat) {j : Nat} (h : j < s.n) :
    (codeValues s l).getD j 0 = transformSum s s.k l j := forward_column s s.k l h

/-- The number of lanes out of range at a position. -/
theorem oorCount_codeColumns (s : State) (lanes : List Nat) {j : Nat} (h : j < s.n) :
    oorCount s (codeColumns s lanes) j = (lanes.filter fun l => oorAt s j l).length := by
  rw [oorCount, codeColumns, List.countP_map, List.countP_eq_length_filter]
  congr 1
  refine List.filter_congr fun l _ => ?_
  simp only [Function.comp, isOor, codeValues_getD s l h, oorAt]

/-- The capacity check of an encode, in a state whose lists are within capacity. -/
theorem propsOverflow_iff {s : State} (h : propLegal s.par s.prop) (lanes : List Nat) :
    propsOverflow s (codeColumns s lanes) = true ↔
      ∃ j, j < s.n ∧ (getProps s j).entries.length + (lanes.filter fun l => oorAt s j l).length > s.par.propcap := by
  simp only [propsOverflow, List.any_eq_true, List.mem_range, decide_eq_true_eq]
  refine exists_congr fun j => and_congr_right fun hj => ?_
  rw [oorCount_codeColumns s lanes hj, PropList.len]
  have := (getProps_legal h j).1
  omega

/-! ### The marks -/

/-- The entry an out-of-range value of a lane leaves. -/
def oorEntry (s : State) (l : Nat) : PropEntry := { loc := laneLoc s l, mark := oorMark }

/-- A list with entries appended. -/
def PropList.appendAll (pl : PropList) (es : List PropEntry) : PropList := { pl with entries := pl.entries ++ es }

@[simp] theorem PropList.appendAll_nil (pl : PropList) : pl.appendAll [] = pl := by simp [PropList.appendAll]

theorem PropList.appendAll_appendAll (pl : PropList) (es fs : List PropEntry) :
    (pl.appendAll es).appendAll fs = pl.appendAll (es ++ fs) := by simp [PropList.appendAll]

theorem wf_markValue (s : State) (l j v : Nat) {prop : Memory PropList} (h : Memory.wf emptyProps prop) :
    Memory.wf emptyProps (markValue s l j v prop) := by
  unfold markValue
  split
  · exact Memory.wf_write h _ _
  · exact h

theorem read_markValue (s : State) (l j v : Nat) {prop : Memory PropList} (h : Memory.wf emptyProps prop) (p : Nat) :
    Memory.read emptyProps (markValue s l j v prop) p =
      if p = j ∧ isOor s v = true then (Memory.read emptyProps prop p).appendAll [oorEntry s l]
      else Memory.read emptyProps prop p := by
  unfold markValue
  split
  · next hv =>
    rw [Memory.read_write h]
    by_cases hp : p = j
    · subst hp; simp [hv]; rfl
    · simp [hp]
  · next hv => rw [if_neg (by tauto)]

theorem wf_markColumn (s : State) (l j : Nat) (vs : List Nat) {prop : Memory PropList}
    (h : Memory.wf emptyProps prop) : Memory.wf emptyProps (markColumn s l j vs prop) := by
  induction vs generalizing j prop with
  | nil => exact h
  | cons v vs ih => exact ih (j + 1) (wf_markValue s l j v h)

/-- One lane's marks: one entry at each position whose value is out of range. -/
theorem read_markColumn (s : State) (l j : Nat) (vs : List Nat) {prop : Memory PropList}
    (h : Memory.wf emptyProps prop) (p : Nat) :
    Memory.read emptyProps (markColumn s l j vs prop) p =
      (Memory.read emptyProps prop p).appendAll
        (if j ≤ p ∧ p < j + vs.length ∧ isOor s (vs.getD (p - j) 0) = true then [oorEntry s l] else []) := by
  induction vs generalizing j prop with
  | nil =>
    rw [if_neg (fun hc => by have := hc.2.1; simp only [List.length_nil] at this; omega), PropList.appendAll_nil]
    rfl
  | cons v vs ih =>
    rw [markColumn, ih (j + 1) (wf_markValue s l j v h), read_markValue s l j v h]
    by_cases hp : p = j
    · subst hp
      rw [if_neg (fun hc : p + 1 ≤ p ∧ _ => by have := hc.1; omega), PropList.appendAll_nil]
      simp only [true_and, le_refl, Nat.sub_self, List.getD_cons_zero, List.length_cons]
      by_cases hv : isOor s v = true
      · rw [if_pos hv, if_pos ⟨by omega, hv⟩]
      · rw [if_neg hv, if_neg (fun hc => hv hc.2), PropList.appendAll_nil]
    · rw [if_neg (fun hc => hp hc.1)]
      congr 1
      by_cases hlt : j ≤ p
      · have e : p - j = (p - (j + 1)) + 1 := by omega
        rw [e, List.getD_cons_succ, List.length_cons]
        congr 1
        simp only [eq_iff_iff]
        constructor <;> rintro ⟨h1, h2, h3⟩ <;> exact ⟨by omega, by omega, h3⟩
      · rw [if_neg (fun hc => by have := hc.1; omega), if_neg (fun hc => hlt hc.1)]

theorem wf_markColumns (s : State) (cols : List (Nat × List Nat)) {prop : Memory PropList}
    (h : Memory.wf emptyProps prop) : Memory.wf emptyProps (markColumns s cols prop) := by
  induction cols generalizing prop with
  | nil => exact h
  | cons c cols ih => exact ih (wf_markColumn s c.1 0 c.2 h)

/-- The marks of an encode: at each position below N, one entry for each lane out of range there, in the order of the
lanes; elsewhere nothing. -/
theorem read_markColumns (s : State) (lanes : List Nat) {prop : Memory PropList} (h : Memory.wf emptyProps prop)
    (p : Nat) :
    Memory.read emptyProps (markColumns s (codeColumns s lanes) prop) p =
      (Memory.read emptyProps prop p).appendAll
        (if p < s.n then (lanes.filter fun l => oorAt s p l).map (oorEntry s) else []) := by
  induction lanes generalizing prop with
  | nil => simp [codeColumns, markColumns]
  | cons l lanes ih =>
    have step : markColumns s (codeColumns s (l :: lanes)) prop =
        markColumns s (codeColumns s lanes) (markColumn s l 0 (codeValues s l) prop) := rfl
    rw [step, ih (wf_markColumn s l 0 _ h), read_markColumn s l 0 _ h, PropList.appendAll_appendAll]
    congr 1
    by_cases hp : p < s.n
    · simp only [Nat.zero_le, true_and, length_codeValues, Nat.zero_add, hp, if_true, Nat.sub_zero,
        codeValues_getD s l hp, isOor, decide_eq_true_eq]
      by_cases ho : oorAt s p l
      · rw [if_pos ho, List.filter_cons_of_pos (by simpa using ho)]; rfl
      · rw [if_neg ho, List.filter_cons_of_neg (by simpa using ho)]; rfl
    · simp [hp]

/-! ### The effect of an encode -/

/-- `OBUF` after an encode of distinct lanes, cell by cell. -/
theorem read_encode_obuf {s : State} (hw : Grid.wf s.obuf) {lanes : List Nat} (hnd : lanes.Nodup) (p l : Nat) :
    Grid.read (encodeColumns s (codeColumns s lanes)).obuf p l =
      if l ∈ lanes ∧ p < s.n then
        (if oorAt s p l then 0 else BitVec.ofNat 17 (transformSum s s.k l p))
      else Grid.read s.obuf p l := by
  have e : ((codeColumns s lanes).map fun c => (c.1, c.2.map (storedValue s))) =
      lanes.map fun l => (l, (codeValues s l).map (storedValue s)) := by
    simp [codeColumns]
  rw [encodeColumns]
  simp only [e]
  rw [Grid.read_writeColumns hw lanes hnd fun l => (codeValues s l).map (storedValue s)]
  simp only [List.length_map, length_codeValues]
  split
  · next h =>
    have hl : p < (codeValues s l).length := by simpa using h.2
    have hv := codeValues_getD s l h.2
    rw [List.getD_eq_getElem _ 0 hl] at hv
    rw [List.getD_eq_getElem _ 0 (by simpa using h.2), List.getElem_map, hv]
    simp only [storedValue, isOor, decide_eq_true_eq]
    split <;> simp
  · rfl

/-- The property lists after an encode. -/
theorem getProps_encode {s : State} (hw : Memory.wf emptyProps s.prop) (lanes : List Nat) (p : Nat) :
    getProps (encodeColumns s (codeColumns s lanes)) p =
      (getProps s p).appendAll (if p < s.n then (lanes.filter fun l => oorAt s p l).map (oorEntry s) else []) :=
  read_markColumns s lanes hw p

/-- An encode that passed its capacity check leaves a legal property store. -/
theorem propLegal_encode {s : State} (h : propLegal s.par s.prop) (hn : s.n ≤ s.par.nmax) {lanes : List Nat}
    (hc : propsOverflow s (codeColumns s lanes) = false) :
    propLegal s.par (encodeColumns s (codeColumns s lanes)).prop := by
  refine propLegal_of_read (wf_markColumns s _ h.1) (fun p hp => ?_) fun p => ?_
  · exact (getProps_encode h.1 lanes p).trans (by rw [if_neg (by omega), PropList.appendAll_nil, getProps_beyond h hp])
  · have hg := getProps_legal h p
    have e := getProps_encode h.1 lanes p
    have hcap := mt (propsOverflow_iff h lanes).2 (by simp [hc])
    rw [show Memory.read emptyProps (encodeColumns s (codeColumns s lanes)).prop p = _ from e]
    simp only [PropList.len, PropList.appendAll, List.length_append]
    split
    · next hp =>
      rw [List.length_map]
      have : ¬ (getProps s p).entries.length + (lanes.filter fun l => oorAt s p l).length > s.par.propcap :=
        fun hgt => hcap ⟨p, hp, hgt⟩
      omega
    · simp only [List.length_nil]; omega

end Sys2Proof.Machine
end

