-- ==== Sys2Proof/Laws/Exec.lean ====
section
/-! SUPPORT. Everything the execution of a command can do, said once: fault entry, or the effect of its kind. -/

namespace Sys2Proof.Machine

open Sys2Proof

/-- The effect of a command that did not fault: construction; one scalar register, and for `PRMK` the property store; one
polynomial register; or `OBUF`, the property store, both, or nothing. -/
def Effect (i : Instr) (s t : State) : Prop :=
  (i = .config ∧ ∃ ri, t = { s with ready := true, inst := ri }) ∨
  (∃ d v pr, scalarDest i = some d ∧ t = { setX s d v with prop := pr } ∧ (writesProps i = false → pr = s.prop)) ∨
  (∃ d m, polyDest i = some d ∧ t = setPoly s d m) ∨
  (scalarDest i = none ∧ ∃ ob pr, t = { s with obuf := ob, prop := pr } ∧ (writesObuf i = false → ob = s.obuf) ∧
    (writesProps i = false → pr = s.prop))

theorem effect_setX {i : Instr} {s : State} {d : XReg} {v : Word} (h : scalarDest i = some d) :
    Effect i s (setX s d v) := .inr (.inl ⟨d, v, s.prop, h, rfl, fun _ => rfl⟩)

theorem effect_setPoly {i : Instr} {s : State} {d : PReg} {m : Memory Elem} (h : polyDest i = some d) :
    Effect i s (setPoly s d m) := .inr (.inr (.inl ⟨d, m, h, rfl⟩))

theorem effect_obuf {i : Instr} {s : State} {ob : Grid} (h : scalarDest i = none) (hw : writesObuf i = true) :
    Effect i s { s with obuf := ob } :=
  .inr (.inr (.inr ⟨h, ob, s.prop, rfl, fun hf => by simp [hw] at hf, fun _ => rfl⟩))

theorem effect_props {i : Instr} {s : State} {pr : Memory PropList} (h : scalarDest i = none)
    (hw : writesProps i = true) : Effect i s { s with prop := pr } :=
  .inr (.inr (.inr ⟨h, s.obuf, pr, rfl, fun _ => rfl, fun hf => by simp [hw] at hf⟩))

theorem effect_none {i : Instr} {s : State} (h : scalarDest i = none) : Effect i s s :=
  .inr (.inr (.inr ⟨h, s.obuf, s.prop, rfl, fun _ => rfl, fun _ => rfl⟩))

/-- What the parts of a construction that passed leave. -/
theorem construct_ok {s t : State} {ws k m p : Nat} (h : construct s ws k m p = .ok t) :
    (ws = 1 ∨ ws = 2) ∧ k ≠ 0 ∧ m ≠ 0 ∧ p ≠ 0 ∧ p ≤ s.par.pmax ∧ k + m ≤ fieldCard ws - 1 ∧
    codeLen (k + m) ≤ s.par.nmax ∧
    fpow (fieldCard ws) (s.par.groot ws) ((fieldCard ws - 1) / 2) = fieldCard ws - 1 ∧
    t = { s with ready := true, inst := instanceOf ws k m p (s.par.groot ws) } := by
  simp only [construct, constructField] at h
  split at h; · cases h
  split at h; · cases h
  split at h; · cases h
  split at h; · cases h
  split at h; · cases h
  split at h; · cases h
  split at h; · cases h
  cases h
  refine ⟨?_, ?_, ?_, ?_, ?_, ?_, ?_, ?_, rfl⟩ <;> omega

theorem encodeLanes_ok {s t : State} {lanes : List Nat} (h : encodeLanes s lanes = .ok t) :
    propsOverflow s (codeColumns s lanes) = false ∧ t = encodeColumns s (codeColumns s lanes) := by
  simp only [encodeLanes] at h
  split at h
  · cases h
  · next hp => cases h; exact ⟨by simpa using hp, rfl⟩

theorem decodeLanes_ok {s t : State} {lanes : List Nat} (h : decodeLanes s lanes = .ok t) :
    (∀ f ∈ fragIds s, f < s.n) ∧ (fragIds s).Nodup ∧
    t = { s with obuf := Grid.writeColumns s.obuf (lanes.map fun l => (l, recovered s l (fragIds s))) } := by
  simp only [decodeLanes] at h
  split at h
  · cases h
  · next h1 =>
    split at h
    · cases h
    · next h2 => cases h; exact ⟨by simpa using h1, by simpa using h2, rfl⟩

/-- A command's outcome is one of: its effect, fault entry. -/
theorem command_effect {i : Instr} {s t : State} {r : Except Err State} (h : command i s r = .next t)
    (hr : ∀ u, r = .ok u → Effect i s u) : (∃ e, t = takeFault (encode i) e s) ∨ Effect i s t := by
  rcases command_next h with h | ⟨e, -, h⟩
  · exact .inr (hr t h)
  · exact .inl ⟨e, h⟩

theorem whenReady_effect {i : Instr} {s : State} {r : Except Err State} (hr : ∀ u, r = .ok u → Effect i s u) :
    ∀ u, whenReady s r = .ok u → Effect i s u := fun u h => hr u (whenReady_ok h).2

theorem whenPosition_effect {i : Instr} {s : State} {pos : Nat} {r : Except Err State}
    (hr : ∀ u, r = .ok u → Effect i s u) : ∀ u, whenPosition s pos r = .ok u → Effect i s u :=
  fun u h => hr u (whenPosition_ok h).2

theorem ok_effect {i : Instr} {s v : State} (h : Effect i s v) : ∀ u, (Except.ok v : Except Err State) = .ok u → Effect i s u :=
  fun u hu => by cases hu; exact h

theorem ite_effect {i : Instr} {s : State} {c : Prop} [Decidable c] {e : Err} {r : Except Err State}
    (hr : ∀ u, r = .ok u → Effect i s u) : ∀ u, (if c then .error e else r) = .ok u → Effect i s u := by
  intro u h
  split at h
  · cases h
  · exact hr u h

theorem encodeLanes_effect {i : Instr} {s : State} {lanes : List Nat} (h : scalarDest i = none)
    (ho : writesObuf i = true) (hp : writesProps i = true) :
    ∀ u, encodeLanes s lanes = .ok u → Effect i s u := by
  intro u hu
  rw [(encodeLanes_ok hu).2]
  exact .inr (.inr (.inr ⟨h, _, _, rfl, fun hf => by simp [ho] at hf, fun hf => by simp [hp] at hf⟩))

theorem decodeLanes_effect {i : Instr} {s : State} {lanes : List Nat} (h : scalarDest i = none)
    (ho : writesObuf i = true) : ∀ u, decodeLanes s lanes = .ok u → Effect i s u := by
  intro u hu
  rw [(decodeLanes_ok hu).2.2]
  exact effect_obuf h ho

theorem prmk_effect {d a b c : XReg} {s : State} {m : Bool} {l : PropList} :
    ∀ u, (if m = true then .ok (setXNat (setProps s (intOp s a) l) d 1) else .ok (setXNat s d 0) : Except Err State) = .ok u →
      Effect (.prmk d a b c) s u := by
  intro u h
  cases m with
  | false =>
    rw [if_neg Bool.false_ne_true] at h
    rw [← Except.ok.inj h]
    exact effect_setX rfl
  | true =>
    rw [if_pos rfl] at h
    rw [← Except.ok.inj h]
    exact .inr (.inl ⟨d, BitVec.ofNat 32 1, Memory.write emptyProps s.prop (intOp s a) l, rfl,
      by simp only [setXNat, setX, setProps], fun hf => Bool.noConfusion (show true = false from hf)⟩)

/-- Every command answers fault entry or its effect. -/
theorem exec_effect {i : Instr} {s t : State} (h : exec i s = .next t) :
    (∃ e, t = takeFault (encode i) e s) ∨ Effect i s t := by
  cases i with
  | li d imm => cases h; exact .inr (effect_setX rfl)
  | fadd d a b => exact command_effect h (whenReady_effect (ok_effect (effect_setX rfl)))
  | fsub d a b => exact command_effect h (whenReady_effect (ok_effect (effect_setX rfl)))
  | fmul d a b => exact command_effect h (whenReady_effect (ok_effect (effect_setX rfl)))
  | fdiv d a b => exact command_effect h (whenReady_effect (ite_effect (ok_effect (effect_setX rfl))))
  | finv d a => exact command_effect h (whenReady_effect (ite_effect (ok_effect (effect_setX rfl))))
  | fexp d a b => exact command_effect h (whenReady_effect (ok_effect (effect_setX rfl)))
  | fneg d a => exact command_effect h (whenReady_effect (ok_effect (effect_setX rfl)))
  | fcard d => exact command_effect h (whenReady_effect (ok_effect (effect_setX rfl)))
  | fproot d => exact command_effect h (whenReady_effect (ok_effect (effect_setX rfl)))
  | fnroot d a => exact command_effect h (whenReady_effect (ite_effect (ok_effect (effect_setX rfl))))
  | fclhc d a => exact command_effect h (whenReady_effect (ite_effect (ok_effect (effect_setX rfl))))
  | fjac d a => exact command_effect h (whenReady_effect (ok_effect (effect_setX rfl)))
  | pset d a b => exact command_effect h (whenReady_effect (ite_effect (ok_effect (effect_setPoly rfl))))
  | pget d a b => exact command_effect h (whenReady_effect (ok_effect (effect_setX rfl)))
  | pmul d a => exact command_effect h (whenReady_effect (ite_effect (ok_effect (effect_setPoly rfl))))
  | pder d => exact command_effect h (whenReady_effect (ok_effect (effect_setPoly rfl)))
  | pneg d => exact command_effect h (whenReady_effect (ok_effect (effect_setPoly rfl)))
  | peval d a b => exact command_effect h (whenReady_effect (ok_effect (effect_setX rfl)))
  | pcopy d a => exact command_effect h (whenReady_effect (ok_effect (effect_setPoly rfl)))
  | pclr d => exact command_effect h (whenReady_effect (ok_effect (effect_setPoly rfl)))
  | fft => exact command_effect h (whenReady_effect (ok_effect (effect_obuf rfl rfl)))
  | ifft => exact command_effect h (whenReady_effect (ok_effect (effect_obuf rfl rfl)))
  | fftp => exact command_effect h (whenReady_effect (ok_effect (effect_obuf rfl rfl)))
  | ifftp => exact command_effect h (whenReady_effect (ok_effect (effect_obuf rfl rfl)))
  | config =>
    exact command_effect h fun u hu => .inl ⟨rfl, _, (construct_ok hu).2.2.2.2.2.2.2.2⟩
  | nout d => exact command_effect h (whenReady_effect (ok_effect (effect_setX rfl)))
  | enc => exact command_effect h (whenReady_effect (encodeLanes_effect rfl rfl rfl))
  | encp => exact command_effect h (whenReady_effect (encodeLanes_effect rfl rfl rfl))
  | dec => exact command_effect h (whenReady_effect (decodeLanes_effect rfl rfl))
  | decp => exact command_effect h (whenReady_effect (decodeLanes_effect rfl rfl))
  | daddd => exact command_effect h (whenReady_effect fun u hu => by cases hu)
  | daddp => exact command_effect h (whenReady_effect (ok_effect (effect_none rfl)))
  | dbuild => exact command_effect h (whenReady_effect (ok_effect (effect_none rfl)))
  | pradd d a b c => exact command_effect h (whenPosition_effect (ite_effect (ok_effect (effect_props rfl rfl))))
  | prmk d a b c => exact command_effect h (whenPosition_effect prmk_effect)
  | prnext a => exact command_effect h (whenPosition_effect (ok_effect (effect_props rfl rfl)))
  | prrew a => exact command_effect h (whenPosition_effect (ok_effect (effect_props rfl rfl)))
  | prclr a => exact command_effect h (whenPosition_effect (ok_effect (effect_props rfl rfl)))
  | prclra => cases h; exact .inr (effect_props rfl rfl)
  | prlen d a => exact command_effect h (whenPosition_effect (ok_effect (effect_setX rfl)))

end Sys2Proof.Machine
end

