-- ==== Sys2Proof/Laws/Poly.lean ====
section
/-! SUPPORT. The polynomial operations on sparse cells read off coefficient by coefficient, and that every result is a
legal polynomial register (41_poly.md R150 to R158). A list of terms (degree, reduced coefficient) is itself a sparse
memory of numbers, whose value at a degree is the coefficient. -/

namespace Sys2Proof.Machine

open Sys2Proof

/-! ### Maps over the entries of a sparse memory -/

section
variable {α β : Type}

/-- Reading after a map that keeps the indices and may drop entries. -/
theorem read_filterMap (d : α) (d' : β) (f : Nat → α → Option β) (hd : ∀ j, (f j d).getD d' = d') {m : Memory α}
    (hm : (m.map Prod.fst).Pairwise (· < ·)) (j : Nat) :
    Memory.read d' (m.filterMap fun e => (f e.1 e.2).map fun v => (e.1, v)) j = (f j (Memory.read d m j)).getD d' := by
  induction m with
  | nil => simp [hd]
  | cons e m ih =>
    obtain ⟨i, a⟩ := e
    simp only [List.map_cons, List.pairwise_cons] at hm
    have ih := ih hm.2
    rw [Memory.read_cons]
    cases hfa : f i a with
    | none =>
      rw [List.filterMap_cons_none (by simp [hfa]), ih]
      split
      · next hj =>
        subst hj
        have : Memory.read d m j = d := Memory.read_of_not_listed d m j fun e he hej =>
          absurd (hm.1 e.1 (List.mem_map_of_mem he)) (by omega)
        rw [this, hd, hfa, Option.getD_none]
      · rfl
    | some v =>
      rw [List.filterMap_cons_some (b := (i, v)) (by simp [hfa]), Memory.read_cons, ih]
      split
      · next hj => rw [hj, hfa, Option.getD_some]
      · rfl

/-- The indices stay strictly rising under such a map. -/
theorem rising_filterMap (f : Nat → α → Option β) {m : Memory α} (hm : (m.map Prod.fst).Pairwise (· < ·)) :
    ((m.filterMap fun e => (f e.1 e.2).map fun v => (e.1, v)).map Prod.fst).Pairwise (· < ·) := by
  rw [List.pairwise_map] at hm ⊢
  refine List.Pairwise.filterMap _ ?_ hm
  intro a b hab x hx y hy
  obtain ⟨v, -, rfl⟩ := Option.map_eq_some_iff.1 hx
  obtain ⟨w, -, rfl⟩ := Option.map_eq_some_iff.1 hy
  exact hab

end

/-! ### The terms of a register -/

theorem termsOf_eq (q cap : Nat) (m : Memory Elem) :
    termsOf q cap m = m.filterMap fun e =>
      ((fun j (c : Elem) => if j < cap ∧ c.toNat % q ≠ 0 then some (c.toNat % q) else none) e.1 e.2).map
        fun v => (e.1, v) := by
  unfold termsOf
  congr 1
  funext e
  dsimp only
  split <;> rfl

/-- The coefficient of a degree, read from the terms. -/
theorem read_termsOf (q cap : Nat) {m : Memory Elem} (hm : Memory.wf 0 m) (j : Nat) :
    Memory.read 0 (termsOf q cap m) j = if j < cap then (Memory.read 0 m j).toNat % q else 0 := by
  rw [termsOf_eq, read_filterMap (0 : Elem) 0 (fun j (c : Elem) => if j < cap ∧ c.toNat % q ≠ 0 then some (c.toNat % q) else none) (by simp) hm.1]
  split
  · next h => simp [h.1]
  · next h =>
    rw [Option.getD_none]
    split
    · next hj =>
      by_contra hc
      exact h ⟨hj, fun h0 => hc h0.symm⟩
    · rfl

theorem rising_termsOf (q cap : Nat) {m : Memory Elem} (hm : Memory.wf 0 m) :
    ((termsOf q cap m).map Prod.fst).Pairwise (· < ·) := by
  rw [termsOf_eq]
  exact rising_filterMap (fun j (c : Elem) => if j < cap ∧ c.toNat % q ≠ 0 then some (c.toNat % q) else none) hm.1

/-- A term has a degree inside the register and a nonzero coefficient below q. -/
theorem mem_termsOf {q cap : Nat} (hq : 0 < q) {m : Memory Elem} {t : Nat × Nat} (h : t ∈ termsOf q cap m) :
    t.1 < cap ∧ t.2 ≠ 0 ∧ t.2 < q := by
  obtain ⟨e, -, he⟩ := List.mem_filterMap.1 h
  split at he
  · next hc => cases he; exact ⟨hc.1, hc.2, Nat.mod_lt _ hq⟩
  · cases he

section
variable {s : State} {i : PReg} (h : polyLegal s.par (getPoly s i))
include h

theorem read_terms (j : Nat) : Memory.read 0 (terms s i) j = coef s i j := read_termsOf _ _ h.1 j

theorem wf_terms (hq : 0 < s.q) : Memory.wf 0 (terms s i) :=
  ⟨rising_termsOf _ _ h.1, fun _ ht => (mem_termsOf hq ht).2.1⟩

end

theorem mem_terms_lt {s : State} (hq : 0 < s.q) {i : PReg} {t : Nat × Nat} (h : t ∈ terms s i) : t.1 < s.par.pcap :=
  (mem_termsOf hq h).1

theorem coef_lt {s : State} (hq : 0 < s.q) (i : PReg) (j : Nat) : coef s i j < s.q := by
  unfold coef
  split
  · exact Nat.mod_lt _ hq
  · exact hq

theorem coef_beyond {s : State} {i : PReg} {j : Nat} (h : s.par.pcap ≤ j) : coef s i j = 0 := if_neg (by omega)

/-! ### The degree (00_scope.md R9) -/

/-- In a canonical memory the last entry has the greatest index. -/
theorem le_getLast {d : Nat} {m : Memory Nat} (hm : Memory.wf d m) {n v : Nat} (hl : m.getLast? = some (n, v)) :
    ∀ e ∈ m, e.1 ≤ n := by
  induction m with
  | nil => simp
  | cons e m ih =>
    obtain ⟨⟨hlt, -⟩, hm'⟩ := (Memory.wf_cons d e.1 e.2 m).1 hm
    cases m with
    | nil =>
      intro x hx
      have : e = (n, v) := by simpa using hl
      simp_all
    | cons b m =>
      rw [List.getLast?_cons_cons] at hl
      have ih := ih hm' hl
      intro x hx
      rcases List.mem_cons.1 hx with rfl | hx
      · exact (hlt b (by simp)).le.trans (ih b (by simp))
      · exact ih x hx

/-- `deg` is the greatest degree with a nonzero coefficient. -/
theorem deg_eq_some {s : State} {i : PReg} (h : polyLegal s.par (getPoly s i)) (hq : 0 < s.q) (n : Nat) :
    deg s i = some n ↔ IsDeg s i n := by
  have hw := wf_terms h hq
  have hread := read_terms (s := s) (i := i) h
  constructor
  · intro hd
    obtain ⟨⟨n', v⟩, hl, rfl⟩ := Option.map_eq_some_iff.1 hd
    have hle := le_getLast hw hl
    have hmem := List.mem_of_getLast? hl
    refine ⟨?_, fun j hj => ?_⟩
    · rw [← hread, Memory.read_of_mem hw hmem]
      exact hw.2 _ hmem
    · rw [← hread]
      exact Memory.read_of_not_listed _ _ _ fun e he hej => absurd (hle e he) (by omega)
  · rintro ⟨h0, hz⟩
    rw [← hread] at h0
    have hmem : (n, Memory.read 0 (terms s i) n) ∈ terms s i := (Memory.read_mem 0 (terms s i) n).resolve_left h0
    cases hl : (terms s i).getLast? with
    | none => rw [List.getLast?_eq_none_iff.1 hl] at hmem; simp at hmem
    | some e =>
      obtain ⟨m, v⟩ := e
      have hle := le_getLast hw hl _ hmem
      have hm : ¬ n < m := fun hlt => by
        have := hz m hlt
        rw [← hread, Memory.read_of_mem hw (List.mem_of_getLast? hl)] at this
        exact hw.2 _ (List.mem_of_getLast? hl) this
      have : m = n := by simp only at hle; omega
      rw [deg, hl, this]
      rfl

/-- The product does not fit exactly when both factors have a degree and their sum is beyond the register. -/
theorem productTooLarge_iff (cap : Nat) (da db : Option Nat) :
    productTooLarge cap da db = true ↔ ∃ m n, da = some m ∧ db = some n ∧ m + n ≥ cap := by
  cases da <;> cases db <;> simp [productTooLarge]

theorem le_deg {s : State} {i : PReg} (h : polyLegal s.par (getPoly s i)) (hq : 0 < s.q) {t : Nat × Nat}
    (ht : t ∈ terms s i) : ∃ n, deg s i = some n ∧ t.1 ≤ n := by
  cases hl : (terms s i).getLast? with
  | none => rw [List.getLast?_eq_none_iff.1 hl] at ht; simp at ht
  | some e => exact ⟨e.1, by rw [deg, hl]; rfl, le_getLast (wf_terms h hq) hl t ht⟩

/-! ### Cells from terms -/

theorem cellsOf_eq (ts : Memory Nat) :
    cellsOf ts = ts.filterMap fun e =>
      ((fun (_ : Nat) v => if BitVec.ofNat 17 v = 0 then none else some (BitVec.ofNat 17 v)) e.1 e.2).map
        fun v => (e.1, v) := by
  unfold cellsOf
  congr 1
  funext e
  dsimp only
  split <;> rfl

theorem read_cellsOf {ts : Memory Nat} (h : (ts.map Prod.fst).Pairwise (· < ·)) (j : Nat) :
    Memory.read 0 (cellsOf ts) j = BitVec.ofNat 17 (Memory.read 0 ts j) := by
  rw [cellsOf_eq, read_filterMap 0 (0 : Elem) (fun (_ : Nat) v => if BitVec.ofNat 17 v = 0 then none else some (BitVec.ofNat 17 v))
    (by simp) h]
  split
  · next hz => simp [hz]
  · rfl

/-- Cells from terms with rising degrees inside the register are a legal register. -/
theorem polyLegal_cellsOf {par : Params} {ts : Memory Nat} (h : (ts.map Prod.fst).Pairwise (· < ·))
    (hb : ∀ t ∈ ts, t.1 < par.pcap) : polyLegal par (cellsOf ts) := by
  refine ⟨⟨?_, fun e he => ?_⟩, fun e he => ?_⟩
  · rw [cellsOf_eq]
    exact rising_filterMap (fun (_ : Nat) v => if BitVec.ofNat 17 v = 0 then none else some (BitVec.ofNat 17 v)) h
  · obtain ⟨t, -, ht⟩ := List.mem_filterMap.1 he
    split at ht
    · cases ht
    · next hz => cases ht; exact hz
  · obtain ⟨t, hm, ht⟩ := List.mem_filterMap.1 he
    split at ht
    · cases ht
    · cases ht; exact hb t hm

/-! ### Derivative and negation -/

theorem read_derivTerms (q : Nat) (ts : Memory Nat) (j : Nat) :
    Memory.read 0 (derivTerms q ts) j = fmul q ((j + 1) % q) (Memory.read 0 ts (j + 1)) := by
  induction ts with
  | nil => simp [derivTerms, fmul]
  | cons t ts ih =>
    obtain ⟨k, c⟩ := t
    rw [Memory.read_cons]
    cases k with
    | zero =>
      rw [if_neg (by omega), ← ih]
      rfl
    | succ k =>
      have : derivTerms q ((k + 1, c) :: ts) = (k, fmul q ((k + 1) % q) c) :: derivTerms q ts := rfl
      rw [this, Memory.read_cons, ih]
      by_cases hj : j = k
      · subst hj; simp
      · rw [if_neg hj, if_neg (by omega)]

theorem mem_derivTerms {q : Nat} {ts : Memory Nat} {t : Nat × Nat} (h : t ∈ derivTerms q ts) :
    ∃ u ∈ ts, u.1 = t.1 + 1 := by
  obtain ⟨u, hu, hut⟩ := List.mem_filterMap.1 h
  split at hut
  · cases hut
  · cases hut; exact ⟨u, hu, by simp only; omega⟩

theorem rising_derivTerms (q : Nat) {ts : Memory Nat} (h : (ts.map Prod.fst).Pairwise (· < ·)) :
    ((derivTerms q ts).map Prod.fst).Pairwise (· < ·) := by
  rw [List.pairwise_map] at h ⊢
  refine List.Pairwise.filterMap _ ?_ h
  intro a b hab x hx y hy
  split at hx <;> [cases hx; skip]
  split at hy <;> [cases hy; skip]
  cases hx
  cases hy
  simp only
  omega

theorem read_map_snd (f : Nat → Nat) (hf : f 0 = 0) (ts : Memory Nat) (j : Nat) :
    Memory.read 0 (ts.map fun t => (t.1, f t.2)) j = f (Memory.read 0 ts j) := by
  induction ts with
  | nil => exact hf.symm
  | cons t ts ih =>
    obtain ⟨k, c⟩ := t
    rw [List.map_cons, Memory.read_cons, Memory.read_cons, ih]
    split <;> rfl

/-! ### Sums over terms -/

/-- A sum over the entries of a canonical memory is the sum over all indices. -/
theorem sum_terms (F : Nat → Nat → Nat) (hF : ∀ j, F j 0 = 0) {ts : Memory Nat} (hw : Memory.wf 0 ts) {cap : Nat}
    (hb : ∀ t ∈ ts, t.1 < cap) :
    (ts.map fun t => F t.1 t.2).sum = ∑ j ∈ Finset.range cap, F j (Memory.read 0 ts j) := by
  induction ts with
  | nil => simp [hF]
  | cons t ts ih =>
    obtain ⟨k, c⟩ := t
    obtain ⟨⟨hlt, -⟩, hw'⟩ := (Memory.wf_cons 0 k c ts).1 hw
    have hk : k < cap := hb (k, c) (by simp)
    have hread : Memory.read 0 ts k = 0 := Memory.read_of_not_listed _ _ _ fun e he hek => absurd (hlt e he) (by omega)
    rw [List.map_cons, List.sum_cons, ih hw' fun t ht => hb t (by simp [ht]),
      ← Finset.add_sum_erase _ _ (Finset.mem_range.2 hk),
      ← Finset.add_sum_erase _ (fun j => F j (Memory.read 0 ((k, c) :: ts) j)) (Finset.mem_range.2 hk), hread, hF,
      zero_add]
    congr 1
    · simp [Memory.read_cons]
    · refine Finset.sum_congr rfl fun j hj => ?_
      rw [Memory.read_cons, if_neg (Finset.ne_of_mem_erase hj)]

/-- The value of a register at a point (R156). -/
theorem evalTerms_terms {s : State} {i : PReg} (h : polyLegal s.par (getPoly s i)) (hq : 0 < s.q) (v : Nat) :
    evalTerms s.q (terms s i) v = (∑ j ∈ Finset.range s.par.pcap, coef s i j * v ^ j) % s.q := by
  have h1 := evalTerms_eq_sum s.q (terms s i) v
  rw [Nat.mod_eq_of_lt (evalTerms_lt hq _ _)] at h1
  rw [h1, sum_terms (fun j c => c * v ^ j) (by simp) (wf_terms h hq) fun t ht => mem_terms_lt hq ht]
  congr 1
  exact Finset.sum_congr rfl fun j _ => by rw [read_terms h]

/-! ### The product (R153) -/

/-- Every cell is below q. -/
def reduced (q : Nat) (m : Memory Elem) : Prop := ∀ j, (Memory.read 0 m j).toNat < q

section
variable {q : Nat} (hq : 0 < q) (hq' : q ≤ 2 ^ 17)
include hq hq'

theorem read_addTerm {m : Memory Elem} (hw : Memory.wf 0 m) (hr : reduced q m) (k v j : Nat) :
    (Memory.read 0 (addTerm q m k v) j).toNat = ((Memory.read 0 m j).toNat + if k = j then v else 0) % q := by
  have hlt := Nat.mod_lt ((Memory.read 0 m k).toNat + v) hq
  rw [addTerm, Memory.read_write hw]
  by_cases hj : k = j
  · subst hj
    rw [if_pos rfl, if_pos rfl, BitVec.toNat_ofNat, Nat.mod_eq_of_lt (by omega)]
  · rw [if_neg (Ne.symm hj), if_neg hj, add_zero, Nat.mod_eq_of_lt (hr j)]

theorem reduced_addTerm {m : Memory Elem} (hw : Memory.wf 0 m) (hr : reduced q m) (k v : Nat) :
    reduced q (addTerm q m k v) := fun j => by
  rw [read_addTerm hq hq' hw hr]; exact Nat.mod_lt _ hq

theorem addScaled_spec {m : Memory Elem} (hw : Memory.wf 0 m) (hr : reduced q m) (t : Nat × Nat)
    (us : List (Nat × Nat)) :
    Memory.wf 0 (addScaled q m t us) ∧ reduced q (addScaled q m t us) ∧
    (∀ e ∈ addScaled q m t us, e ∈ m ∨ ∃ u ∈ us, e.1 = t.1 + u.1) ∧
    ∀ j, (Memory.read 0 (addScaled q m t us) j).toNat =
      ((Memory.read 0 m j).toNat + (us.map fun u => if t.1 + u.1 = j then t.2 * u.2 else 0).sum) % q := by
  induction us generalizing m with
  | nil => exact ⟨hw, hr, fun e he => .inl he, fun j => by
      show _ = ((Memory.read 0 m j).toNat + 0) % q
      rw [add_zero, Nat.mod_eq_of_lt (hr j)]; rfl⟩
  | cons u us ih =>
    have hw' : Memory.wf 0 (addTerm q m (t.1 + u.1) (t.2 * u.2)) := Memory.wf_write hw _ _
    obtain ⟨h1, h2, h3, h4⟩ := ih hw' (reduced_addTerm hq hq' hw hr _ _)
    have step : addScaled q m t (u :: us) = addScaled q (addTerm q m (t.1 + u.1) (t.2 * u.2)) t us := rfl
    rw [step]
    refine ⟨h1, h2, fun e he => ?_, fun j => ?_⟩
    · rcases h3 e he with he | ⟨u', hu', he⟩
      · rcases Memory.mem_write he with ⟨rfl, -⟩ | he
        · exact .inr ⟨u, by simp, rfl⟩
        · exact .inl he
      · exact .inr ⟨u', by simp [hu'], he⟩
    · rw [h4, read_addTerm hq hq' hw hr, List.map_cons, List.sum_cons, Nat.mod_add_mod]
      congr 1
      ring

theorem productCells_spec (ts us : List (Nat × Nat)) :
    Memory.wf 0 (productCells q ts us) ∧ reduced q (productCells q ts us) ∧
    (∀ e ∈ productCells q ts us, ∃ t ∈ ts, ∃ u ∈ us, e.1 = t.1 + u.1) ∧
    ∀ j, (Memory.read 0 (productCells q ts us) j).toNat =
      (ts.map fun t => (us.map fun u => if t.1 + u.1 = j then t.2 * u.2 else 0).sum).sum % q := by
  have main : ∀ (ts : List (Nat × Nat)) (m : Memory Elem), Memory.wf 0 m → reduced q m →
      Memory.wf 0 (ts.foldl (fun acc t => addScaled q acc t us) m) ∧
      reduced q (ts.foldl (fun acc t => addScaled q acc t us) m) ∧
      (∀ e ∈ ts.foldl (fun acc t => addScaled q acc t us) m, e ∈ m ∨ ∃ t ∈ ts, ∃ u ∈ us, e.1 = t.1 + u.1) ∧
      ∀ j, (Memory.read 0 (ts.foldl (fun acc t => addScaled q acc t us) m) j).toNat =
        ((Memory.read 0 m j).toNat +
          (ts.map fun t => (us.map fun u => if t.1 + u.1 = j then t.2 * u.2 else 0).sum).sum) % q := by
    intro ts
    induction ts with
    | nil => exact fun m hw hr => ⟨hw, hr, fun e he => .inl he, fun j => by
        show _ = ((Memory.read 0 m j).toNat + 0) % q
        rw [add_zero, Nat.mod_eq_of_lt (hr j)]; rfl⟩
    | cons t ts ih =>
      intro m hw hr
      obtain ⟨a1, a2, a3, a4⟩ := addScaled_spec hq hq' hw hr t us
      obtain ⟨b1, b2, b3, b4⟩ := ih (addScaled q m t us) a1 a2
      rw [List.foldl_cons]
      refine ⟨b1, b2, fun e he => ?_, fun j => ?_⟩
      · rcases b3 e he with he | ⟨t', ht', h⟩
        · rcases a3 e he with he | ⟨u, hu, he⟩
          · exact .inl he
          · exact .inr ⟨t, by simp, u, hu, he⟩
        · exact .inr ⟨t', by simp [ht'], h⟩
      · rw [b4, a4, List.map_cons, List.sum_cons, Nat.mod_add_mod, add_assoc]
  obtain ⟨h1, h2, h3, h4⟩ := main ts [] (Memory.wf_nil 0) fun j => hq
  exact ⟨h1, h2, fun e he => (h3 e he).resolve_left (by simp), fun j => by rw [productCells, h4]; simp⟩

end

/-- A double sum over all pairs of degrees, cut down to the pairs that meet at degree j. -/
theorem convolution_sum (cap j : Nat) (A B : Nat → Nat) (hA : ∀ i, cap ≤ i → A i = 0) (hB : ∀ i, cap ≤ i → B i = 0) :
    ∑ a ∈ Finset.range cap, ∑ b ∈ Finset.range cap, (if a + b = j then A a * B b else 0) =
      ∑ i ∈ Finset.range (j + 1), A i * B (j - i) := by
  have inner : ∀ a, ∑ b ∈ Finset.range cap, (if a + b = j then A a * B b else 0) =
      if a ≤ j then A a * B (j - a) else 0 := by
    intro a
    split
    · next h =>
      by_cases hb : j - a < cap
      · rw [Finset.sum_eq_single (j - a)]
        · rw [if_pos (by omega)]
        · intro b _ hne; rw [if_neg (by omega)]
        · intro hn; exact absurd (Finset.mem_range.2 hb) hn
      · rw [hB _ (by omega), mul_zero]
        refine Finset.sum_eq_zero fun b hmem => ?_
        have := Finset.mem_range.1 hmem
        rw [if_neg (by omega)]
    · next h => exact Finset.sum_eq_zero fun b _ => by rw [if_neg (by omega)]
  rw [Finset.sum_congr rfl fun a _ => inner a]
  have big : ∀ n, cap ≤ n → j + 1 ≤ n →
      ∑ a ∈ Finset.range n, (if a ≤ j then A a * B (j - a) else 0) = ∑ i ∈ Finset.range (j + 1), A i * B (j - i) := by
    intro n _ h2
    rw [← Finset.sum_subset (s₁ := Finset.range (j + 1)) (fun a ha => Finset.mem_range.2 (by have := Finset.mem_range.1 ha; omega))
      fun a _ ha => by rw [if_neg (by have := Finset.mem_range.not.1 ha; omega)]]
    exact Finset.sum_congr rfl fun a ha => by rw [if_pos (by have := Finset.mem_range.1 ha; omega)]
  rw [← big (max cap (j + 1)) (le_max_left _ _) (le_max_right _ _)]
  refine Finset.sum_subset (fun a ha => Finset.mem_range.2 (by have := Finset.mem_range.1 ha; omega)) fun a _ ha => ?_
  rw [hA a (by have := Finset.mem_range.not.1 ha; omega), zero_mul, ite_self]

/-- R153: the coefficients of the product of two registers. -/
theorem read_product {s : State} {a b : PReg} (ha : polyLegal s.par (getPoly s a)) (hb : polyLegal s.par (getPoly s b))
    (hq : 0 < s.q) (hq' : s.q ≤ 2 ^ 17) (j : Nat) :
    (Memory.read 0 (productCells s.q (terms s a) (terms s b)) j).toNat =
      (∑ i ∈ Finset.range (j + 1), coef s a i * coef s b (j - i)) % s.q := by
  rw [(productCells_spec hq hq' _ _).2.2.2 j]
  congr 1
  have h1 : ∀ t ∈ terms s a, ((terms s b).map fun u => if t.1 + u.1 = j then t.2 * u.2 else 0).sum =
      ∑ k ∈ Finset.range s.par.pcap, (if t.1 + k = j then t.2 * coef s b k else 0) := fun t _ => by
    rw [sum_terms (fun k c => if t.1 + k = j then t.2 * c else 0) (by simp) (wf_terms hb hq) fun u hu => mem_terms_lt hq hu]
    exact Finset.sum_congr rfl fun k _ => by rw [read_terms hb]
  rw [List.map_congr_left h1,
    sum_terms (fun i c => ∑ k ∈ Finset.range s.par.pcap, (if i + k = j then c * coef s b k else 0)) (by simp)
      (wf_terms ha hq) fun t ht => mem_terms_lt hq ht]
  simp only [read_terms ha]
  exact convolution_sum _ _ _ _ (fun i hi => coef_beyond hi) fun i hi => coef_beyond hi

/-- The product register is legal when its degree fits. -/
theorem polyLegal_product {s : State} {a b : PReg} (ha : polyLegal s.par (getPoly s a))
    (hb : polyLegal s.par (getPoly s b)) (hq : 0 < s.q) (hq' : s.q ≤ 2 ^ 17)
    (hfit : productTooLarge s.par.pcap (deg s a) (deg s b) = false) :
    polyLegal s.par (productCells s.q (terms s a) (terms s b)) := by
  obtain ⟨h1, -, h3, -⟩ := productCells_spec hq hq' (terms s a) (terms s b)
  refine ⟨h1, fun e he => ?_⟩
  obtain ⟨t, ht, u, hu, heq⟩ := h3 e he
  obtain ⟨m, hm, htm⟩ := le_deg ha hq ht
  obtain ⟨n, hn, hun⟩ := le_deg hb hq hu
  have := mt (productTooLarge_iff s.par.pcap (deg s a) (deg s b)).2 (by simp [hfit])
  by_contra hc
  exact this ⟨m, n, hm, hn, by omega⟩

end Sys2Proof.Machine
end

