-- ==== Sys2Proof/Laws/Window.lean ====
section
/-! SUPPORT. The data window and the property window, one lemma per selection (20_memory.md R70 to R72). -/

namespace Sys2Proof.Machine

open Sys2Proof

theorem bufferInRange_iff (s : State) :
    bufferInRange s = true ↔ s.win.memidx.toNat < s.par.nmax ∧ s.win.memlane.toNat < s.par.pmax := by
  simp [bufferInRange]

/-! ### Writes of `MEMDATA` -/

section
variable {s : State} (v : Word)

theorem writeMemdata_ibuf (h : s.win.memsel.toNat = 0) (hr : bufferInRange s = true) :
    writeMemdata s v =
      { s with ibuf := Grid.write s.ibuf s.win.memidx.toNat s.win.memlane.toNat (v.setWidth 17) } := by
  simp only [writeMemdata, h, hr, if_true]

theorem writeMemdata_obuf (h : s.win.memsel.toNat = 1) (hr : bufferInRange s = true) :
    writeMemdata s v =
      { s with obuf := Grid.write s.obuf s.win.memidx.toNat s.win.memlane.toNat (v.setWidth 17) } := by
  simp only [writeMemdata, h, hr, if_true]

theorem writeMemdata_ids (h : s.win.memsel.toNat = 2) (hr : s.win.memidx.toNat < s.par.nmax) :
    writeMemdata s v = { s with ids := Memory.write 0 s.ids s.win.memidx.toNat (v.setWidth 16) } := by
  simp only [writeMemdata, h, hr, if_true]

theorem selectedPoly_eq {i : PReg} (h : s.win.memsel.toNat = 4 + i.val) : selectedPoly s = i := by
  apply Fin.ext
  simp only [selectedPoly, h, Fin.ofNat]
  omega

theorem writeMemdata_poly {i : PReg} (h : s.win.memsel.toNat = 4 + i.val) (hr : s.win.memidx.toNat < s.par.pcap) :
    writeMemdata s v = setPoly s i (Memory.write 0 (getPoly s i) s.win.memidx.toNat (v.setWidth 17)) := by
  simp only [writeMemdata, selectedPoly_eq h, hr, if_true]
  split <;> first | omega | rfl

end

/-- `MEMSEL`, `MEMIDX`, `MEMLANE` select no cell (R71). -/
def selectsNothing (s : State) : Prop :=
  s.win.memsel.toNat = 3 ∨
  (s.win.memsel.toNat < 2 ∧ (s.par.nmax ≤ s.win.memidx.toNat ∨ s.par.pmax ≤ s.win.memlane.toNat)) ∨
  (s.win.memsel.toNat = 2 ∧ s.par.nmax ≤ s.win.memidx.toNat) ∨
  (4 ≤ s.win.memsel.toNat ∧ s.par.pcap ≤ s.win.memidx.toNat)

theorem writeMemdata_none {s : State} (v : Word) (h : selectsNothing s) : writeMemdata s v = s := by
  have hb := bufferInRange_iff s
  unfold selectsNothing at h
  unfold writeMemdata
  dsimp only
  split
  · rw [if_neg (fun hc => by have := hb.1 hc; omega)]
  · rw [if_neg (fun hc => by have := hb.1 hc; omega)]
  · rw [if_neg (by omega)]
  · rfl
  · next n0 n1 n2 n3 =>
    have : 4 ≤ s.win.memsel.toNat := by
      by_contra hlt
      have : s.win.memsel.toNat = 0 ∨ s.win.memsel.toNat = 1 ∨ s.win.memsel.toNat = 2 ∨ s.win.memsel.toNat = 3 := by
        omega
      tauto
    rw [if_neg (by omega)]

/-! ### Reads of `MEMDATA` -/

section
variable {s : State}

theorem readMemdata_ibuf (h : s.win.memsel.toNat = 0) (hr : bufferInRange s = true) :
    readMemdata s = (Grid.read s.ibuf s.win.memidx.toNat s.win.memlane.toNat).setWidth 32 := by
  simp only [readMemdata, h, hr, if_true]

theorem readMemdata_obuf (h : s.win.memsel.toNat = 1) (hr : bufferInRange s = true) :
    readMemdata s = (Grid.read s.obuf s.win.memidx.toNat s.win.memlane.toNat).setWidth 32 := by
  simp only [readMemdata, h, hr, if_true]

theorem readMemdata_ids (h : s.win.memsel.toNat = 2) (hr : s.win.memidx.toNat < s.par.nmax) :
    readMemdata s = (Memory.read 0 s.ids s.win.memidx.toNat).setWidth 32 := by
  simp only [readMemdata, h, hr, if_true]

theorem readMemdata_poly {i : PReg} (h : s.win.memsel.toNat = 4 + i.val) (hr : s.win.memidx.toNat < s.par.pcap) :
    readMemdata s = (Memory.read 0 (getPoly s i) s.win.memidx.toNat).setWidth 32 := by
  simp only [readMemdata, selectedPoly_eq h, hr, if_true]
  split <;> first | omega | rfl

theorem readMemdata_none (h : selectsNothing s) : readMemdata s = 0 := by
  have hb := bufferInRange_iff s
  unfold selectsNothing at h
  unfold readMemdata
  dsimp only
  split
  · rw [if_neg (fun hc => by have := hb.1 hc; omega)]
  · rw [if_neg (fun hc => by have := hb.1 hc; omega)]
  · rw [if_neg (by omega)]
  · rfl
  · next n0 n1 n2 n3 =>
    have : 4 ≤ s.win.memsel.toNat := by
      by_contra hlt
      have : s.win.memsel.toNat = 0 ∨ s.win.memsel.toNat = 1 ∨ s.win.memsel.toNat = 2 ∨ s.win.memsel.toNat = 3 := by
        omega
      tauto
    rw [if_neg (by omega)]

end

/-- The selection is one of the five memories with its index in range, or nothing. -/
theorem selection_cases (s : State) :
    (s.win.memsel.toNat = 0 ∧ bufferInRange s = true) ∨ (s.win.memsel.toNat = 1 ∧ bufferInRange s = true) ∨
    (s.win.memsel.toNat = 2 ∧ s.win.memidx.toNat < s.par.nmax) ∨
    (∃ i : PReg, s.win.memsel.toNat = 4 + i.val ∧ s.win.memidx.toNat < s.par.pcap) ∨ selectsNothing s := by
  have hb := bufferInRange_iff s
  have hlt := s.win.memsel.isLt
  unfold selectsNothing
  by_cases h4 : 4 ≤ s.win.memsel.toNat
  · by_cases hp : s.win.memidx.toNat < s.par.pcap
    · exact .inr (.inr (.inr (.inl ⟨⟨s.win.memsel.toNat - 4, by omega⟩, by simp only; omega, hp⟩)))
    · omega
  · rw [hb]; omega

/-- A write through the data window changes the selected memory only. -/
theorem writeMemdata_frame (s : State) (v : Word) :
    writeMemdata s v = { s with
      ibuf := (writeMemdata s v).ibuf, obuf := (writeMemdata s v).obuf,
      ids := (writeMemdata s v).ids, poly := (writeMemdata s v).poly } := by
  rcases selection_cases s with ⟨h, hr⟩ | ⟨h, hr⟩ | ⟨h, hr⟩ | ⟨i, h, hr⟩ | h
  · rw [writeMemdata_ibuf v h hr]
  · rw [writeMemdata_obuf v h hr]
  · rw [writeMemdata_ids v h hr]
  · rw [writeMemdata_poly v h hr]; rfl
  · rw [writeMemdata_none v h]

/-! ### The property window -/

theorem selectedProps_lt {s : State} (h : s.win.prsel.toNat < s.par.nmax) :
    selectedProps s = some (getProps s s.win.prsel.toNat) := by simp [selectedProps, h]

theorem selectedProps_ge {s : State} (h : s.par.nmax ≤ s.win.prsel.toNat) : selectedProps s = none := by
  simp [selectedProps, h]

theorem selectedEntry_lt {s : State} (h : s.win.prsel.toNat < s.par.nmax) :
    selectedEntry s = (getProps s s.win.prsel.toNat).entries[s.win.pridx.toNat]? := by
  simp [selectedEntry, selectedProps_lt h]

theorem selectedEntry_ge {s : State} (h : s.par.nmax ≤ s.win.prsel.toNat) : selectedEntry s = none := by
  simp [selectedEntry, selectedProps_ge h]

end Sys2Proof.Machine
end

