-- ==== Sys2Proof/Laws/Invariant.lean ====
section
/-! SUPPORT. The invariant under each update of the state: what a meaning must give so that its result is legal again. -/

namespace Sys2Proof.Machine

open Sys2Proof

/-- No part of the invariant speaks of a scalar register. -/
theorem inv_setX {s : State} (h : Inv s) (d : XReg) (v : Word) : Inv (setX s d v) := h

theorem inv_props {s : State} (h : Inv s) {pr : Memory PropList} (hp : propLegal s.par pr) : Inv { s with prop := pr } :=
  ⟨h.params, h.inst, h.error, h.polys, h.ibuf, h.obuf, h.ids, hp⟩

theorem inv_setProps {s : State} (h : Inv s) {p : Nat} (hp : p < s.par.nmax) {l : PropList}
    (h1 : l.len ≤ s.par.propcap) (h2 : l.cursor ≤ l.len) : Inv (setProps s p l) :=
  inv_props h (propLegal_write h.prop hp h1 h2)

theorem inv_obuf {s : State} (h : Inv s) {ob : Grid} (hp : Grid.legal s.par ob) : Inv { s with obuf := ob } :=
  ⟨h.params, h.inst, h.error, h.polys, h.ibuf, hp, h.ids, h.prop⟩

theorem inv_ibuf {s : State} (h : Inv s) {ib : Grid} (hp : Grid.legal s.par ib) : Inv { s with ibuf := ib } :=
  ⟨h.params, h.inst, h.error, h.polys, hp, h.obuf, h.ids, h.prop⟩

theorem inv_ids {s : State} (h : Inv s) {m : Memory FragId} (hp : idsLegal s.par m) : Inv { s with ids := m } :=
  ⟨h.params, h.inst, h.error, h.polys, h.ibuf, h.obuf, hp, h.prop⟩

theorem inv_setPoly {s : State} (h : Inv s) {d : PReg} {m : Memory Elem} (hp : polyLegal s.par m) :
    Inv (setPoly s d m) := by
  refine ⟨h.params, h.inst, h.error, fun i => ?_, h.ibuf, h.obuf, h.ids, h.prop⟩
  by_cases hi : i = d
  · subst hi; rw [getPoly_setPoly_same]; exact hp
  · rw [getPoly_setPoly_ne _ _ _ _ hi]; exact h.polys i

theorem inv_takeFault {s : State} (h : Inv s) (w : Word) (e : Err) : Inv (takeFault w e s) :=
  ⟨h.params, h.inst, errorLegal_takeFault w e s, h.polys, h.ibuf, h.obuf, h.ids, h.prop⟩

theorem inv_clearFault {s : State} (h : Inv s) : Inv (clearFault s) :=
  ⟨h.params, h.inst, errorLegal_clearFault s, h.polys, h.ibuf, h.obuf, h.ids, h.prop⟩

/-- A write of one cell inside a register keeps it legal. -/
theorem polyLegal_write {par : Params} {m : Memory Elem} (h : polyLegal par m) {j : Nat} (hj : j < par.pcap) (v : Elem) :
    polyLegal par (Memory.write 0 m j v) := by
  refine ⟨Memory.wf_write h.1 _ _, fun e he => ?_⟩
  rcases Memory.mem_write he with ⟨rfl, -⟩ | he
  · exact hj
  · exact h.2 e he

theorem idsLegal_write {par : Params} {m : Memory FragId} (h : idsLegal par m) {j : Nat} (hj : j < par.nmax)
    (v : FragId) : idsLegal par (Memory.write 0 m j v) := by
  refine ⟨Memory.wf_write h.1 _ _, fun e he => ?_⟩
  rcases Memory.mem_write he with ⟨rfl, -⟩ | he
  · exact hj
  · exact h.2 e he

/-- A number that fits in a field of the instance is read back as it is. -/
theorem toNat_ofNat_lt {w n : Nat} (h : n < 2 ^ w) : (BitVec.ofNat w n).toNat = n := by
  rw [BitVec.toNat_ofNat, Nat.mod_eq_of_lt h]

/-- The instance that `CONFIG` builds from arguments that passed its checks is legal (43_coder.md R186). -/
theorem inv_construct {s u : State} (h : Inv s) {ws k m p : Nat} (hc : construct s ws k m p = .ok u) : Inv u := by
  obtain ⟨h1, h2, h3, h4, h5, h6, h7, h8, rfl⟩ := construct_ok hc
  refine ⟨h.params, ⟨fun _ => ?_, fun h => by simp at h⟩, h.error, h.polys, h.ibuf, h.obuf, h.ids, h.prop⟩
  have hg := groot_lt h.params h1
  have hpm := pmax_lt h.params
  have hnm := nmax_le h.params
  have hq : fieldCard ws = 257 ∨ fieldCard ws = 65537 := by rcases h1 with rfl | rfl <;> simp [fieldCard]
  obtain ⟨j, hj⟩ := codeLen_pow (k + m)
  have hle := le_codeLen (k + m)
  have hlt := codeLen_lt (m := k + m) (by omega)
  have hq1 : ∃ e, fieldCard ws - 1 = 2 ^ e := by
    rcases h1 with rfl | rfl
    exacts [⟨8, rfl⟩, ⟨16, rfl⟩]
  obtain ⟨e, he⟩ := hq1
  have hcl := codeLen_least (k + m) e (by omega)
  have hj16 : j < 17 := by
    have : 2 ^ j ≤ 2 ^ 16 := by omega
    have := (Nat.pow_le_pow_iff_right (by omega)).1 this
    omega
  have ews : (instanceOf ws k m p (s.par.groot ws)).ws.toNat = ws := toNat_ofNat_lt (by omega)
  have ek : (instanceOf ws k m p (s.par.groot ws)).k.toNat = k := toNat_ofNat_lt (by omega)
  have em : (instanceOf ws k m p (s.par.groot ws)).m.toNat = m := toNat_ofNat_lt (by omega)
  have ep : (instanceOf ws k m p (s.par.groot ws)).p.toNat = p := toNat_ofNat_lt (by omega)
  have eq : (instanceOf ws k m p (s.par.groot ws)).q.toNat = fieldCard ws := toNat_ofNat_lt (by omega)
  have eg : (instanceOf ws k m p (s.par.groot ws)).g.toNat = s.par.groot ws := toNat_ofNat_lt (by omega)
  have en : (instanceOf ws k m p (s.par.groot ws)).n.toNat = codeLen (k + m) := toNat_ofNat_lt (by omega)
  have er : (instanceOf ws k m p (s.par.groot ws)).r.toNat =
      s.par.groot ws ^ ((fieldCard ws - 1) / codeLen (k + m)) % fieldCard ws := by
    rw [← fpow_eq]
    exact toNat_ofNat_lt ((fpow_lt (by omega) _ _).trans (by omega))
  unfold InstRegs.legal
  rw [fpow_eq] at h8
  rw [ews, ek, em, ep, eq, eg, en, er]
  refine ⟨h1, by omega, by omega, ⟨by omega, h5⟩, rfl, rfl, ⟨j, List.mem_range.2 hj16, hj⟩, ⟨by omega, by omega, h7⟩, ⟨hle, hlt⟩, rfl, h8⟩
/-- A write through the data window keeps a state legal. -/
theorem inv_writeMemdata {s : State} (h : Inv s) (v : Word) : Inv (writeMemdata s v) := by
  rcases selection_cases s with ⟨hs, hr⟩ | ⟨hs, hr⟩ | ⟨hs, hr⟩ | ⟨i, hs, hr⟩ | hs
  · rw [writeMemdata_ibuf v hs hr]
    rw [bufferInRange_iff] at hr
    exact inv_ibuf h (Grid.legal_write h.ibuf _ hr.1 hr.2)
  · rw [writeMemdata_obuf v hs hr]
    rw [bufferInRange_iff] at hr
    exact inv_obuf h (Grid.legal_write h.obuf _ hr.1 hr.2)
  · rw [writeMemdata_ids v hs hr]
    exact inv_ids h (idsLegal_write h.ids hr _)
  · rw [writeMemdata_poly v hs hr]
    exact inv_setPoly h (polyLegal_write (h.polys i) hr _)
  · rw [writeMemdata_none v hs]
    exact h

end Sys2Proof.Machine
end

