-- ==== Sys2Proof/Laws/PerInstr.lean ====
section
/-! SUPPORT. The family `Row`, one lemma per instruction: the word of an instruction carries the opcode of its row of the
opcode map (30_encoding.md R95). -/

namespace Sys2Proof.Laws.Row

open Sys2Proof

/-- Bits 31:24 of the word of `i` are the opcode of its row. -/
def Statement (i : Instr) : Prop := opField (encode i) = i.opcode

theorem opcode_lt (i : Instr) : i.opcode < 256 := by cases i <;> simp [Instr.opcode]

theorem of_wordR {i : Instr} {d a b c : Nat} (h : encode i = wordR i.opcode d a b c) (hd : d < 16)
    (ha : a < 16) (hb : b < 16) (hc : c < 16) : Statement i := by
  rw [Statement, h, opField_wordR (opcode_lt i) hd ha hb hc]

theorem li (d : XReg) (imm : Word) : Statement (.li d imm) := opField_wordI (opcode_lt _) d.isLt

theorem fadd (d a b : XReg) : Statement (.fadd d a b) :=
  of_wordR rfl (by omega) (by omega) (by omega) (by omega)

theorem fsub (d a b : XReg) : Statement (.fsub d a b) :=
  of_wordR rfl (by omega) (by omega) (by omega) (by omega)

theorem fmul (d a b : XReg) : Statement (.fmul d a b) :=
  of_wordR rfl (by omega) (by omega) (by omega) (by omega)

theorem fdiv (d a b : XReg) : Statement (.fdiv d a b) :=
  of_wordR rfl (by omega) (by omega) (by omega) (by omega)

theorem finv (d a : XReg) : Statement (.finv d a) :=
  of_wordR rfl (by omega) (by omega) (by omega) (by omega)

theorem fexp (d a b : XReg) : Statement (.fexp d a b) :=
  of_wordR rfl (by omega) (by omega) (by omega) (by omega)

theorem fneg (d a : XReg) : Statement (.fneg d a) :=
  of_wordR rfl (by omega) (by omega) (by omega) (by omega)

theorem fcard (d : XReg) : Statement (.fcard d) :=
  of_wordR rfl (by omega) (by omega) (by omega) (by omega)

theorem fproot (d : XReg) : Statement (.fproot d) :=
  of_wordR rfl (by omega) (by omega) (by omega) (by omega)

theorem fnroot (d a : XReg) : Statement (.fnroot d a) :=
  of_wordR rfl (by omega) (by omega) (by omega) (by omega)

theorem fclhc (d a : XReg) : Statement (.fclhc d a) :=
  of_wordR rfl (by omega) (by omega) (by omega) (by omega)

theorem fjac (d a : XReg) : Statement (.fjac d a) :=
  of_wordR rfl (by omega) (by omega) (by omega) (by omega)

theorem pset (d : PReg) (a b : XReg) : Statement (.pset d a b) :=
  of_wordR rfl (by omega) (by omega) (by omega) (by omega)

theorem pget (d : XReg) (a : PReg) (b : XReg) : Statement (.pget d a b) :=
  of_wordR rfl (by omega) (by omega) (by omega) (by omega)

theorem pmul (d a : PReg) : Statement (.pmul d a) :=
  of_wordR rfl (by omega) (by omega) (by omega) (by omega)

theorem pder (d : PReg) : Statement (.pder d) :=
  of_wordR rfl (by omega) (by omega) (by omega) (by omega)

theorem pneg (d : PReg) : Statement (.pneg d) :=
  of_wordR rfl (by omega) (by omega) (by omega) (by omega)

theorem peval (d : XReg) (a : PReg) (b : XReg) : Statement (.peval d a b) :=
  of_wordR rfl (by omega) (by omega) (by omega) (by omega)

theorem pcopy (d a : PReg) : Statement (.pcopy d a) :=
  of_wordR rfl (by omega) (by omega) (by omega) (by omega)

theorem pclr (d : PReg) : Statement (.pclr d) :=
  of_wordR rfl (by omega) (by omega) (by omega) (by omega)

theorem fft : Statement .fft :=
  of_wordR rfl (by omega) (by omega) (by omega) (by omega)

theorem ifft : Statement .ifft :=
  of_wordR rfl (by omega) (by omega) (by omega) (by omega)

theorem fftp : Statement .fftp :=
  of_wordR rfl (by omega) (by omega) (by omega) (by omega)

theorem ifftp : Statement .ifftp :=
  of_wordR rfl (by omega) (by omega) (by omega) (by omega)

theorem config : Statement .config :=
  of_wordR rfl (by omega) (by omega) (by omega) (by omega)

theorem nout (d : XReg) : Statement (.nout d) :=
  of_wordR rfl (by omega) (by omega) (by omega) (by omega)

theorem enc : Statement .enc :=
  of_wordR rfl (by omega) (by omega) (by omega) (by omega)

theorem encp : Statement .encp :=
  of_wordR rfl (by omega) (by omega) (by omega) (by omega)

theorem dec : Statement .dec :=
  of_wordR rfl (by omega) (by omega) (by omega) (by omega)

theorem decp : Statement .decp :=
  of_wordR rfl (by omega) (by omega) (by omega) (by omega)

theorem daddd : Statement .daddd :=
  of_wordR rfl (by omega) (by omega) (by omega) (by omega)

theorem daddp : Statement .daddp :=
  of_wordR rfl (by omega) (by omega) (by omega) (by omega)

theorem dbuild : Statement .dbuild :=
  of_wordR rfl (by omega) (by omega) (by omega) (by omega)

theorem pradd (d a b c : XReg) : Statement (.pradd d a b c) :=
  of_wordR rfl (by omega) (by omega) (by omega) (by omega)

theorem prmk (d a b c : XReg) : Statement (.prmk d a b c) :=
  of_wordR rfl (by omega) (by omega) (by omega) (by omega)

theorem prnext (a : XReg) : Statement (.prnext a) :=
  of_wordR rfl (by omega) (by omega) (by omega) (by omega)

theorem prrew (a : XReg) : Statement (.prrew a) :=
  of_wordR rfl (by omega) (by omega) (by omega) (by omega)

theorem prclr (a : XReg) : Statement (.prclr a) :=
  of_wordR rfl (by omega) (by omega) (by omega) (by omega)

theorem prclra : Statement .prclra :=
  of_wordR rfl (by omega) (by omega) (by omega) (by omega)

theorem prlen (d a : XReg) : Statement (.prlen d a) :=
  of_wordR rfl (by omega) (by omega) (by omega) (by omega)

end Sys2Proof.Laws.Row
end

