-- ==== Sys2Proof/Laws/Recovery.lean ====
section
/-! SUPPORT. What a decode recovers, in numbers: the only coefficients below Q of a polynomial through the received values
(43_coder.md R192, R195), and what that gives when the values were made by an encode (R201). -/

namespace Sys2Proof.Machine

open Sys2Proof

theorem restored_lt {s : State} (h : Inv s) (hr : s.ready = true) (l i : Nat) : restored s l i < s.q := by
  have := q_bounds h hr
  unfold restored
  split
  · omega
  · exact Nat.mod_lt _ (by omega)

/-- The value of a coefficient list at the point of a fragment, in the field. -/
theorem eval_at_point {q : Nat} (r : Nat) (f cs : List Nat) (i : Nat) :
    (toPoly q cs).eval (point q r f i) =
      ((∑ p ∈ Finset.range cs.length, cs.getD p 0 * (r ^ f.getD i 0) ^ p : Nat) : ZMod q) := by
  have e : point q r f i = ((r ^ f.getD i 0 : Nat) : ZMod q) := by simp [point]
  rw [e, eval_toPoly, horner_eq_sum, cast_mod]

section
variable {s : State} (h : Inv s) (hr : s.ready = true) (hf : ∀ i, i < s.k → fragId s i < s.n)
  (hnd : (fragIds s).Nodup) (l : Nat)
include h hr

theorem recovered_getD_lt (p : Nat) : (recovered s l (fragIds s)).getD p 0 < s.q := by
  have hq := q_bounds h hr
  by_cases hp : p < (recovered s l (fragIds s)).length
  · rw [List.getD_eq_getElem _ 0 hp]
    exact lagrange_lt (by omega) _ _ _ _ (List.getElem_mem hp)
  · rw [List.getD_eq_default _ 0 (by omega)]; omega

include hf hnd

/-- The recovered polynomial takes the received value at every fragment's point. -/
theorem recovered_interpolates {i : Nat} (hi : i < s.k) :
    (∑ p ∈ Finset.range s.k, (recovered s l (fragIds s)).getD p 0 * (s.r ^ fragId s i) ^ p) % s.q =
      restored s l i := by
  have hq := q_bounds h hr
  have hn := n_bounds h hr
  have := Fact.mk (q_prime h hr)
  have hmem : ∀ f ∈ fragIds s, f < s.n := fun f hff => by
    obtain ⟨j, hj, rfl⟩ := (mem_fragIds s f).1 hff
    exact hf j hj
  have e := lagrange_interpolates (q := s.q) (by omega) (r_primitive h hr) (by omega) hmem hnd
    (y := received s l (fragIds s)) (by simp) (i := i) (by simpa using hi)
  rw [eval_at_point, received_getD s l hi, length_lagrange, length_fragIds, fragIds_getD s hi] at e
  refine eq_of_cast (q := s.q) (Nat.mod_lt _ (by omega)) (restored_lt h hr l i) ?_
  rw [cast_mod]
  exact e

/-- No other coefficients below Q do. -/
theorem recovered_unique {c : Nat → Nat} (hc : ∀ p, p < s.k → c p < s.q)
    (hy : ∀ i, i < s.k → (∑ p ∈ Finset.range s.k, c p * (s.r ^ fragId s i) ^ p) % s.q = restored s l i) {p : Nat}
    (hp : p < s.k) : (recovered s l (fragIds s)).getD p 0 = c p := by
  have hq := q_bounds h hr
  have hn := n_bounds h hr
  have := Fact.mk (q_prime h hr)
  have hmem : ∀ f ∈ fragIds s, f < s.n := fun f hff => by
    obtain ⟨j, hj, rfl⟩ := (mem_fragIds s f).1 hff
    exact hf j hj
  have hget : ∀ p, p < s.k → ((List.range s.k).map c).getD p 0 = c p := fun p hp => by simp [hp]
  have e : recovered s l (fragIds s) = (List.range s.k).map c := by
    refine lagrange_unique (q := s.q) (by omega) (r_primitive h hr) (by omega) hmem hnd (by simp) (by simp)
      (fun v hv => ?_) fun i hi => ?_
    · obtain ⟨j, hj, rfl⟩ := List.mem_map.1 hv
      exact hc j (List.mem_range.1 hj)
    · rw [length_fragIds] at hi
      rw [eval_at_point, received_getD s l hi, fragIds_getD s hi, ← hy i hi, cast_mod, List.length_map,
        List.length_range]
      congr 1
      exact Finset.sum_congr rfl fun p hp => by rw [hget p (Finset.mem_range.1 hp)]
  rw [e, hget p hp]

end

end Sys2Proof.Machine
end

