-- ==== Sys2Proof/Tests/Slice0.lean ====
section
/-! SUPPORT. The model's own tests, all as named theorems: what `WellFormed` and the decoder refuse, a written-out word
for every command, at most two one-step tests per command, and witnesses that the hypotheses of the statements are met.
Expected values come from spec/95_test_vectors.md (named in the docstrings by its headings) or from the examples of the
rules. -/

namespace Sys2Proof.Tests

open Sys2Proof Sys2Proof.Machine

section
set_option Elab.async false

/-! ### States and observations -/

/-- Parameters small enough to fill a property list: NMAX = 8, PMAX = 3, PROPCAP = 3. -/
def tiny : Params := { nmax := 8, pmax := 3, propcap := 3, groot1 := 3, groot2 := 3 }

/-- q = 257, `new 1, 1, 1, 1` (V-F). -/
def f257 : State :=
  { State.reset with ready := true, inst := { ws := 1, k := 1, m := 1, p := 1, q := 257, g := 3, n := 2, r := 256 } }

/-- `new 1, 2, 2, 3` (V-C7). -/
def e4 : State :=
  { State.reset with ready := true, inst := { ws := 1, k := 2, m := 2, p := 3, q := 257, g := 3, n := 4, r := 241 } }

/-- `new 1, 3, 1, 1` (S1). -/
def s1 : State :=
  { State.reset with ready := true, inst := { ws := 1, k := 3, m := 1, p := 1, q := 257, g := 3, n := 4, r := 241 } }

/-- `new 2, 4, 3, 1` (S4). -/
def w2 : State :=
  { State.reset with
    ready := true, inst := { ws := 2, k := 4, m := 3, p := 1, q := 65537, g := 3, n := 8, r := 4096 } }

/-- A buffer from the values of its lanes. -/
def lanes (cols : List (Nat × List Nat)) : Grid := Grid.writeColumns [] cols

/-- `IDS` from its values. -/
def idsOf (vs : List Nat) : Memory FragId :=
  (vs.zipIdx.filter fun v => v.1 ≠ 0).map fun v => (v.2, BitVec.ofNat 16 v.1)

/-- x[1] and x[2] set. -/
def ops (s : State) (v1 v2 : Word) : State := setX (setX s 1 v1) 2 v2

/-- Scalar register `d` after a command. -/
def xAfter (i : Instr) (s : State) (d : XReg) : Option Nat :=
  match exec i s with
  | .next t => if t.error.err then none else some (getX t d).toNat
  | _ => none

/-- The recorded error after a command: `ERRCODE`, `ERRINFO`, `ERRCMD`. -/
def faultAfter (i : Instr) (s : State) : Option (Nat × Nat × Word) :=
  match exec i s with
  | .next t => if t.error.err then some (t.error.code.toNat, t.error.info.toNat, t.error.cmd) else none
  | _ => none

/-- The listed cells of polynomial register `d` after a command. -/
def polyAfter (i : Instr) (s : State) (d : PReg) : Option (List (Nat × Nat)) :=
  match exec i s with
  | .next t => if t.error.err then none else some ((getPoly t d).map fun c => (c.1, c.2.toNat))
  | _ => none

/-- The first `n` cells of a lane of `OBUF` after a command. -/
def obufAfter (i : Instr) (s : State) (n lane : Nat) : Option (List Nat) :=
  match exec i s with
  | .next t => if t.error.err then none else some ((List.range n).map fun p => (Grid.read t.obuf p lane).toNat)
  | _ => none

/-- A property list after a command: (location, mark) pairs and the cursor. -/
def propsAfter (i : Instr) (s : State) (p : Nat) : Option (List (Nat × Nat) × Nat) :=
  match exec i s with
  | .next t =>
    if t.error.err then none
    else some ((getProps t p).entries.map fun e => (e.loc.toNat, e.mark.toNat), (getProps t p).cursor)
  | _ => none

/-- N, R, Q and `READY` after a construction. -/
def instAfter (i : Instr) (s : State) : Option (Nat × Nat × Nat × Bool) :=
  match exec i s with
  | .next t => if t.error.err then none else some (t.n, t.r, t.q, t.ready)
  | _ => none

/-- The state after one step, if there is one. -/
def after (s : State) : Option State :=
  match step s with
  | .next t => some t
  | _ => none

theorem next_of_after {s t : State} (h : after s = some t) : step s = .next t := by
  unfold after at h
  split at h
  · next e => rw [e, Option.some.inj h]
  · cases h

/-- The state after a command that answers one. -/
def ran (i : Instr) (s : State) : Option State :=
  match exec i s with
  | .next t => some t
  | _ => none

theorem next_of_ran {i : Instr} {s t : State} (h : ran i s = some t) : exec i s = .next t := by
  unfold ran at h
  split at h
  · next e => rw [e, Option.some.inj h]
  · cases h

/-- A binary field command on x[1], x[2], its result in x[3]. -/
def bin (mk : XReg → XReg → XReg → Instr) (v1 v2 : Word) : Option Nat := xAfter (mk 3 1 2) (ops f257 v1 v2) 3

/-- A unary field command on x[1], its result in x[3]. -/
def una (mk : XReg → XReg → Instr) (v1 : Word) : Option Nat := xAfter (mk 3 1) (setX f257 1 v1) 3

/-- Cells of a polynomial register. -/
def cells (cs : List (Nat × Nat)) : Memory Elem := cs.map fun c => (c.1, BitVec.ofNat 17 c.2)

/-- A state with p[0] and p[1] set. -/
def polys (c0 c1 : List (Nat × Nat)) : State := setPoly (setPoly f257 0 (cells c0)) 1 (cells c1)

/-- The input of V-C7, `OFFSET` = 100. -/
def encIn : State := { e4 with offset := 100, ibuf := lanes [(0, [128, 128]), (1, [1, 2]), (2, [0, 256])] }

/-- The property store after V-C7. -/
def vc7Store : Memory PropList :=
  [(0, { entries := [{ loc := 100, mark := 1 }, { loc := 102, mark := 1 }], cursor := 0 }),
   (2, { entries := [{ loc := 101, mark := 1 }], cursor := 0 })]

/-- The survivors 0 and 3 of V-C7 with their store. -/
def decIn : State :=
  { e4 with
    offset := 100, ibuf := lanes [(0, [0, 120]), (1, [3, 33]), (2, [0, 241])], ids := idsOf [0, 3], prop := vc7Store }

/-- The start of V-R, with x[1] = x[4] = 0 and x[3] set. -/
def vr (x3 : Word) : State := setX { State.reset with prop := vc7Store } 3 x3

/-! ### WellFormed refuses -/

/-- LI's immediate has 20 bits (30_encoding.md R92). -/
theorem test_wf_li_immediate :
    (Instr.li 3 0x100000).wellFormed = false ∧ (Instr.li 3 0xFFFFF).wellFormed = true := by decide

/-- An access is 32 bits wide, aligned and inside the window (20_memory.md R62). -/
theorem test_wf_access :
    (HostEvent.read 0x018 2).wellFormed = false ∧ (HostEvent.write 0x01A 4 0).wellFormed = false ∧
    (HostEvent.read 0x100 4).wellFormed = false ∧ (HostEvent.write 0x0FC 4 0).wellFormed = true := by decide

/-! ### A written-out word for every command -/

theorem test_decode_immediate_and_field :
    decode 0x01310000 = .ok (.li 3 65536) ∧ decode 0x10312000 = .ok (.fadd 3 1 2) ∧
    decode 0x11312000 = .ok (.fsub 3 1 2) ∧ decode 0x12312000 = .ok (.fmul 3 1 2) ∧
    decode 0x13887000 = .ok (.fdiv 8 8 7) ∧ decode 0x14210000 = .ok (.finv 2 1) ∧
    decode 0x15423000 = .ok (.fexp 4 2 3) ∧ decode 0x16640000 = .ok (.fneg 6 4) ∧
    decode 0x17300000 = .ok (.fcard 3) ∧ decode 0x18500000 = .ok (.fproot 5) ∧
    decode 0x19220000 = .ok (.fnroot 2 2) ∧ decode 0x1A310000 = .ok (.fclhc 3 1) ∧
    decode 0x1B210000 = .ok (.fjac 2 1) := ⟨rfl, rfl, rfl, rfl, rfl, rfl, rfl, rfl, rfl, rfl, rfl, rfl, rfl⟩

theorem test_decode_polynomial :
    decode 0x20012000 = .ok (.pset 0 1 2) ∧ decode 0x21501000 = .ok (.pget 5 0 1) ∧
    decode 0x22020000 = .ok (.pmul 0 2) ∧ decode 0x23200000 = .ok (.pder 2) ∧ decode 0x24000000 = .ok (.pneg 0) ∧
    decode 0x25304000 = .ok (.peval 3 0 4) ∧ decode 0x26100000 = .ok (.pcopy 1 0) ∧
    decode 0x27300000 = .ok (.pclr 3) := ⟨rfl, rfl, rfl, rfl, rfl, rfl, rfl, rfl⟩

theorem test_decode_fft :
    decode 0x30000000 = .ok .fft ∧ decode 0x31000000 = .ok .ifft ∧ decode 0x32000000 = .ok .fftp ∧
    decode 0x33000000 = .ok .ifftp := ⟨rfl, rfl, rfl, rfl⟩

theorem test_decode_coder :
    decode 0x40000000 = .ok .config ∧ decode 0x41300000 = .ok (.nout 3) ∧ decode 0x42000000 = .ok .enc ∧
    decode 0x43000000 = .ok .encp ∧ decode 0x44000000 = .ok .dec ∧ decode 0x45000000 = .ok .decp ∧
    decode 0x46000000 = .ok .daddd ∧ decode 0x47000000 = .ok .daddp ∧ decode 0x48000000 = .ok .dbuild :=
  ⟨rfl, rfl, rfl, rfl, rfl, rfl, rfl, rfl, rfl⟩

theorem test_decode_property :
    decode 0x50412300 = .ok (.pradd 4 1 2 3) ∧ decode 0x51513400 = .ok (.prmk 5 1 3 4) ∧
    decode 0x52010000 = .ok (.prnext 1) ∧ decode 0x53010000 = .ok (.prrew 1) ∧ decode 0x54010000 = .ok (.prclr 1) ∧
    decode 0x55000000 = .ok .prclra ∧ decode 0x56210000 = .ok (.prlen 2 1) := ⟨rfl, rfl, rfl, rfl, rfl, rfl, rfl⟩

/-- The illegal words of V-E. -/
theorem test_decode_illegal :
    decode 0x00000000 = .error .unknownOpcode ∧ decode 0xFFFFFFFF = .error .unknownOpcode ∧
    decode 0x02000000 = .error .unknownOpcode ∧ decode 0x10312001 = .error .nonzeroUnused ∧
    decode 0x10312100 = .error .nonzeroUnused ∧ decode 0x14211000 = .error .nonzeroUnused ∧
    decode 0x22040000 = .error .polyField ∧ decode 0x20412000 = .error .polyField ∧
    decode 0x27400000 = .error .polyField ∧ decode 0x21541000 = .error .polyField ∧
    decode 0x40000001 = .error .nonzeroUnused ∧ decode 0x55100000 = .error .nonzeroUnused ∧
    decode 0x52110000 = .error .nonzeroUnused := ⟨rfl, rfl, rfl, rfl, rfl, rfl, rfl, rfl, rfl, rfl, rfl, rfl, rfl⟩

/-! ### Immediate and field commands (V-F) -/

theorem test_li : xAfter (.li 3 0xFFFFF) State.reset 3 = some 1048575 := by decide +kernel

theorem test_fadd_wraps :
    bin .fadd 200 100 = some 43 ∧ bin .fadd 257 1 = some 1 ∧ bin .fadd 0xFFFFFFFF 0 = some 0 := by decide +kernel

theorem test_fadd_same_register : xAfter (.fadd 1 1 1) (setX f257 1 200) 1 = some 143 := by decide +kernel

theorem test_fsub : bin .fsub 5 10 = some 252 ∧ bin .fsub 7 7 = some 0 ∧ bin .fsub 0 1 = some 256 := by decide +kernel

theorem test_fmul : bin .fmul 16 16 = some 256 ∧ bin .fmul 256 256 = some 1 := by decide +kernel

theorem test_fdiv : bin .fdiv 7 5 = some 207 ∧ bin .fdiv 0 5 = some 0 := by decide +kernel

theorem test_fdiv_by_zero : faultAfter (.fdiv 3 1 2) (ops f257 7 257) = some (3, 1, 0x13312000) := by decide +kernel

theorem test_finv : una .finv 3 = some 86 ∧ una .finv 256 = some 256 := by decide +kernel

theorem test_finv_of_zero : faultAfter (.finv 3 1) (setX f257 1 514) = some (3, 2, 0x14310000) := by decide +kernel

theorem test_fexp : bin .fexp 3 64 = some 241 ∧ bin .fexp 0 0 = some 1 ∧ bin .fexp 5 0xFFFFFFFF = some 103 := by
  decide +kernel

theorem test_fneg : una .fneg 1 = some 256 ∧ una .fneg 0 = some 0 ∧ una .fneg 257 = some 0 := by decide +kernel

theorem test_fcard : xAfter (.fcard 3) f257 3 = some 257 ∧ xAfter (.fcard 3) w2 3 = some 65537 := by decide +kernel

theorem test_fproot : xAfter (.fproot 3) f257 3 = some 3 := by decide +kernel

theorem test_fnroot : una .fnroot 4 = some 241 ∧ una .fnroot 256 = some 3 ∧ una .fnroot 1 = some 1 := by decide +kernel

theorem test_fnroot_faults :
    faultAfter (.fnroot 3 1) (setX f257 1 6) = some (5, 1, 0x19310000) ∧
    faultAfter (.fnroot 3 1) (setX f257 1 0) = some (5, 1, 0x19310000) := by decide +kernel

theorem test_fclhc : una .fclhc 0 = some 1 ∧ una .fclhc 5 = some 8 ∧ una .fclhc 256 = some 256 := by decide +kernel

theorem test_fclhc_fault : faultAfter (.fclhc 3 1) (setX f257 1 257) = some (5, 2, 0x1A310000) := by decide +kernel

theorem test_fjac : una .fjac 3 = some 0xFFFFFFFF ∧ una .fjac 2 = some 1 ∧ una .fjac 257 = some 0 := by decide +kernel

theorem test_not_ready : faultAfter (.fadd 3 1 2) State.reset = some (8, 0, 0x10312000) := by decide +kernel

/-! ### Polynomial commands (V-P) -/

theorem test_pset :
    polyAfter (.pset 0 1 2) (ops f257 2 3) 0 = some [(2, 3)] ∧
    polyAfter (.pset 0 1 2) (ops (polys [(0, 1), (1, 2), (2, 3)] []) 2 257) 0 = some [(0, 1), (1, 2)] := by
  decide +kernel

theorem test_pset_edges :
    polyAfter (.pset 0 1 2) (ops f257 131071 1) 0 = some [(131071, 1)] ∧
    faultAfter (.pset 0 1 2) (ops f257 131072 1) = some (6, 1, 0x20012000) := by decide +kernel

theorem test_pget :
    xAfter (.pget 5 0 1) (setX (polys [(3, 300)] []) 1 3) 5 = some 43 ∧
    xAfter (.pget 5 0 1) (setX (polys [(3, 300)] []) 1 0xFFFFFFFF) 5 = some 0 := by decide +kernel

theorem test_pmul :
    polyAfter (.pmul 0 1) (polys [(0, 1), (1, 2), (2, 3)] [(0, 256), (1, 1)]) 0 =
      some [(0, 256), (1, 256), (2, 256), (3, 3)] ∧
    polyAfter (.pmul 1 1) (polys [] [(0, 2), (1, 6)]) 1 = some [(0, 4), (1, 24), (2, 36)] := by decide +kernel

theorem test_pmul_degree :
    faultAfter (.pmul 0 0) (polys [(65536, 1)] []) = some (6, 2, 0x22000000) ∧
    polyAfter (.pmul 0 1) (polys [(65535, 1)] [(65536, 1)]) 0 = some [(131071, 1)] := by decide +kernel

theorem test_pder :
    polyAfter (.pder 0) (polys [(1, 4), (257, 5)] []) 0 = some [(0, 4)] ∧
    polyAfter (.pder 0) (polys [(0, 9)] []) 0 = some [] ∧
    polyAfter (.pder 1) (polys [] [(131071, 1)]) 1 = some [(131070, 1)] := by decide +kernel

theorem test_pneg :
    polyAfter (.pneg 0) (polys [(0, 256), (1, 256), (2, 256), (3, 3)] []) 0 =
      some [(0, 1), (1, 1), (2, 1), (3, 254)] ∧
    polyAfter (.pneg 1) (polys [] [(3, 300)]) 1 = some [(3, 214)] := by decide +kernel

theorem test_peval :
    xAfter (.peval 3 0 4) (setX (polys [(0, 1), (1, 2), (2, 3)] []) 4 241) 3 = some 223 ∧
    xAfter (.peval 3 0 4) (setX (polys [(0, 1), (1, 2)] []) 4 256) 3 = some 256 ∧
    xAfter (.peval 3 0 4) (setX (polys [] []) 4 77) 3 = some 0 := by decide +kernel

theorem test_pcopy : polyAfter (.pcopy 1 0) (polys [(3, 300)] [(9, 1)]) 1 = some [(3, 300)] := by decide +kernel

theorem test_pclr :
    polyAfter (.pclr 0) (polys [(3, 300)] []) 0 = some [] ∧
    faultAfter (.pclr 0) State.reset = some (8, 0, 0x27000000) := by decide +kernel

/-! ### FFT commands (V-T) -/

theorem test_fft :
    obufAfter .fft { s1 with ibuf := lanes [(0, [1, 2, 3, 99])] } 4 0 = some [105, 8, 160, 245] ∧
    obufAfter .fft { s1 with ibuf := lanes [(0, [300, 257])] } 4 0 = some [43, 43, 43, 43] := by decide +kernel

theorem test_ifft : obufAfter .ifft { s1 with ibuf := lanes [(0, [6, 223, 2, 30])] } 4 0 = some [1, 2, 3, 0] := by
  decide +kernel

theorem test_fftp :
    obufAfter .fftp { e4 with ibuf := lanes [(0, [1, 2, 3, 0]), (1, [128, 128])] } 4 0 = some [6, 223, 2, 30] ∧
    obufAfter .fftp { e4 with ibuf := lanes [(0, [1, 2, 3, 0]), (1, [128, 128])] } 4 1 = some [256, 136, 0, 120] := by
  decide +kernel

theorem test_ifftp :
    obufAfter .ifftp { e4 with ibuf := lanes [(0, [6, 223, 2, 30]), (1, [256, 136, 0, 120])] } 4 1 =
      some [128, 128, 0, 0] := by decide +kernel

/-! ### Coder commands (V-C) -/

theorem test_config :
    instAfter .config { State.reset with cfg := { ws := 1, k := 3, m := 1, p := 1 } } = some (4, 241, 257, true) ∧
    instAfter .config { State.reset with cfg := { ws := 2, k := 65535, m := 1, p := 1024 } } =
      some (65536, 3, 65537, true) := by decide +kernel

theorem test_config_checks :
    faultAfter .config State.reset = some (1, 1, 0x40000000) ∧
    faultAfter .config { State.reset with cfg := { ws := 1, k := 1, m := 1, p := 1025 } } = some (1, 4, 0x40000000) ∧
    faultAfter .config { State.reset with cfg := { ws := 2, k := 0xFFFFFFFF, m := 1, p := 1 } } =
      some (1, 5, 0x40000000) ∧
    faultAfter .config { State.resetOf { tiny with nmax := 256 } with cfg := { ws := 2, k := 200, m := 100, p := 1 } } =
      some (1, 6, 0x40000000) ∧
    faultAfter .config { State.resetOf { tiny with groot1 := 2 } with cfg := { ws := 1, k := 1, m := 1, p := 1 } } =
      some (2, 0, 0x40000000) := by decide +kernel

theorem test_nout : xAfter (.nout 0) s1 0 = some 4 ∧ faultAfter (.nout 3) State.reset = some (8, 0, 0x41300000) := by
  decide +kernel

/-- S3. -/
theorem test_enc :
    obufAfter .enc { encIn with offset := 0 } 4 0 = some [0, 136, 0, 120] ∧
    propsAfter .enc { encIn with offset := 0 } 0 = some ([(0, 1)], 0) := by decide +kernel

/-- V-C12 with a smaller PROPCAP. -/
theorem test_enc_capacity :
    faultAfter .enc { encIn with
      par := tiny, prop := [(0, { entries := List.replicate 3 { loc := 5, mark := 7 }, cursor := 0 })] } =
      some (6, 3, 0x42000000) := by decide +kernel

theorem test_encp :
    obufAfter .encp encIn 4 1 = some [3, 226, 0, 33] ∧ obufAfter .encp encIn 4 2 = some [0, 16, 1, 241] := by
  decide +kernel

theorem test_encp_marks :
    propsAfter .encp encIn 0 = some ([(100, 1), (102, 1)], 0) ∧ propsAfter .encp encIn 2 = some ([(101, 1)], 0) ∧
    propsAfter .encp encIn 1 = some ([], 0) := by decide +kernel

/-- S1, S3. -/
theorem test_dec :
    obufAfter .dec { s1 with ibuf := lanes [(0, [30, 6, 2])], ids := idsOf [3, 0, 2] } 3 0 = some [1, 2, 3] ∧
    obufAfter .dec decIn 2 0 = some [128, 128] := by decide +kernel

/-- V-C10. -/
theorem test_dec_faults :
    faultAfter .dec { s1 with ids := idsOf [4, 0, 0] } = some (5, 3, 0x44000000) ∧
    faultAfter .dec { s1 with ids := idsOf [1, 1, 2] } = some (3, 3, 0x44000000) := by decide +kernel

theorem test_decp :
    obufAfter .decp decIn 2 1 = some [1, 2] ∧ obufAfter .decp decIn 2 2 = some [0, 256] ∧
    obufAfter .decp { decIn with offset := 0 } 2 2 = some [121, 136] := by decide +kernel

theorem test_daddd : faultAfter .daddd s1 = some (4, 0, 0x46000000) := by decide +kernel

theorem test_daddp : exec .daddp s1 = .next s1 ∧ faultAfter .daddp State.reset = some (8, 0, 0x47000000) :=
  ⟨rfl, by decide +kernel⟩

theorem test_dbuild : exec .dbuild s1 = .next s1 ∧ faultAfter .dbuild State.reset = some (8, 0, 0x48000000) :=
  ⟨rfl, by decide +kernel⟩

/-! ### Property commands (V-R) -/

theorem test_pradd :
    propsAfter (.pradd 4 1 2 3)
      (setX (setX (ops State.reset 65535 0xFFFFFFFF) 3 0xFFFFFFFE) 4 0xABCD) 65535 =
      some ([(0xFFFFFFFEFFFFFFFF, 0xABCD)], 0) := by decide +kernel

theorem test_pradd_faults :
    faultAfter (.pradd 4 1 2 3) (setX State.reset 1 65536) = some (5, 4, 0x50412300) ∧
    faultAfter (.pradd 4 1 2 3) { State.resetOf tiny with
      prop := [(0, { entries := List.replicate 3 { loc := 5, mark := 7 }, cursor := 0 })] } =
      some (6, 3, 0x50412300) := by decide +kernel

theorem test_prmk :
    xAfter (.prmk 5 1 3 4) (vr 100) 5 = some 1 ∧
    propsAfter (.prmk 5 1 3 4) (vr 100) 0 = some ([(100, 1), (102, 1)], 1) := by decide +kernel

theorem test_prmk_no_match :
    xAfter (.prmk 6 1 3 4) (vr 102) 6 = some 0 ∧
    propsAfter (.prmk 6 1 3 4) (vr 102) 0 = some ([(100, 1), (102, 1)], 0) := by decide +kernel

theorem test_prnext :
    propsAfter (.prnext 1) (vr 0) 0 = some ([(100, 1), (102, 1)], 1) ∧
    propsAfter (.prnext 1) State.reset 0 = some ([], 0) := by decide +kernel

theorem test_prrew :
    propsAfter (.prrew 1) { State.reset with prop := [(0, { entries := [{ loc := 9, mark := 1 }], cursor := 1 })] } 0 =
      some ([(9, 1)], 0) := by decide +kernel

theorem test_prclr :
    propsAfter (.prclr 1) (vr 0) 0 = some ([], 0) ∧ propsAfter (.prclr 1) (vr 0) 2 = some ([(101, 1)], 0) := by
  decide +kernel

theorem test_prclra : propsAfter .prclra (vr 0) 0 = some ([], 0) ∧ propsAfter .prclra (vr 0) 2 = some ([], 0) := by
  decide +kernel

theorem test_prlen : xAfter (.prlen 2 1) (vr 0) 2 = some 2 := by decide +kernel

/-! ### The window and the fault mechanism (V-X, V-M) -/

theorem test_step_runs_the_placed_command :
    (after (State.reset.withFetchWord 32 0x01300005)).map (fun t => (getX t 3, t.port)) = some (5, []) := by
  decide +kernel

theorem test_fault_is_sticky :
    (after { s1 with
      error := { err := true, code := 8, info := 0, cmd := 0x10312000 }
      port := [.write 0x018 4 0x01300005] }).map (fun t => (getX t 3, t.error.cmd)) = some (0, 0x10312000) := by
  decide +kernel

theorem test_soft_reset_wins :
    (after { setX s1 3 9 with port := [.write 0x004 4 3] }).map (fun t => (getX t 3, t.ready)) = some (0, false) := by
  decide +kernel

theorem test_data_window_truncates :
    (after { s1 with
      win := { s1.win with memidx := 5 }
      port := [.write 0x06C 4 0x2FFFF] }).map (fun t => readReg t .memdata) = some 0x0FFFF := by decide +kernel

theorem test_reads :
    (after { State.reset with port := [.read 0x000 4] }).map State.reads = some [0x464E5431] ∧
    (after { State.reset with port := [.read 0x090 4] }).map State.reads = some [65536] := by decide +kernel

/-! ### Legal states -/

section
set_option synthInstance.maxSize 1000
set_option synthInstance.maxHeartbeats 200000

theorem inv_reset : Inv State.reset := by decide +kernel

theorem inv_f257 : Inv f257 := by decide +kernel

theorem inv_e4 : Inv e4 := by decide +kernel

theorem inv_s1 : Inv s1 := by decide +kernel

theorem inv_w2 : Inv w2 := by decide +kernel

theorem inv_encIn : Inv encIn := by decide +kernel

theorem inv_decIn : Inv decIn := by decide +kernel

/-- The survivors 0 and 3 with the property store `ENC` leaves. -/
def recIn : State := { decIn with prop := [(0, { entries := [{ loc := 100, mark := 1 }], cursor := 0 })] }

theorem inv_recIn : Inv recIn := by decide +kernel

theorem inv_vr (x3 : Word) : Inv (vr x3) :=
  inv_setX (s := { State.reset with prop := vc7Store }) (by decide +kernel) 3 x3

/-- A full property list at position 0. -/
def full : State :=
  { encIn with par := tiny, prop := [(0, { entries := List.replicate 3 { loc := 5, mark := 7 }, cursor := 3 })] }

theorem inv_full : Inv full := by decide +kernel

/-- A recorded error beside an instance. -/
def failed : State := { s1 with error := { err := true, code := 8, info := 0, cmd := 0x10312000 } }

theorem inv_failed : Inv failed := by decide +kernel

/-- Polynomials 1 + 2x + 3x² and 256 + x. -/
theorem inv_polys : Inv (polys [(0, 1), (1, 2), (2, 3)] [(0, 256), (1, 1)]) := by decide +kernel

/-- A raw cell above q. -/
theorem inv_polyRaw : Inv (polys [(3, 300)] []) := by decide +kernel

/-- x^65536 in p[0]: its square does not fit. -/
theorem inv_polyBig : Inv (polys [(65536, 1)] [(65535, 1)]) := by decide +kernel

end

theorem inv_ops {s : State} (h : Inv s) (v1 v2 : Word) : Inv (ops s v1 v2) := h

/-! ### Witnesses: the hypotheses of the statements are met -/

theorem witness_DecodeOfEncodeIsTheInstruction : (Instr.li 15 0xFFFFF).wellFormed = true := by decide

theorem witness_DecodingDropsNoBit : decode 0x01FFFFFF = .ok (.li 15 0xFFFFF) := rfl

/-- The PSET row: d = 3 is the last legal field, d = 4 the first illegal one. -/
theorem witness_WordIsCommandExactlyWhenMaskMatches :
    decode 0x203FF000 = .ok (.pset 3 15 15) ∧ (0x203FF000 : Word) &&& 0xFFC00FFF = 0x20000000 ∧
    decode 0x204FF000 = .error .polyField ∧ (0x204FF000 : Word) &&& 0xFFC00FFF ≠ 0x20000000 := by
  refine ⟨rfl, by decide, rfl, by decide⟩

theorem witness_StepRunsTheDecodedCommand :
    (commandEvent 0x01300005 = .write 0x018 4 0x01300005) ∧ State.reset.par.wf = true ∧
    ({ State.reset with port := [.write 0x018 4 0x01300005] } : State).error.err = false ∧
    decode 0x01300005 = .ok (.li 3 5) := ⟨rfl, by decide +kernel, rfl, rfl⟩

theorem witness_PlacedWordRunsNext :
    State.reset.par.wf = true ∧ State.reset.error.err = false ∧ decodeTableWord 32 0x01300005 = some (.li 3 5) :=
  ⟨by decide +kernel, rfl, rfl⟩

theorem witness_IllegalWordRaisesIllegalCommand :
    State.reset.par.wf = true ∧ State.reset.error.err = false ∧ ∀ i, decode 0x10312100 ≠ .ok i := by
  refine ⟨by decide +kernel, rfl, fun i => ?_⟩
  rw [show decode 0x10312100 = .error .nonzeroUnused from rfl]
  exact fun h => by cases h

theorem witness_CommandsAreIgnoredWhileErrorIsRecorded : failed.par.wf = true ∧ failed.error.err = true :=
  ⟨by decide +kernel, rfl⟩

/-- The first and the last offset, a reserved one and a write-only one. -/
theorem witness_ReadsAnswerAndChangeNothing :
    State.reset.par.wf = true ∧ ∀ off ∈ [0x000, 0x004, 0x008, 0x018, 0x0BC, 0x0FC], off % 4 = 0 ∧ off < 0x100 := by
  decide +kernel

/-- x15 at the last offset, and the upper half of `OFFSET`. -/
theorem witness_RegistersReadTheirState :
    State.reset.par.wf = true ∧
    ((0x0FC, (getX State.reset 15).toNat) ∈ (List.finRange 16).map fun i => (0x0C0 + 4 * i.val, (getX State.reset i).toNat)) ∧
    readReg { State.reset with offset := 0x0000000100000002 } (winRegAt 0x054) = 1 := by decide +kernel

theorem witness_PlainRegistersStoreTheWrite :
    State.reset.par.wf = true ∧
    writeReg { State.reset with offset := 0x0000000100000002 } 7 (winRegAt 0x050) =
      { State.reset with offset := 0x0000000100000007 } ∧
    writeReg State.reset 9 (winRegAt 0x060) = { State.reset with win := { State.reset.win with memsel := 1 } } ∧
    writeReg State.reset 9 (winRegAt 0x0FC) = setX State.reset 15 9 := by decide +kernel

theorem witness_ReadOnlyOffsetsIgnoreWrites :
    State.reset.par.wf = true ∧ ∀ off ∈ [0x000, 0x0BC, 0x09C, 0x058], winRegAt off ≠ .cmd ∧ off < 0x100 := by
  decide +kernel

/-- Each of the three ways not to be admitted, at its boundary. -/
theorem witness_AccessNotAdmittedHasNoStep :
    State.reset.par.wf = true ∧ admitted 0x018 8 = false ∧ admitted 0x0FE 4 = false ∧ admitted 0x100 4 = false ∧
    step { State.reset with port := [.read 0x100 4] } = .fault .busError :=
  ⟨by decide +kernel, by decide +kernel, by decide +kernel, by decide +kernel, rfl⟩

/-- A state with `MEMSEL`, `MEMIDX`, `MEMLANE` set. -/
def sel (sel : BitVec 3) (idx lane : Word) : State :=
  { State.reset with win := { State.reset.win with memsel := sel, memidx := idx, memlane := lane } }

/-- Every selection at the last cell of its memory, and just beyond. -/
theorem witness_DataWindowStoresAndShowsTheSelectedCell :
    Inv (sel 0 65535 1023) ∧
    (∀ m ∈ [(0 : BitVec 3), 1], (sel m 65535 1023).win.memidx.toNat < 65536 ∧ (sel m 65535 1023).win.memlane.toNat < 1024) ∧
    (sel 2 65535 0).win.memidx.toNat < (sel 2 65535 0).par.nmax ∧
    (∀ i : PReg, (sel (BitVec.ofNat 3 (4 + i.val)) 131071 0).win.memsel.toNat = 4 + i.val ∧
      (sel (BitVec.ofNat 3 (4 + i.val)) 131071 0).win.memidx.toNat < 2 * State.reset.par.nmax) ∧
    (sel 0 65536 0).par.nmax ≤ (sel 0 65536 0).win.memidx.toNat ∧
    (sel 1 0 1024).par.pmax ≤ (sel 1 0 1024).win.memlane.toNat ∧
    (sel 2 65536 0).par.nmax ≤ (sel 2 65536 0).win.memidx.toNat ∧ (sel 3 0 0).win.memsel = 3 ∧
    2 * (sel 7 131072 0).par.nmax ≤ (sel 7 131072 0).win.memidx.toNat :=
  ⟨inv_reset, by decide +kernel, by decide +kernel, by decide +kernel, by decide +kernel, by decide +kernel,
    by decide +kernel, rfl, by decide +kernel⟩

/-- The last entry of a list, one index beyond it, the last position and one beyond it. -/
theorem witness_PropertyWindowShowsTheSelectedEntry :
    Inv (vr 0) ∧ (getProps (vr 0) 0).entries[1]? = some { loc := 102, mark := 1 } ∧
    (getProps (vr 0) 0).entries.length ≤ 2 ∧ 65535 < (vr 0).par.nmax ∧ (vr 0).par.nmax ≤ 65536 :=
  ⟨inv_vr 0, by decide +kernel, by decide +kernel, by decide +kernel, by decide +kernel⟩

theorem witness_EngineWaitsForTheHost :
    State.reset.par.wf = true ∧ State.reset.port = [] ∧ { tiny with pmax := 0 }.wf = false ∧
    { tiny with nmax := 131072 }.wf = false := by decide +kernel

theorem witness_CommandsWithoutInstanceRaiseNotReady :
    needsInstance (.nout 3) = true ∧ State.reset.ready = false := by decide +kernel

theorem witness_ClearErrClearsTheErrorOnly :
    Inv failed ∧ Inv s1 ∧ s1.error.err = false ∧ (2 : Word).toNat % 4 = 2 ∧ (0xFFFFFFFE : Word).toNat % 4 = 2 :=
  ⟨inv_failed, inv_s1, rfl, by decide, by decide⟩

theorem witness_ResetClearsEverything :
    failed.par.wf = true ∧ (3 : Word).toNat % 2 = 1 ∧ (0xFFFFFFFC : Word).toNat % 4 = 0 := by decide +kernel

theorem witness_HostAccessesWorkAlikeWhileErrorIsRecorded :
    State.reset.par.wf = true ∧ (0x0FC % 4 = 0 ∧ 0x0FC < 0x100 ∧ 0x0FC ∉ [0x008, 0x00C, 0x010, 0x014]) ∧
    step { State.reset with port := [.write 0x0FC 4 9] } = .next (setX State.reset 15 9) :=
  ⟨by decide +kernel, by decide, next_of_after (by decide +kernel)⟩

theorem witness_CommandsWriteOnlyTheirScalarRegister :
    exec (.fcard 3) f257 = .next (setXNat f257 3 257) ∧ scalarDest (.fcard 3) ≠ some 4 ∧
    scalarDest .prclra ≠ some 0 := ⟨rfl, by decide, by decide⟩

theorem witness_CommandsNeverWriteTheirInputs : exec (.fcard 3) f257 = .next (setXNat f257 3 257) := rfl

theorem witness_MemoriesAreWrittenOnlyByTheirCommands :
    exec (.pclr 1) f257 = .next (setPoly f257 1 []) ∧ polyDest (.pclr 1) ≠ some 0 ∧ writesObuf (.pclr 1) = false ∧
    writesProps (.pclr 1) = false := ⟨rfl, by decide, rfl, rfl⟩

theorem witness_ScalarResultsAreFieldElements :
    Inv f257 ∧ f257.ready = true ∧ exec (.fproot 3) f257 = .next (setXNat f257 3 3) ∧
    (setXNat f257 3 3).error = f257.error ∧ f257.error.err = false ∧ fieldResult (.fproot 3) = true ∧
    scalarDest (.fproot 3) = some 3 := ⟨inv_f257, rfl, rfl, rfl, rfl, rfl, rfl⟩

/-- A raw cell of 300 ≥ q = 257 is copied as it is (V-P), and reduced by a negation; an encode with an out-of-range value. -/
theorem witness_CommandsWriteReducedCells :
    Inv (polys [(3, 300)] []) ∧ ran (.pcopy 1 0) (polys [(3, 300)] []) = some (polys [(3, 300)] [(3, 300)]) ∧
    ran (.pneg 0) (polys [(3, 300)] []) = some (polys [(3, 214)] []) ∧
    Inv encIn ∧ encIn.q = 2 ^ (8 * encIn.wordSize) + 1 ∧
    exec .enc encIn = .next (encodeColumns encIn (codeColumns encIn [0])) :=
  ⟨inv_polyRaw, by decide +kernel, by decide +kernel, inv_encIn, by decide +kernel, next_of_ran (by decide +kernel)⟩

theorem witness_LoadImmediate : (0xFFFFF : Word).toNat < 2 ^ 20 := by decide

/-- With and without an instance; a negation of 0 and of a nonzero element. -/
theorem witness_FieldArithmetic :
    Inv f257 ∧ f257.ready = true ∧ Inv State.reset ∧ State.reset.ready = false ∧
    elemOp (ops f257 257 256) 1 = 0 ∧ elemOp (ops f257 257 256) 2 ≠ 0 :=
  ⟨inv_f257, rfl, inv_reset, rfl, by decide +kernel, by decide +kernel⟩

theorem witness_FieldDivision :
    Inv (ops f257 7 257) ∧ (ops f257 7 257).ready = true ∧ elemOp (ops f257 7 257) 2 = 0 ∧
    Inv (ops f257 7 256) ∧ elemOp (ops f257 7 256) 2 ≠ 0 :=
  ⟨inv_ops inv_f257 7 257, rfl, by decide +kernel, inv_ops inv_f257 7 256, by decide +kernel⟩

theorem witness_FieldInverse :
    Inv (ops f257 514 0) ∧ (ops f257 514 0).ready = true ∧ elemOp (ops f257 514 0) 1 = 0 ∧
    Inv (ops f257 1 0) ∧ elemOp (ops f257 1 0) 1 ≠ 0 :=
  ⟨inv_ops inv_f257 514 0, rfl, by decide +kernel, inv_ops inv_f257 1 0, by decide +kernel⟩

theorem witness_FieldExponentiation : Inv (ops f257 5 0xFFFFFFFF) ∧ (ops f257 5 0xFFFFFFFF).ready = true :=
  ⟨inv_ops inv_f257 5 0xFFFFFFFF, rfl⟩

theorem witness_FieldConstantsAndCodeLength : Inv w2 ∧ w2.ready = true ∧ Inv State.reset ∧ State.reset.ready = false :=
  ⟨inv_w2, rfl, inv_reset, rfl⟩

/-- n = 0, n = 512 (too large to divide), n = 256 and n = 1. -/
theorem witness_NthRootOfUnity :
    Inv f257 ∧ f257.ready = true ∧ intOp (ops f257 0 512) 1 = 0 ∧
    (f257.q - 1) % intOp (ops f257 0 512) 2 ≠ 0 ∧ intOp (ops f257 1 256) 2 ≠ 0 ∧
    (f257.q - 1) % intOp (ops f257 1 256) 2 = 0 ∧ (f257.q - 1) % intOp (ops f257 1 256) 1 = 0 :=
  ⟨inv_f257, rfl, by decide +kernel, by decide +kernel, by decide +kernel, by decide +kernel, by decide +kernel⟩

theorem witness_CodeLengthHighComposite :
    Inv f257 ∧ f257.ready = true ∧ intOp (ops f257 257 256) 1 > f257.q - 1 ∧ intOp (ops f257 257 256) 2 ≤ f257.q - 1 ∧
    intOp f257 0 ≤ f257.q - 1 :=
  ⟨inv_f257, rfl, by decide +kernel, by decide +kernel, by decide +kernel⟩

/-- The three cases: 257 is 0, 2 is a square, 3 is not. -/
theorem witness_JacobiSymbol :
    Inv f257 ∧ f257.ready = true ∧ elemOp (ops f257 257 2) 1 = 0 ∧ elemOp (ops f257 257 2) 2 ≠ 0 ∧
    elemOp (ops f257 257 2) 2 ^ ((f257.q - 1) / 2) % f257.q = 1 ∧ elemOp (ops f257 3 2) 1 ≠ 0 ∧
    elemOp (ops f257 3 2) 1 ^ ((f257.q - 1) / 2) % f257.q ≠ 1 :=
  ⟨inv_f257, rfl, by decide +kernel, by decide +kernel, by decide +kernel, by decide +kernel, by decide +kernel⟩

theorem witness_InstanceRootHasOrderN : Inv w2 ∧ w2.ready = true := ⟨inv_w2, rfl⟩

/-- The last degree of a register and the first beyond it. -/
theorem witness_PolynomialSetAndGet :
    Inv (ops f257 131072 131071) ∧ (ops f257 131072 131071).ready = true ∧
    intOp (ops f257 131072 131071) 1 ≥ f257.par.pcap ∧ intOp (ops f257 131072 131071) 2 < f257.par.pcap :=
  ⟨inv_ops inv_f257 131072 131071, rfl, by decide +kernel, by decide +kernel⟩

theorem coef_polyBig (j : Nat) : coef (polys [(65536, 1)] [(65535, 1)]) 0 j = if j = 65536 then 1 else 0 := by
  have h := read_terms (s := polys [(65536, 1)] [(65535, 1)]) (i := 0) (inv_polyBig.polys 0) j
  rw [← h, show terms (polys [(65536, 1)] [(65535, 1)]) 0 = [(65536, 1)] by decide +kernel, Memory.read_cons]
  rfl

/-- x^65536 has the degree 65536, and twice that is beyond the register. -/
theorem witness_PolynomialProduct_too_large :
    Inv (polys [(65536, 1)] [(65535, 1)]) ∧ (polys [(65536, 1)] [(65535, 1)]).ready = true ∧
    IsDeg (polys [(65536, 1)] [(65535, 1)]) 0 65536 ∧
    65536 + 65536 ≥ (polys [(65536, 1)] [(65535, 1)]).par.pcap := by
  refine ⟨inv_polyBig, rfl, ⟨?_, fun j hj => ?_⟩, by decide +kernel⟩
  · rw [coef_polyBig]; decide
  · rw [coef_polyBig, if_neg (by omega)]

/-- x^65536 · x^65535 just fits. -/
theorem witness_PolynomialProduct_fits :
    deg (polys [(65536, 1)] [(65535, 1)]) 0 = some 65536 ∧ deg (polys [(65536, 1)] [(65535, 1)]) 1 = some 65535 ∧
    productTooLarge (polys [(65536, 1)] [(65535, 1)]).par.pcap (some 65536) (some 65535) = false := by decide +kernel

theorem witness_PolynomialDerivativeAndNegation :
    Inv (polys [(0, 1), (1, 2), (2, 3)] [(0, 256), (1, 1)]) ∧
    (polys [(0, 1), (1, 2), (2, 3)] [(0, 256), (1, 1)]).ready = true ∧
    coef (polys [(0, 1), (1, 2), (2, 3)] [(0, 256), (1, 1)]) 0 1 ≠ 0 ∧
    coef (polys [(0, 1), (1, 2), (2, 3)] [(0, 256), (1, 1)]) 0 131071 = 0 :=
  ⟨inv_polys, rfl, by decide +kernel, by decide +kernel⟩

theorem witness_PolynomialEvaluation :
    Inv (polys [(0, 1), (1, 2), (2, 3)] [(0, 256), (1, 1)]) ∧ Inv State.reset ∧ State.reset.ready = false :=
  ⟨inv_polys, inv_reset, rfl⟩

theorem witness_PolynomialCopyAndClear :
    Inv (polys [(0, 1), (1, 2), (2, 3)] [(0, 256), (1, 1)]) ∧ Inv State.reset ∧ State.reset.ready = false :=
  ⟨inv_polys, inv_reset, rfl⟩

/-- Lane 0 and lane 2, position 3 and position 4 (beyond N) in one state. -/
theorem witness_ForwardTransform : Inv encIn ∧ encIn.ready = true ∧ encIn.n = 4 ∧ encIn.lanes = 3 :=
  ⟨inv_encIn, rfl, rfl, rfl⟩

theorem witness_InverseTransform : Inv encIn ∧ encIn.ready = true ∧ Inv State.reset ∧ State.reset.ready = false :=
  ⟨inv_encIn, rfl, inv_reset, rfl⟩

/-- `IBUF` of the second state holds what the transform of the first one wrote. -/
theorem witness_TransformsUndoEachOther :
    Inv s1 ∧ s1.ready = true ∧ ∃ t u, exec .fft s1 = .next t ∧ Inv u ∧ u.ready = true ∧ u.inst = s1.inst ∧
      ∀ p, p < s1.n → Grid.read u.ibuf p 0 = Grid.read t.obuf p 0 :=
  ⟨inv_s1, rfl, forwardLanes s1 [0], s1, rfl, inv_s1, rfl, rfl, by decide +kernel⟩

/-- The vector of V-T for `new 1, 3, 1, 1`. -/
theorem witness_TransformsOfVectorsUndoEachOther :
    Inv s1 ∧ s1.ready = true ∧ [1, 2, 3, 0].length = s1.n ∧ (∀ v ∈ [1, 2, 3, 0], v < s1.q) ∧
    forward s1.q s1.r s1.n [1, 2, 3, 0] = [6, 223, 2, 30] :=
  ⟨inv_s1, rfl, rfl, by decide +kernel, by decide +kernel⟩

/-- A staged construction. -/
def staged (par : Params) (ws k m p : Word) : State := { State.resetOf par with cfg := { ws := ws, k := k, m := m, p := p } }

/-- Every check of the construction at its boundary: the first value that fails it. -/
theorem witness_ConfigConstructsTheInstance_checks :
    faultAfter .config (staged Params.default 3 1 1 1) = some (1, 1, 0x40000000) ∧
    faultAfter .config (staged Params.default 2 0 1 1) = some (1, 2, 0x40000000) ∧
    faultAfter .config (staged Params.default 2 1 0 1) = some (1, 3, 0x40000000) ∧
    faultAfter .config (staged Params.default 2 1 1 1025) = some (1, 4, 0x40000000) ∧
    faultAfter .config (staged Params.default 1 256 1 1) = some (1, 5, 0x40000000) ∧
    faultAfter .config (staged { Params.default with nmax := 128 } 1 128 1 1) = some (1, 6, 0x40000000) ∧
    faultAfter .config (staged { Params.default with groot2 := 4 } 2 1 1 1) = some (2, 0, 0x40000000) := by
  decide +kernel

/-- And the last values that pass all of them. -/
theorem witness_ConfigConstructsTheInstance_passes :
    (staged Params.default 1 255 1 1024).par.wf = true ∧ 255 + 1 ≤ (2 ^ (8 * 1) + 1) - 1 ∧
    256 ≤ (staged Params.default 1 255 1 1024).par.nmax ∧
    (staged Params.default 1 255 1 1024).par.groot 1 ^ ((257 - 1) / 2) % 257 = 257 - 1 ∧
    instAfter .config (staged Params.default 1 255 1 1024) = some (256, 3, 257, true) := by decide +kernel

theorem transformSum_encIn : transformSum encIn encIn.k 0 0 = encIn.q - 1 := by
  rw [← forward_column encIn encIn.k 0 (by decide +kernel)]
  decide +kernel

theorem transformSum_full : transformSum full full.k 0 0 = full.q - 1 := by
  rw [← forward_column full full.k 0 (by decide +kernel)]
  decide +kernel

/-- An out-of-range value at position 0, with its list full and with its list empty. -/
theorem witness_ScalarEncode :
    Inv full ∧ full.ready = true ∧ transformSum full full.k 0 0 = full.q - 1 ∧
    (getProps full 0).entries.length = full.par.propcap ∧
    Inv encIn ∧ encIn.ready = true ∧ transformSum encIn encIn.k 0 0 = encIn.q - 1 ∧
    ∀ j, j < encIn.n → (getProps encIn j).entries.length ≠ encIn.par.propcap :=
  ⟨inv_full, rfl, transformSum_full, by decide +kernel, inv_encIn, rfl, transformSum_encIn, by decide +kernel⟩

theorem witness_PacketEncode :
    propsOverflow full (codeColumns full (packetLanes full)) = true ∧
    propsOverflow encIn (codeColumns encIn (packetLanes encIn)) = false := by decide +kernel

/-- An id that is N, two equal ids, distinct ids. -/
theorem witness_ScalarDecode :
    Inv decIn ∧ decIn.ready = true ∧ (∀ i, i < decIn.k → fragId decIn i < decIn.n) ∧
    (∀ i j, i < j → j < decIn.k → fragId decIn i ≠ fragId decIn j) ∧
    fragId { decIn with ids := idsOf [4, 0] } 0 ≥ decIn.n ∧
    fragId { decIn with ids := idsOf [3, 3] } 0 = fragId { decIn with ids := idsOf [3, 3] } 1 := by
  refine ⟨inv_decIn, rfl, by decide +kernel, fun i j hij hj => ?_, by decide +kernel, by decide +kernel⟩
  have hk : decIn.k = 2 := by decide +kernel
  have e : i = 0 ∧ j = 1 := by omega
  rw [e.1, e.2]
  decide +kernel

theorem witness_PacketDecode :
    Inv decIn ∧ decIn.ready = true ∧ decIn.lanes = 3 ∧ restored decIn 0 0 = decIn.q - 1 := by
  refine ⟨inv_decIn, rfl, rfl, ?_⟩
  rw [← receivedValue_eq]
  decide +kernel

/-- S3: the survivors 0 and 3 of what `ENC` wrote. -/
theorem witness_DecodeRecoversWhatEncodeWrote :
    Inv encIn ∧ encIn.ready = true ∧ encIn.prop = [] ∧
    ∃ t u, exec .enc encIn = .next t ∧ Inv u ∧ u.ready = true ∧ u.inst = encIn.inst ∧ u.par = encIn.par ∧
      u.offset = encIn.offset ∧ u.prop = t.prop ∧ (∀ i, i < encIn.k → fragId u i < encIn.n) ∧
      (∀ i j, i < j → j < encIn.k → fragId u i ≠ fragId u j) ∧
      (∀ i, i < encIn.k → Grid.read u.ibuf i 0 = Grid.read t.obuf (fragId u i) 0) := by
  refine ⟨inv_encIn, rfl, rfl, encodeColumns encIn (codeColumns encIn [0]), recIn, next_of_ran (by decide +kernel),
    inv_recIn, rfl, rfl, rfl, rfl, by decide +kernel, by decide +kernel, fun i j hij hj => ?_, by decide +kernel⟩
  have hk : encIn.k = 2 := by decide +kernel
  have e : i = 0 ∧ j = 1 := by omega
  rw [e.1, e.2]
  decide +kernel

theorem witness_DecodeHooks : s1.ready = true ∧ State.reset.ready = false := ⟨rfl, rfl⟩

/-- Position NMAX − 1 and NMAX, a full list and one that is not. -/
theorem witness_PropertyAdd :
    Inv (ops full 8 7) ∧ intOp (ops full 8 7) 1 ≥ full.par.nmax ∧ intOp (ops full 8 7) 2 < full.par.nmax ∧
    (getProps (ops full 8 7) 7).entries.length ≠ full.par.propcap ∧
    (getProps (ops full 8 7) 0).entries.length = full.par.propcap :=
  ⟨inv_ops inv_full 8 7, by decide +kernel, by decide +kernel, by decide +kernel, by decide +kernel⟩

/-- The current entry has the location asked for, or not, or there is none. -/
theorem witness_PropertyIsMarked :
    Inv (vr 100) ∧ (getProps (vr 100) 0).entries[(getProps (vr 100) 0).cursor]? = some { loc := 100, mark := 1 } ∧
    (getX (vr 100) 4).toNat * 2 ^ 32 + (getX (vr 100) 3).toNat = 100 ∧
    (getX (vr 102) 4).toNat * 2 ^ 32 + (getX (vr 102) 3).toNat ≠ 100 ∧
    (getProps full 0).entries[(getProps full 0).cursor]? = none :=
  ⟨inv_vr 100, by decide +kernel, by decide +kernel, by decide +kernel, by decide +kernel⟩

theorem witness_PropertyIteratorCommands :
    Inv (ops full 8 7) ∧ intOp (ops full 8 7) 1 ≥ full.par.nmax ∧ intOp (ops full 8 7) 2 < full.par.nmax ∧
    (getProps (vr 0) 0).cursor < (getProps (vr 0) 0).entries.length ∧
    (getProps full 0).cursor = (getProps full 0).entries.length :=
  ⟨inv_ops inv_full 8 7, by decide +kernel, by decide +kernel, by decide +kernel, by decide +kernel⟩

theorem witness_PropertyClearAllAndLength :
    Inv (ops full 8 7) ∧ intOp (ops full 8 7) 1 ≥ full.par.nmax ∧ intOp (ops full 8 7) 2 < full.par.nmax :=
  ⟨inv_ops inv_full 8 7, by decide +kernel, by decide +kernel⟩

theorem witness_ResetMeetsTheInvariant : tiny.wf = true := by decide +kernel

theorem witness_EveryStepKeepsTheInvariant :
    Inv State.reset ∧ step (State.reset.withFetchWord 32 0x01300005) = .next (setX State.reset 3 5) :=
  ⟨inv_reset, next_of_after (by decide +kernel)⟩

end

end Sys2Proof.Tests
end

section
/-! SUPPORT. The proofs of the statements on the state of the engine (10_state.md): the range invariants, what commands
may change, the registers of the window, reset. -/

namespace Sys2Proof.Machine

open Sys2Proof

/-! ### Results of a command -/

/-- The result of a command, when it is no error, satisfies `P`. -/
def Yields (P : State → Prop) (r : Except Err State) : Prop := ∀ u, r = .ok u → P u

section
variable {P : State → Prop} {s : State} {r : Except Err State}

theorem yields_ok {u : State} (h : P u) : Yields P (.ok u) := fun _ hu => by cases hu; exact h

theorem yields_error (e : Err) : Yields P (.error e) := fun _ hu => by cases hu

theorem yields_ite {c : Prop} [Decidable c] {r' : Except Err State} (h : c → Yields P r) (h' : ¬ c → Yields P r') :
    Yields P (if c then r else r') := by
  split
  · next hc => exact h hc
  · next hc => exact h' hc

/-- A check of a command: what follows it may assume that it passed. -/
theorem yields_check {c : Prop} [Decidable c] {e : Err} (h : ¬ c → Yields P r) :
    Yields P (if c then .error e else r) :=
  yields_ite (fun _ => yields_error e) h

theorem yields_whenReady (h : s.ready = true → Yields P r) : Yields P (whenReady s r) := fun u hu =>
  h (whenReady_ok hu).1 u (whenReady_ok hu).2

theorem yields_whenPosition {pos : Nat} (h : pos < s.par.nmax → Yields P r) : Yields P (whenPosition s pos r) :=
  fun u hu => h (whenPosition_ok hu).1 u (whenPosition_ok hu).2

/-- A command enters the fault or has what its result yields. -/
theorem yields_command {i : Instr} {t : State} (h : command i s r = .next t) (hr : Yields P r) :
    (∃ e, t = takeFault (encode i) e s) ∨ P t := by
  rcases command_next h with h | ⟨e, -, h⟩
  · exact .inr (hr t h)
  · exact .inl ⟨e, h⟩

end

/-! ### What a legal state's commands write (10_state.md R36, R37, R44) -/

/-- What a command makes of a legal state: a legal state, whose cells of `p` and `OBUF` are the old ones or below the
bounds of R44, but for the raw cells of `PCOPY`. -/
structure LegalWrite (i : Instr) (s t : State) : Prop where
  inv : Inv t
  poly : ∀ r j, Memory.read 0 (getPoly t r) j = Memory.read 0 (getPoly s r) j ∨
    (Memory.read 0 (getPoly t r) j).toNat < s.q ∨
    ∃ a, i = .pcopy r a ∧ Memory.read 0 (getPoly t r) j = Memory.read 0 (getPoly s a) j
  obuf : ∀ p l, Grid.read t.obuf p l = Grid.read s.obuf p l ∨ (Grid.read t.obuf p l).toNat < s.q
  encoded : i = .enc ∨ i = .encp → ∀ p l, Grid.read t.obuf p l = Grid.read s.obuf p l ∨
    (Grid.read t.obuf p l).toNat < 2 ^ (8 * s.wordSize)

/-- A command that writes neither a polynomial register nor `OBUF`. -/
theorem legalWrite_of_kept {i : Instr} {s t : State} (ht : Inv t) (hp : t.poly = s.poly) (ho : t.obuf = s.obuf) :
    LegalWrite i s t where
  inv := ht
  poly r j := .inl (by simp only [getPoly, hp])
  obuf p l := .inl (by rw [ho])
  encoded _ p l := .inl (by rw [ho])

section
variable {i : Instr} {s : State} (h : Inv s)
include h

theorem legalWrite_setX (d : XReg) (v : Word) : LegalWrite i s (setX s d v) :=
  legalWrite_of_kept (inv_setX h d v) rfl rfl

theorem legalWrite_setXNat (d : XReg) (v : Nat) : LegalWrite i s (setXNat s d v) := legalWrite_setX h d _

theorem legalWrite_self : LegalWrite i s s := legalWrite_of_kept h rfl rfl

theorem legalWrite_setProps {p : Nat} (hp : p < s.par.nmax) {l : PropList} (hl : l.len ≤ s.par.propcap)
    (hc : l.cursor ≤ l.len) : LegalWrite i s (setProps s p l) :=
  legalWrite_of_kept (inv_setProps h hp hl hc) rfl rfl

/-- The iterator commands keep the list and move its cursor inside it (44_property.md R222, R223). -/
theorem inv_setProps_advance {p : Nat} (hp : p < s.par.nmax) : Inv (setProps s p (getProps s p).advance) := by
  obtain ⟨hlen, hcur⟩ := getProps_legal h.prop p
  obtain ⟨hlen', hcur'⟩ := advance_legal hcur
  exact inv_setProps h hp (hlen'.trans_le hlen) (hcur'.trans_eq hlen'.symm)

theorem legalWrite_construct {u : State} {ws k m p : Nat} (hc : construct s ws k m p = .ok u) : LegalWrite i s u := by
  have hu := inv_construct h hc
  obtain ⟨-, -, -, -, -, -, -, -, rfl⟩ := construct_ok hc
  exact legalWrite_of_kept hu rfl rfl

/-! #### Polynomial registers -/

/-- A command that writes register `d`: its new cells are legal and each one is old, reduced or a raw copy. -/
theorem legalWrite_setPoly {d : PReg} {m : Memory Elem} (hm : polyLegal s.par m)
    (hc : ∀ j, Memory.read 0 m j = Memory.read 0 (getPoly s d) j ∨ (Memory.read 0 m j).toNat < s.q ∨
      ∃ a, i = .pcopy d a ∧ Memory.read 0 m j = Memory.read 0 (getPoly s a) j) : LegalWrite i s (setPoly s d m) where
  inv := inv_setPoly h hm
  poly r j := by
    by_cases hr : r = d
    · subst hr; rw [getPoly_setPoly_same]; exact hc j
    · rw [getPoly_setPoly_ne s d r m hr]; exact .inl rfl
  obuf _ _ := .inl rfl
  encoded _ _ _ := .inl rfl

theorem legalWrite_setPoly_reduced {d : PReg} {m : Memory Elem} (hm : polyLegal s.par m) (hc : reduced s.q m) :
    LegalWrite i s (setPoly s d m) := legalWrite_setPoly h hm fun j => .inr (.inl (hc j))

variable (hr : s.ready = true)
include hr

theorem toNat_ofNat_elem {v : Nat} (hv : v < s.q) : (BitVec.ofNat 17 v).toNat = v :=
  toNat_ofNat_lt (hv.trans_le (by have := q_bounds h hr; omega))

/-- R151: one cell takes a reduced value, the others stay. -/
theorem legalWrite_pset (d : PReg) {j v : Nat} (hj : j < s.par.pcap) (hv : v < s.q) :
    LegalWrite i s (setPoly s d (Memory.write 0 (getPoly s d) j (BitVec.ofNat 17 v))) := by
  refine legalWrite_setPoly h (polyLegal_write (h.polys d) hj _) fun k => ?_
  rw [Memory.read_write (h.polys d).1]
  split
  · exact .inr (.inl ((toNat_ofNat_elem h hr hv).trans_lt hv))
  · exact .inl rfl

/-- A register made of terms with rising degrees inside it and reduced coefficients. -/
theorem legalWrite_cellsOf (d : PReg) {ts : Memory Nat} (hts : (ts.map Prod.fst).Pairwise (· < ·))
    (hb : ∀ t ∈ ts, t.1 < s.par.pcap) (hv : ∀ j, Memory.read 0 ts j < s.q) :
    LegalWrite i s (setPoly s d (cellsOf ts)) := by
  refine legalWrite_setPoly_reduced h (polyLegal_cellsOf hts hb) fun j => ?_
  rw [read_cellsOf hts, toNat_ofNat_elem h hr (hv j)]
  exact hv j

theorem q_pos : 0 < s.q := (q_prime h hr).pos

theorem legalWrite_pmul (d a : PReg) (hfit : productTooLarge s.par.pcap (deg s d) (deg s a) = false) :
    LegalWrite i s (setPoly s d (productCells s.q (terms s d) (terms s a))) := by
  have hq := q_pos h hr
  have hq' : s.q ≤ 2 ^ 17 := by have := q_bounds h hr; omega
  exact legalWrite_setPoly_reduced h (polyLegal_product (h.polys d) (h.polys a) hq hq' hfit)
    (productCells_spec hq hq' _ _).2.1

theorem legalWrite_pder (d : PReg) : LegalWrite i s (setPoly s d (cellsOf (derivTerms s.q (terms s d)))) := by
  refine legalWrite_cellsOf h hr d (rising_derivTerms _ (rising_termsOf _ _ (h.polys d).1)) (fun t ht => ?_) fun j => ?_
  · obtain ⟨u, hu, hut⟩ := mem_derivTerms ht
    have := mem_terms_lt (q_pos h hr) hu
    omega
  · rw [read_derivTerms]
    exact Nat.mod_lt _ (q_pos h hr)

theorem legalWrite_pneg (d : PReg) :
    LegalWrite i s (setPoly s d (cellsOf ((terms s d).map fun t => (t.1, fneg s.q t.2)))) := by
  refine legalWrite_cellsOf h hr d ?_ (fun t ht => ?_) fun j => ?_
  · rw [List.map_map]
    exact rising_termsOf _ _ (h.polys d).1
  · obtain ⟨u, hu, rfl⟩ := List.mem_map.1 ht
    exact (mem_terms_lt (q_pos h hr) hu : u.1 < s.par.pcap)
  · rw [read_map_snd (fneg s.q) (by simp [fneg])]
    exact Nat.mod_lt _ (q_pos h hr)

theorem legalWrite_pclr (d : PReg) : LegalWrite i s (setPoly s d []) :=
  legalWrite_setPoly_reduced h ⟨Memory.wf_nil 0, by simp⟩ fun _ => q_pos h hr

omit hr in
/-- R157: the raw cells of another register are legal and are its cells. -/
theorem legalWrite_pcopy (d a : PReg) : LegalWrite (.pcopy d a) s (setPoly s d (getPoly s a)) :=
  legalWrite_setPoly h (h.polys a) fun _ => .inr (.inr ⟨a, rfl, rfl⟩)

/-! #### `OBUF` -/

omit h hr in
/-- Columns of values below a bound: every cell is old or below the bound. -/
theorem read_columns_lt {g : Grid} (hg : Grid.wf g) {lanes : List Nat} (hnd : lanes.Nodup) {col : Nat → List Nat}
    {b : Nat} (hb : b ≤ 2 ^ 17) (hc : ∀ l, ∀ v ∈ col l, v < b) (p l : Nat) :
    Grid.read (Grid.writeColumns g (lanes.map fun l => (l, col l))) p l = Grid.read g p l ∨
      (Grid.read (Grid.writeColumns g (lanes.map fun l => (l, col l))) p l).toNat < b := by
  rw [Grid.read_writeColumns hg lanes hnd]
  split
  · next hp =>
    have hv : (col l)[p] < b := hc l _ (List.getElem_mem hp.2)
    rw [List.getD_eq_getElem _ 0 hp.2, toNat_ofNat_lt (hv.trans_le hb)]
    exact .inr hv
  · exact .inl rfl

/-- A command that writes columns of at most N reduced values to lanes below P of `OBUF`, and is no encode. -/
theorem legalWrite_columns {lanes : List Nat} (hnd : lanes.Nodup) (hl : ∀ l ∈ lanes, l < s.lanes)
    {col : Nat → List Nat} (hn : ∀ l, (col l).length ≤ s.n) (hv : ∀ l, ∀ v ∈ col l, v < s.q)
    (hi : ¬ (i = .enc ∨ i = .encp)) :
    LegalWrite i s { s with obuf := Grid.writeColumns s.obuf (lanes.map fun l => (l, col l)) } where
  inv := inv_obuf h (legal_columns h hr hl hn)
  poly _ _ := .inl rfl
  obuf := read_columns_lt h.obuf.1 hnd (by have := q_bounds h hr; omega) hv
  encoded he := absurd he hi

theorem legalWrite_forwardLanes {lanes : List Nat} (hnd : lanes.Nodup) (hl : ∀ l ∈ lanes, l < s.lanes)
    (hi : ¬ (i = .enc ∨ i = .encp)) : LegalWrite i s (forwardLanes s lanes) :=
  legalWrite_columns h hr hnd hl (fun _ => (length_forward ..).le) (fun _ => forward_lt (q_pos h hr) _ _ _) hi

theorem legalWrite_inverseLanes {lanes : List Nat} (hnd : lanes.Nodup) (hl : ∀ l ∈ lanes, l < s.lanes)
    (hi : ¬ (i = .enc ∨ i = .encp)) : LegalWrite i s (inverseLanes s lanes) :=
  legalWrite_columns h hr hnd hl (fun _ => (length_inverse ..).le) (fun _ => inverse_lt (q_pos h hr) _ _ _) hi

theorem yields_decodeLanes {lanes : List Nat} (hnd : lanes.Nodup) (hl : ∀ l ∈ lanes, l < s.lanes)
    (hi : ¬ (i = .enc ∨ i = .encp)) : Yields (LegalWrite i s) (decodeLanes s lanes) := fun u hu => by
  obtain ⟨-, -, rfl⟩ := decodeLanes_ok hu
  refine legalWrite_columns h hr hnd hl (col := fun l => recovered s l (fragIds s)) (fun l => ?_)
    (fun _ => lagrange_lt (q_pos h hr) _ _ _) hi
  have := k_bounds h hr
  rw [length_recovered]
  omega

/-- A stored code value fits the 8·WS bits of a word (R189 (c)): of the field elements only q − 1 does not. -/
theorem storedValue_lt {v : Nat} (hv : v < s.q) : storedValue s v < 2 ^ (8 * s.wordSize) := by
  have hq : s.q = 2 ^ (8 * s.wordSize) + 1 := q_eq h hr
  unfold storedValue isOor
  split
  · exact Nat.two_pow_pos _
  · next hne =>
    have : v ≠ s.q - 1 := by simpa using hne
    omega

omit h hr in
theorem storedColumns_eq (s : State) (lanes : List Nat) :
    (codeColumns s lanes).map (fun c => (c.1, c.2.map (storedValue s))) =
      lanes.map fun l => (l, (codeValues s l).map (storedValue s)) := by
  rw [codeColumns, List.map_map]
  rfl

/-- R190, R191: an encode that passed its capacity check. -/
theorem yields_encodeLanes {lanes : List Nat} (hnd : lanes.Nodup) (hl : ∀ l ∈ lanes, l < s.lanes) :
    Yields (LegalWrite i s) (encodeLanes s lanes) := fun u hu => by
  obtain ⟨hcap, rfl⟩ := encodeLanes_ok hu
  have hq : s.q = 2 ^ (8 * s.wordSize) + 1 := q_eq h hr
  have hb := q_bounds h hr
  have hob : (encodeColumns s (codeColumns s lanes)).obuf =
      Grid.writeColumns s.obuf (lanes.map fun l => (l, (codeValues s l).map (storedValue s))) := by
    rw [encodeColumns, storedColumns_eq]
  have hlegal : Grid.legal s.par (encodeColumns s (codeColumns s lanes)).obuf := by
    rw [hob]
    exact legal_columns h hr hl fun l => by simp
  have hcell : ∀ p l, Grid.read (encodeColumns s (codeColumns s lanes)).obuf p l = Grid.read s.obuf p l ∨
      (Grid.read (encodeColumns s (codeColumns s lanes)).obuf p l).toNat < 2 ^ (8 * s.wordSize) := by
    rw [hob]
    refine read_columns_lt h.obuf.1 hnd (by omega) fun l v hv => ?_
    obtain ⟨w, hw, rfl⟩ := List.mem_map.1 hv
    exact storedValue_lt h hr (forward_lt (q_pos h hr) _ _ _ w hw)
  exact
    { inv := inv_props (inv_obuf h hlegal) (propLegal_encode h.prop (n_bounds h hr).2.2 hcap)
      poly := fun _ _ => .inl rfl
      obuf := fun p l => (hcell p l).imp_right fun hlt => by omega
      encoded := fun _ => hcell }

end

/-! ### Every command keeps a legal state legal -/

theorem yields_config {s : State} (h : Inv s) (ws k m p : Nat) :
    Yields (LegalWrite .config s) (construct s ws k m p) := fun _ hu => legalWrite_construct h hu

/-- R221: the list that takes an entry was not full. -/
theorem legalWrite_pradd {i : Instr} {s : State} (h : Inv s) {p : Nat} (hp : p < s.par.nmax)
    (hfull : ¬ (getProps s p).len ≥ s.par.propcap) (loc : Loc) (mark : Mark) :
    LegalWrite i s (setProps s p ((getProps s p).append loc mark)) := by
  obtain ⟨-, hcur⟩ := getProps_legal h.prop p
  have hlen : ((getProps s p).append loc mark).len = (getProps s p).len + 1 := by simp [PropList.len, PropList.append]
  exact legalWrite_setProps h hp (by omega) (hlen ▸ Nat.le_succ_of_le hcur)

/-- What a command does to a legal state. -/
theorem exec_legal {i : Instr} {s t : State} (h : Inv s) (he : exec i s = .next t) : LegalWrite i s t := by
  have fault : ∀ e, LegalWrite i s (takeFault (encode i) e s) := fun e =>
    legalWrite_of_kept (inv_takeFault h _ e) rfl rfl
  have of_result : ∀ {r}, command i s r = .next t → Yields (LegalWrite i s) r → LegalWrite i s t := fun hc hr => by
    rcases yields_command hc hr with ⟨e, rfl⟩ | ht
    · exact fault e
    · exact ht
  have scalar : ∀ {d v}, Yields (LegalWrite i s) (.ok (setXNat s d v)) := yields_ok (legalWrite_setXNat h _ _)
  have lane0 : s.ready = true → ∀ l ∈ [0], l < s.lanes := zero_lt_lanes h
  have lanesP : ∀ l ∈ packetLanes s, l < s.lanes := fun l => (mem_packetLanes s l).1
  cases i with
  | li d imm => cases he; exact legalWrite_setX h d imm
  | fadd d a b => exact of_result he (yields_whenReady fun _ => scalar)
  | fsub d a b => exact of_result he (yields_whenReady fun _ => scalar)
  | fmul d a b => exact of_result he (yields_whenReady fun _ => scalar)
  | fdiv d a b => exact of_result he (yields_whenReady fun _ => yields_check fun _ => scalar)
  | finv d a => exact of_result he (yields_whenReady fun _ => yields_check fun _ => scalar)
  | fexp d a b => exact of_result he (yields_whenReady fun _ => scalar)
  | fneg d a => exact of_result he (yields_whenReady fun _ => scalar)
  | fcard d => exact of_result he (yields_whenReady fun _ => scalar)
  | fproot d => exact of_result he (yields_whenReady fun _ => scalar)
  | fnroot d a => exact of_result he (yields_whenReady fun _ => yields_check fun _ => scalar)
  | fclhc d a => exact of_result he (yields_whenReady fun _ => yields_check fun _ => scalar)
  | fjac d a => exact of_result he (yields_whenReady fun _ => yields_ok (legalWrite_setX h _ _))
  | pset d a b =>
    exact of_result he (yields_whenReady fun hr => yields_check fun hlt =>
      yields_ok (legalWrite_pset h hr d (Nat.lt_of_not_ge hlt) (elemOp_lt h hr b)))
  | pget d a b => exact of_result he (yields_whenReady fun _ => scalar)
  | pmul d a =>
    exact of_result he (yields_whenReady fun hr => yields_check fun hfit =>
      yields_ok (legalWrite_pmul h hr d a (Bool.eq_false_of_not_eq_true hfit)))
  | pder d => exact of_result he (yields_whenReady fun hr => yields_ok (legalWrite_pder h hr d))
  | pneg d => exact of_result he (yields_whenReady fun hr => yields_ok (legalWrite_pneg h hr d))
  | peval d a b => exact of_result he (yields_whenReady fun _ => scalar)
  | pcopy d a => exact of_result he (yields_whenReady fun _ => yields_ok (legalWrite_pcopy h d a))
  | pclr d => exact of_result he (yields_whenReady fun hr => yields_ok (legalWrite_pclr h hr d))
  | fft =>
    exact of_result he (yields_whenReady fun hr =>
      yields_ok (legalWrite_forwardLanes h hr (List.nodup_singleton 0) (lane0 hr) (by decide)))
  | ifft =>
    exact of_result he (yields_whenReady fun hr =>
      yields_ok (legalWrite_inverseLanes h hr (List.nodup_singleton 0) (lane0 hr) (by decide)))
  | fftp =>
    exact of_result he (yields_whenReady fun hr =>
      yields_ok (legalWrite_forwardLanes h hr (nodup_packetLanes s) lanesP (by decide)))
  | ifftp =>
    exact of_result he (yields_whenReady fun hr =>
      yields_ok (legalWrite_inverseLanes h hr (nodup_packetLanes s) lanesP (by decide)))
  | config => exact of_result he (yields_config h _ _ _ _)
  | nout d => exact of_result he (yields_whenReady fun _ => scalar)
  | enc =>
    exact of_result he (yields_whenReady fun hr => yields_encodeLanes h hr (List.nodup_singleton 0) (lane0 hr))
  | encp => exact of_result he (yields_whenReady fun hr => yields_encodeLanes h hr (nodup_packetLanes s) lanesP)
  | dec =>
    exact of_result he (yields_whenReady fun hr =>
      yields_decodeLanes h hr (List.nodup_singleton 0) (lane0 hr) (by decide))
  | decp =>
    exact of_result he (yields_whenReady fun hr =>
      yields_decodeLanes h hr (nodup_packetLanes s) lanesP (by decide))
  | daddd => exact of_result he (yields_whenReady fun _ => yields_error _)
  | daddp => exact of_result he (yields_whenReady fun _ => yields_ok (legalWrite_self h))
  | dbuild => exact of_result he (yields_whenReady fun _ => yields_ok (legalWrite_self h))
  | pradd d a b c =>
    exact of_result he (yields_whenPosition fun hp => yields_check fun hfull =>
      yields_ok (legalWrite_pradd h hp hfull _ _))
  | prmk d a b c =>
    exact of_result he (yields_whenPosition fun hp => yields_ite
      (fun _ => yields_ok (legalWrite_of_kept (inv_setX (inv_setProps_advance h hp) d _) rfl rfl)) fun _ => scalar)
  | prnext a =>
    exact of_result he (yields_whenPosition fun hp =>
      yields_ok (legalWrite_of_kept (inv_setProps_advance h hp) rfl rfl))
  | prrew a =>
    exact of_result he (yields_whenPosition fun hp =>
      yields_ok (legalWrite_setProps h hp (getProps_legal h.prop _).1 (Nat.zero_le _)))
  | prclr a =>
    exact of_result he (yields_whenPosition fun hp =>
      yields_ok (legalWrite_setProps h hp (Nat.zero_le _) (Nat.zero_le _)))
  | prclra =>
    cases he
    exact legalWrite_of_kept (inv_props h ⟨Memory.wf_nil emptyProps, by simp⟩) rfl rfl
  | prlen d a => exact of_result he (yields_whenPosition fun _ => scalar)

/-- Settles O58: the cell bounds of what a command does to a legal state. -/
theorem commandsWriteReducedCells : Obligations.CommandsWriteReducedCells := by
  intro i s t h he
  obtain ⟨-, hpoly, hobuf, henc⟩ := exec_legal h he
  exact ⟨hpoly, hobuf, henc⟩

/-! ### Every step keeps the invariant -/

theorem getPoly_resetOf (c : Params) (i : PReg) : getPoly (State.resetOf c) i = [] := by
  simp [getPoly, State.resetOf]

/-- The reset state of legal parameters: nothing is listed anywhere, `READY` and `ERR` are 0. -/
theorem inv_resetOf {c : Params} (h : c.wf = true) : Inv (State.resetOf c) := by
  have hgrid : Grid.legal c [] := ⟨⟨Memory.wf_nil [], by simp⟩, by simp⟩
  refine ⟨h, ⟨fun hr => Bool.noConfusion hr, fun _ => rfl⟩, ⟨fun _ => rfl, fun he => Bool.noConfusion he⟩, fun i => ?_,
    hgrid, hgrid, ⟨Memory.wf_nil 0, by simp [State.resetOf]⟩, ⟨Memory.wf_nil emptyProps, by simp [State.resetOf]⟩⟩
  rw [getPoly_resetOf]
  exact ⟨Memory.wf_nil 0, by simp⟩

theorem wf_default : Params.default.wf = true := by decide

/-- Settles O56: the defaults of R7 are legal parameters, and the reset state of legal parameters is legal. -/
theorem resetMeetsTheInvariant : Obligations.ResetMeetsTheInvariant :=
  ⟨inv_resetOf wf_default, fun _ => inv_resetOf⟩

section
variable {s : State} (h : Inv s)
include h

/-- A write to `CTRL` resets the engine, clears the error, or does nothing. -/
theorem inv_writeCtrl (v : Word) : Inv (writeCtrl s v) := by
  unfold writeCtrl
  split
  · exact inv_resetOf h.params
  · split
    · exact inv_clearFault h
    · exact h

/-- Of the registers a host write reaches, only `CTRL` and the data window are parts of the invariant. -/
theorem inv_writeReg (v : Word) (reg : WinReg) : Inv (writeReg s v reg) := by
  cases reg with
  | ctrl => exact inv_writeCtrl h v
  | memdata => exact inv_writeMemdata h v
  | _ => exact h

theorem inv_runWord {w : Word} {t : State} (hw : runWord w s = .next t) : Inv t := by
  cases herr : s.error.err with
  | true => rw [runWord_ignored herr] at hw; cases hw; exact h
  | false =>
    cases hd : decode w with
    | ok i => rw [runWord_decoded herr hd] at hw; exact (exec_legal h hw).inv
    | error x => rw [runWord_illegal herr hd] at hw; cases hw; exact inv_takeFault h _ _

theorem inv_serveWrite {reg : WinReg} {v : Word} {t : State} (hw : serveWrite reg v s = .next t) : Inv t := by
  unfold serveWrite at hw
  split at hw
  · exact inv_runWord h hw
  · cases hw; exact inv_writeReg h v reg

theorem inv_serve {e : HostEvent} {t : State} (hs : serve e s = .next t) : Inv t := by
  cases e with
  | read off size =>
    simp only [serve] at hs
    split at hs <;> cases hs
    exact h
  | write off size v =>
    simp only [serve] at hs
    split at hs
    · exact inv_serveWrite h hs
    · cases hs
  | hardReset => cases hs; exact inv_resetOf h.params

end

/-- Settles O57: a step waits or serves one host event; the port it is taken from is no part of the invariant. -/
theorem everyStepKeepsTheInvariant : Obligations.EveryStepKeepsTheInvariant := by
  intro s t h hstep
  cases hp : s.port with
  | nil =>
    rw [step, stepOnce_nil h.params hp] at hstep
    cases hstep
    exact h
  | cons e rest =>
    rw [step, stepOnce_cons h.params hp] at hstep
    have htaken : Inv { s with port := rest } := h
    exact inv_serve htaken hstep

/-! ### What commands may change -/

/-- Settles O23: of what a command can do, only the write of its scalar destination touches a scalar register. -/
theorem commandsWriteOnlyTheirScalarRegister : Obligations.CommandsWriteOnlyTheirScalarRegister := by
  intro i s t r h hr
  rcases exec_effect h with ⟨e, rfl⟩ | ⟨-, ri, rfl⟩ | ⟨d, v, pr, hd, rfl, -⟩ | ⟨d, m, -, rfl⟩ | ⟨-, ob, pr, rfl, -, -⟩
  · rfl
  · rfl
  · exact getX_setX_ne s d r v fun e => hr (e ▸ hd)
  · rfl
  · rfl

/-- Settles O24: no effect of a command reaches the inputs, and only a construction reaches `READY` and the
eight values of R31. -/
theorem commandsNeverWriteTheirInputs : Obligations.CommandsNeverWriteTheirInputs := by
  intro i s t h
  rcases exec_effect h with ⟨e, rfl⟩ | ⟨hi, ri, rfl⟩ | ⟨d, v, pr, -, rfl, -⟩ | ⟨d, m, -, rfl⟩ | ⟨-, ob, pr, rfl, -, -⟩
  · exact ⟨rfl, rfl, rfl, rfl, rfl, rfl, rfl, rfl, fun _ => ⟨rfl, rfl⟩⟩
  · exact ⟨rfl, rfl, rfl, rfl, rfl, rfl, rfl, rfl, fun hne => absurd hi hne⟩
  · exact ⟨rfl, rfl, rfl, rfl, rfl, rfl, rfl, rfl, fun _ => ⟨rfl, rfl⟩⟩
  · exact ⟨rfl, rfl, rfl, rfl, rfl, rfl, rfl, rfl, fun _ => ⟨rfl, rfl⟩⟩
  · exact ⟨rfl, rfl, rfl, rfl, rfl, rfl, rfl, rfl, fun _ => ⟨rfl, rfl⟩⟩

/-- Settles O25: each memory is reached by the effects of its own commands only. -/
theorem memoriesAreWrittenOnlyByTheirCommands : Obligations.MemoriesAreWrittenOnlyByTheirCommands := by
  intro i s t h
  rcases exec_effect h with ⟨e, rfl⟩ | ⟨-, ri, rfl⟩ | ⟨d, v, pr, -, rfl, hpr⟩ | ⟨d, m, hd, rfl⟩ |
    ⟨-, ob, pr, rfl, hob, hpr⟩
  · exact ⟨fun _ _ => rfl, fun _ => rfl, fun _ => rfl⟩
  · exact ⟨fun _ _ => rfl, fun _ => rfl, fun _ => rfl⟩
  · exact ⟨fun _ _ => rfl, fun _ => rfl, hpr⟩
  · exact ⟨fun r hr => getPoly_setPoly_ne s d r m fun e => hr (e ▸ hd), fun _ => rfl, fun _ => rfl⟩
  · exact ⟨fun _ _ => rfl, hob, hpr⟩

/-! ### Scalar results (10_state.md R23) -/

section
variable {s : State} (h : Inv s) (hr : s.ready = true)
include h hr

theorem g_lt : s.g < s.q := by
  rw [g_eq h hr, q_eq h hr]
  exact (groot_lt h.params (inst_ws h hr)).2

/-- A field element written to a scalar register is there as it is. -/
theorem yields_scalar_lt {d : XReg} {v : Nat} (hv : v < s.q) :
    Yields (fun u => (getX u d).toNat < s.q) (.ok (setXNat s d v)) := by
  refine yields_ok ?_
  have := q_bounds h hr
  rwa [getX_setXNat_same, toNat_ofNat_lt (by omega)]

/-- What a command with a field result writes to its destination, unless it faults. -/
theorem fieldResult_lt {i : Instr} {t : State} {d : XReg} (hf : fieldResult i = true) (hd : scalarDest i = some d)
    (he : exec i s = .next t) : (∃ e, t = takeFault (encode i) e s) ∨ (getX t d).toNat < s.q := by
  have hq := q_pos h hr
  cases i with
  | fadd _ a b => cases hd; exact yields_command he (yields_whenReady fun _ => yields_scalar_lt h hr (Nat.mod_lt _ hq))
  | fsub _ a b => cases hd; exact yields_command he (yields_whenReady fun _ => yields_scalar_lt h hr (Nat.mod_lt _ hq))
  | fmul _ a b => cases hd; exact yields_command he (yields_whenReady fun _ => yields_scalar_lt h hr (Nat.mod_lt _ hq))
  | fdiv _ a b =>
    cases hd
    exact yields_command he (yields_whenReady fun _ => yields_check fun _ => yields_scalar_lt h hr (Nat.mod_lt _ hq))
  | finv _ a =>
    cases hd
    exact yields_command he (yields_whenReady fun _ => yields_check fun _ => yields_scalar_lt h hr (fpow_lt hq _ _))
  | fexp _ a b => cases hd; exact yields_command he (yields_whenReady fun _ => yields_scalar_lt h hr (fpow_lt hq _ _))
  | fneg _ a => cases hd; exact yields_command he (yields_whenReady fun _ => yields_scalar_lt h hr (Nat.mod_lt _ hq))
  | fproot _ => cases hd; exact yields_command he (yields_whenReady fun _ => yields_scalar_lt h hr (g_lt h hr))
  | fnroot _ a =>
    cases hd
    exact yields_command he (yields_whenReady fun _ => yields_check fun _ => yields_scalar_lt h hr (fpow_lt hq _ _))
  | pget _ a b => cases hd; exact yields_command he (yields_whenReady fun _ => yields_scalar_lt h hr (coef_lt hq _ _))
  | peval _ a b =>
    cases hd
    exact yields_command he (yields_whenReady fun _ => yields_scalar_lt h hr (evalTerms_lt hq _ _))
  | _ => cases hf

end

/-- Settles O26: a command that left the error registers clear did not fault, so its result is a field element. -/
theorem scalarResultsAreFieldElements : Obligations.ScalarResultsAreFieldElements := by
  intro i s t d h hr he herr hclear hf hd
  rcases fieldResult_lt h hr hf hd he with ⟨e, rfl⟩ | hlt
  · rw [← herr] at hclear
    exact Bool.noConfusion hclear
  · exact hlt

/-! ### A command's word on the port -/

/-- A write of a command's word to `CMD`, taken from the port, runs the command. -/
theorem step_commandEvent {s : State} {w : Word} {i : Instr} {rest : List HostEvent} (hp : s.par.wf = true)
    (hport : s.port = commandEvent w :: rest) (herr : s.error.err = false) (hd : decode w = .ok i) :
    step s = exec i { s with port := rest } := by
  rw [step_write hp hport rfl]
  exact runWord_decoded (s := { s with port := rest }) herr hd

/-- Settles O5: a write at the offset of `CMD` is the event of its word. -/
theorem stepRunsTheDecodedCommand : Obligations.StepRunsTheDecodedCommand :=
  fun _ _ _ _ hp hport herr hd => step_commandEvent hp hport herr hd

theorem decode_of_decodeTableWord {n w : Nat} {i : Instr} (h : decodeTableWord n w = some i) :
    decode (BitVec.ofNat 32 w) = .ok i := by
  unfold decodeTableWord at h
  split at h
  · cases hd : decode (BitVec.ofNat 32 w) with
    | ok j => rw [hd] at h; cases h; rfl
    | error x => rw [hd] at h; cases h
  · cases h

/-- Without a recorded error, placing a word only puts its event at the head of the port. -/
theorem withFetchWord_eq {s : State} (herr : s.error.err = false) (n w : Nat) :
    s.withFetchWord n w = { s with port := commandEvent (BitVec.ofNat 32 w) :: s.port } := by
  simp [State.withFetchWord, herr]

/-- Settles O6: the placed event is taken again, so the command runs on the state as it was. -/
theorem placedWordRunsNext : Obligations.PlacedWordRunsNext := by
  intro s n i w hp herr hw
  rw [withFetchWord_eq herr,
    step_commandEvent (s := { s with port := commandEvent (BitVec.ofNat 32 w) :: s.port }) hp rfl herr
      (decode_of_decodeTableWord hw)]

/-! ### The plain registers of the window (10_state.md R27) -/

theorem winRegAt_xreg (i : XReg) : winRegAt (0x0C0 + 4 * i.val) = .xreg i := by
  revert i; decide

theorem admitted_xreg (i : XReg) : admitted (0x0C0 + 4 * i.val) 4 = true :=
  admitted_of_aligned (by omega) (by omega)

/-- The register at an admitted offset reads as the number `v`. -/
def ShowsAt (s : State) (off v : Nat) : Prop := admitted off 4 = true ∧ (readReg s (winRegAt off)).toNat = v

/-- The register at an admitted offset shows a piece of state of at most 32 bits, zero-extended. -/
theorem showsAt_setWidth {s : State} {off w : Nat} (v : BitVec w) (ha : admitted off 4 = true) (hw : w ≤ 32)
    (hv : readReg s (winRegAt off) = v.setWidth 32) : ShowsAt s off v.toNat :=
  ⟨ha, by rw [hv, BitVec.toNat_setWidth_of_le hw]⟩

theorem showsAt_xreg (s : State) (i : XReg) : ShowsAt s (0x0C0 + 4 * i.val) (getX s i).toNat :=
  ⟨admitted_xreg i, by rw [winRegAt_xreg]; rfl⟩

/-- A read at an offset of a table whose rows all show their value. -/
theorem step_of_showsAt {s : State} {off v : Nat} {rest : List HostEvent} {table : List (Nat × Nat)}
    (hp : s.par.wf = true) (hport : s.port = .read off 4 :: rest) (hmem : (off, v) ∈ table)
    (hall : ∀ row ∈ table, ShowsAt s row.1 row.2) :
    step s = .next { s with port := rest, reads := s.reads ++ [BitVec.ofNat 32 v] } ∧ v < 2 ^ 32 := by
  obtain ⟨ha, rfl⟩ : ShowsAt s off v := hall _ hmem
  rw [step_read hp hport ha, BitVec.ofNat_toNat, BitVec.setWidth_eq]
  exact ⟨rfl, (readReg s (winRegAt off)).isLt⟩

/-- Settles O10, row by row of the window's table: full words, narrower values, halves of `OFFSET`, parameters. -/
theorem registersReadTheirState : Obligations.RegistersReadTheirState := by
  intro s off v rest hp hport hmem
  have hnmax : s.par.nmax < 2 ^ 32 := by have := nmax_le hp; omega
  have word : ∀ {o : Nat} (x : Word), admitted o 4 = true → readReg s (winRegAt o) = x → ShowsAt s o x.toNat :=
    fun _ ha hx => ⟨ha, hx ▸ rfl⟩
  have narrow : ∀ {o w : Nat} (x : BitVec w), admitted o 4 = true → w ≤ 32 →
      readReg s (winRegAt o) = x.setWidth 32 → ShowsAt s o x.toNat := showsAt_setWidth
  refine step_of_showsAt hp hport hmem ?_
  simp only [List.forall_mem_append, List.forall_mem_cons, List.forall_mem_map]
  exact ⟨⟨⟨narrow s.error.code rfl (by decide) rfl,
        word s.error.info rfl rfl, word s.error.cmd rfl rfl,
        word s.cfg.ws rfl rfl, word s.cfg.k rfl rfl, word s.cfg.m rfl rfl, word s.cfg.p rfl rfl,
        narrow s.inst.ws rfl (by decide) rfl,
        narrow s.inst.k rfl (by decide) rfl,
        narrow s.inst.m rfl (by decide) rfl,
        word s.inst.p rfl rfl,
        narrow s.inst.q rfl (by decide) rfl,
        narrow s.inst.g rfl (by decide) rfl,
        narrow s.inst.n rfl (by decide) rfl,
        narrow s.inst.r rfl (by decide) rfl,
        List.forall_mem_nil _⟩,
      ⟨rfl, low_toNat s.offset⟩, ⟨rfl, high_toNat s.offset⟩,
      narrow s.win.memsel rfl (by decide) rfl,
      word s.win.memlane rfl rfl, word s.win.memidx rfl rfl, word s.win.prsel rfl rfl, word s.win.pridx rfl rfl,
      ⟨rfl, toNat_ofNat_lt hnmax⟩, ⟨rfl, toNat_ofNat_lt (pmax_lt hp).2⟩, ⟨rfl, toNat_ofNat_lt (propcap_lt hp).2⟩,
      List.forall_mem_nil _⟩,
    fun i _ => showsAt_xreg s i⟩

/-- A write of `v` at an admitted offset, not that of `CMD`, makes `t` of `s`, whatever waits on the port. -/
def StoresAt (s : State) (v : Word) (off : Nat) (t : State) : Prop :=
  admitted off 4 = true ∧ winRegAt off ≠ .cmd ∧
    ∀ rest, writeReg { s with port := rest } v (winRegAt off) = { t with port := rest }

/-- A write at an offset of a table whose rows all store it. -/
theorem step_of_storesAt {s t : State} {off : Nat} {v : Word} {rest : List HostEvent} {table : List (Nat × State)}
    (hp : s.par.wf = true) (hport : s.port = .write off 4 v :: rest) (hmem : (off, t) ∈ table)
    (hall : ∀ row ∈ table, StoresAt s v row.1 row.2) : step s = .next { t with port := rest } := by
  obtain ⟨ha, hc, hw⟩ := hall _ hmem
  rw [step_writeReg hp hport ha hc, hw]

/-- Writing the low half of `OFFSET` keeps the high half (10_state.md R33). -/
theorem offsetLo_eq (o : Loc) (v : Word) :
    (o.extractLsb' 32 32 ++ v : Loc) = BitVec.ofNat 64 (o.toNat / 2 ^ 32 * 2 ^ 32 + v.toNat) := by
  apply BitVec.eq_of_toNat_eq
  have ho := o.isLt
  have hv := v.isLt
  rw [append_toNat, high_toNat, toNat_ofNat_lt (by omega)]

/-- Writing the high half of `OFFSET` keeps the low half (10_state.md R33). -/
theorem offsetHi_eq (o : Loc) (v : Word) :
    (v ++ o.extractLsb' 0 32 : Loc) = BitVec.ofNat 64 (v.toNat * 2 ^ 32 + o.toNat % 2 ^ 32) := by
  apply BitVec.eq_of_toNat_eq
  have ho := o.isLt
  have hv := v.isLt
  rw [append_toNat, low_toNat, toNat_ofNat_lt (by omega)]

theorem storesAt_offsetLo (s : State) (v : Word) :
    StoresAt s v 0x050 { s with offset := BitVec.ofNat 64 (s.offset.toNat / 2 ^ 32 * 2 ^ 32 + v.toNat) } :=
  ⟨rfl, by decide, fun _ => by rw [← offsetLo_eq]; rfl⟩

theorem storesAt_offsetHi (s : State) (v : Word) :
    StoresAt s v 0x054 { s with offset := BitVec.ofNat 64 (v.toNat * 2 ^ 32 + s.offset.toNat % 2 ^ 32) } :=
  ⟨rfl, by decide, fun _ => by rw [← offsetHi_eq]; rfl⟩

theorem storesAt_memsel (s : State) (v : Word) :
    StoresAt s v 0x060 { s with win := { s.win with memsel := BitVec.ofNat 3 v.toNat } } :=
  ⟨rfl, by decide, fun _ => by rw [BitVec.ofNat_toNat]; rfl⟩

theorem storesAt_xreg (s : State) (v : Word) (i : XReg) :
    StoresAt s v (0x0C0 + 4 * i.val) { s with x := s.x.set i.val v i.isLt } := by
  refine ⟨admitted_xreg i, ?_, fun rest => ?_⟩
  · rw [winRegAt_xreg]; exact WinReg.noConfusion
  · rw [winRegAt_xreg]; rfl

/-- Settles O11, row by row of the window's table. -/
theorem plainRegistersStoreTheWrite : Obligations.PlainRegistersStoreTheWrite := by
  intro s off v rest t hp hport hmem
  refine step_of_storesAt hp hport hmem ?_
  simp only [List.forall_mem_append, List.forall_mem_cons, List.forall_mem_map]
  exact ⟨⟨⟨rfl, by decide, fun _ => rfl⟩, ⟨rfl, by decide, fun _ => rfl⟩, ⟨rfl, by decide, fun _ => rfl⟩,
      ⟨rfl, by decide, fun _ => rfl⟩, storesAt_offsetLo s v, storesAt_offsetHi s v, storesAt_memsel s v,
      ⟨rfl, by decide, fun _ => rfl⟩, ⟨rfl, by decide, fun _ => rfl⟩, ⟨rfl, by decide, fun _ => rfl⟩,
      ⟨rfl, by decide, fun _ => rfl⟩, List.forall_mem_nil _⟩,
    fun i _ => storesAt_xreg s v i⟩

/-! ### The state after reset (10_state.md R43) -/

theorem getX_resetOf (c : Params) (i : XReg) : getX (State.resetOf c) i = 0 := by
  simp [getX, State.resetOf]

/-- Settles O21: the registers are 0 by definition, and an empty memory reads as its reset value. -/
theorem resetStateReadsZero : Obligations.ResetStateReadsZero := by
  rintro c _ rfl
  exact ⟨getX_resetOf c, rfl, rfl, rfl, rfl, rfl, rfl, rfl, rfl, rfl, rfl, rfl, rfl, rfl, rfl, rfl, rfl, rfl, rfl,
    fun i _ => by rw [getPoly_resetOf]; rfl, fun _ _ => rfl, fun _ _ => rfl, fun _ => rfl, fun _ => rfl, fun _ => rfl,
    rfl, rfl, rfl, rfl, rfl⟩

end Sys2Proof.Machine
end

section
/-! SUPPORT. The proofs of the statements on the register window (20_memory.md): which accesses have a step, what reads
answer, which writes are ignored, the data window, the property window, accesses while an error is recorded. -/

namespace Sys2Proof.Machine

open Sys2Proof

/-! ### Accesses that are not admitted (R62) -/

theorem serve_read_busError {off size : Nat} (h : admitted off size = false) (s : State) :
    serve (.read off size) s = .fault .busError := by simp [serve, h]

theorem serve_write_busError {off size : Nat} (h : admitted off size = false) (v : Word) (s : State) :
    serve (.write off size v) s = .fault .busError := by simp [serve, h]

/-- Settles O13: the access is taken from the port and then stops the machine, read or write. -/
theorem accessNotAdmittedHasNoStep : Obligations.AccessNotAdmittedHasNoStep := by
  intro s off size v rest hp hbad hport
  have hna : admitted off size = false := not_admitted hbad
  rcases hport with hport | hport
  · rw [step, stepOnce_cons hp hport, serve_read_busError hna]
  · rw [step, stepOnce_cons hp hport, serve_write_busError hna]

/-! ### Reads of `ID`, `STATUS` and the registers that read 0 (R64, R65) -/

theorem statusWord_toNat (s : State) :
    (statusWord s).toNat = (if s.ready then 1 else 0) + 2 * (if s.error.err then 1 else 0) := by
  unfold statusWord
  cases s.ready <;> cases s.error.err <;> rfl

/-- The registers that read 0 whatever the state: the write-only ones and the reserved offsets (R65). -/
def WinReg.readsZero : WinReg → Bool
  | .ctrl | .cmd | .reserved => true
  | _ => false

theorem readReg_readsZero {reg : WinReg} (h : reg.readsZero = true) (s : State) : readReg s reg = 0 := by
  cases reg with
  | ctrl | cmd | reserved => rfl
  | _ => cases h

/-- Settles O9: the step of a read answers the register at the offset. -/
theorem readsAnswerAndChangeNothing : Obligations.ReadsAnswerAndChangeNothing := by
  intro s off rest hp hport halign hlt
  refine ⟨readReg s (winRegAt off), step_read hp hport (admitted_of_aligned halign hlt), ?_, ?_, fun hoff => ?_⟩
  · rintro rfl
    rfl
  · rintro rfl
    exact statusWord_toNat s
  · refine readReg_readsZero ?_ s
    clear hport halign hlt
    revert off
    decide

/-! ### Writes that are ignored (R65) -/

/-- The registers that ignore a write: the read-only ones and the reserved offsets (10_state.md R27, R65). -/
def WinReg.ignoresWrite : WinReg → Bool
  | .id | .status | .errcode | .errinfo | .errcmd => true
  | .actWs | .actK | .actM | .actP | .q | .g | .n | .r => true
  | .prlen | .prcur | .prlocLo | .prlocHi | .prmark => true
  | .capNmax | .capPmax | .capProp | .reserved => true
  | _ => false

theorem writeReg_ignoresWrite {reg : WinReg} (h : reg.ignoresWrite = true) (s : State) (v : Word) :
    writeReg s v reg = s := by
  cases reg with
  | ctrl | cfgWs | cfgK | cfgM | cfgP | offsetLo | offsetHi | memsel | memlane | memidx | memdata | prsel | pridx
  | xreg | cmd => cases h
  | _ => rfl

theorem storesAt_ignoresWrite {off : Nat} (ha : admitted off 4 = true) (h : (winRegAt off).ignoresWrite = true)
    (s : State) (v : Word) : StoresAt s v off s :=
  ⟨ha, fun hc => Bool.noConfusion (hc ▸ h : WinReg.cmd.ignoresWrite = true), fun _ => writeReg_ignoresWrite h _ v⟩

/-- Settles O12: every listed offset is in the window and holds a register that ignores a write. -/
theorem readOnlyOffsetsIgnoreWrites : Obligations.ReadOnlyOffsetsIgnoreWrites := by
  intro s off v rest hp hport hoff
  have hreg : admitted off 4 = true ∧ (winRegAt off).ignoresWrite = true := by
    clear hport
    revert off
    decide
  obtain ⟨ha, hc, hw⟩ := storesAt_ignoresWrite hreg.1 hreg.2 s v
  rw [step_writeReg hp hport ha hc, hw]

/-! ### The property window (R72) -/

section
variable {s : State}

/-- A read at an offset that shows `v`. -/
theorem step_of_shows {off v : Nat} {rest : List HostEvent} (hp : s.par.wf = true)
    (hport : s.port = .read off 4 :: rest) (h : ShowsAt s off v) :
    step s = .next { s with port := rest, reads := s.reads ++ [BitVec.ofNat 32 v] } ∧ v < 2 ^ 32 :=
  step_of_showsAt hp hport (List.mem_singleton_self _) (List.forall_mem_singleton.2 h)

theorem showsAt_prlen {l : PropList} (h : selectedProps s = some l) (hl : l.entries.length < 2 ^ 32) :
    ShowsAt s 0x078 l.entries.length :=
  ⟨rfl, by simpa only [winRegAt, readReg, h, Option.elim_some, PropList.len] using toNat_ofNat_lt hl⟩

theorem showsAt_prcur {l : PropList} (h : selectedProps s = some l) (hl : l.cursor < 2 ^ 32) :
    ShowsAt s 0x07C l.cursor :=
  ⟨rfl, by simpa only [winRegAt, readReg, h, Option.elim_some] using toNat_ofNat_lt hl⟩

theorem showsAt_prlocLo {e : PropEntry} (h : selectedEntry s = some e) : ShowsAt s 0x080 (e.loc.toNat % 2 ^ 32) :=
  ⟨rfl, by simpa only [winRegAt, readReg, h, Option.elim_some] using low_toNat e.loc⟩

theorem showsAt_prlocHi {e : PropEntry} (h : selectedEntry s = some e) : ShowsAt s 0x084 (e.loc.toNat / 2 ^ 32) :=
  ⟨rfl, by simpa only [winRegAt, readReg, h, Option.elim_some] using high_toNat e.loc⟩

theorem showsAt_prmark {e : PropEntry} (h : selectedEntry s = some e) : ShowsAt s 0x088 e.mark.toNat :=
  ⟨rfl, by simp only [winRegAt, readReg, h, Option.elim_some]⟩

/-- Without a selected entry its three registers read 0. -/
theorem showsAt_no_entry {off : Nat} (h : selectedEntry s = none) (hoff : off ∈ [0x080, 0x084, 0x088]) :
    ShowsAt s off 0 := by
  simp only [List.mem_cons, List.not_mem_nil, or_false] at hoff
  rcases hoff with rfl | rfl | rfl <;> exact ⟨rfl, by simp only [winRegAt, readReg, h, Option.elim_none]; rfl⟩

/-- Without a selected list the length and the cursor read 0. -/
theorem showsAt_no_list {off : Nat} (h : selectedProps s = none) (hoff : off ∈ [0x078, 0x07C]) : ShowsAt s off 0 := by
  simp only [List.mem_cons, List.not_mem_nil, or_false] at hoff
  rcases hoff with rfl | rfl <;> exact ⟨rfl, by simp only [winRegAt, readReg, h, Option.elim_none]; rfl⟩

end

/-- Settles O15: `PRSEL` selects a list or none, and `PRIDX` an entry of it or none. -/
theorem propertyWindowShowsTheSelectedEntry : Obligations.PropertyWindowShowsTheSelectedEntry := by
  intro s off v rest h hport hin hout hoff
  refine step_of_shows h.params hport ?_
  have hsplit : off ∈ [0x078, 0x07C] ∨ off ∈ [0x080, 0x084, 0x088] := List.mem_append.1 hoff
  rcases Nat.lt_or_ge s.win.prsel.toNat s.par.nmax with hsel | hsel
  · obtain ⟨hlen, hcur, hentry, hnone⟩ := hin hsel
    have hlist := selectedProps_lt hsel
    obtain ⟨hl, hc⟩ := getProps_legal h.prop s.win.prsel.toNat
    have hcap := (propcap_lt h.params).2
    have hsome := selectedEntry_lt hsel
    rcases hsplit with hoff | hoff
    · simp only [List.mem_cons, List.not_mem_nil, or_false] at hoff
      rcases hoff with rfl | rfl
      · rw [hlen rfl]; exact showsAt_prlen hlist (by omega)
      · rw [hcur rfl]; exact showsAt_prcur hlist (by omega)
    · cases he : (getProps s s.win.prsel.toNat).entries[s.win.pridx.toNat]? with
      | none =>
        rw [hnone (List.getElem?_eq_none_iff.1 he) hoff]
        exact showsAt_no_entry (hsome.trans he) hoff
      | some e =>
        obtain ⟨hlo, hhi, hmark⟩ := hentry e he
        simp only [List.mem_cons, List.not_mem_nil, or_false] at hoff
        rcases hoff with rfl | rfl | rfl
        · rw [hlo rfl]; exact showsAt_prlocLo (hsome.trans he)
        · rw [hhi rfl]; exact showsAt_prlocHi (hsome.trans he)
        · rw [hmark rfl]; exact showsAt_prmark (hsome.trans he)
  · rw [hout hsel]
    rcases hsplit with hoff | hoff
    · exact showsAt_no_list (selectedProps_ge hsel) hoff
    · exact showsAt_no_entry (selectedEntry_ge hsel) hoff

/-! ### The data window: a write and the read after it (R70, R71, R74) -/

/-- The low `w` bits of a word, zero-extended. -/
theorem setWidth_setWidth_eq_ofNat (v : Word) (w : Nat) :
    (v.setWidth w).setWidth 32 = BitVec.ofNat 32 (v.toNat % 2 ^ w) := by
  rw [← BitVec.toNat_setWidth, ← BitVec.ofNat_toNat]

section
variable {s : State} (v : Word)

@[simp] theorem writeMemdata_win : (writeMemdata s v).win = s.win := by rw [writeMemdata_frame]
@[simp] theorem writeMemdata_par : (writeMemdata s v).par = s.par := by rw [writeMemdata_frame]
@[simp] theorem writeMemdata_port : (writeMemdata s v).port = s.port := by rw [writeMemdata_frame]
@[simp] theorem writeMemdata_error : (writeMemdata s v).error = s.error := by rw [writeMemdata_frame]

@[simp] theorem bufferInRange_writeMemdata : bufferInRange (writeMemdata s v) = bufferInRange s := by
  simp [bufferInRange]

end

section
variable {s : State} (h : Inv s) (v : Word)
include h

theorem readMemdata_writeMemdata_ibuf (hsel : s.win.memsel.toNat = 0) (hr : bufferInRange s = true) :
    readMemdata (writeMemdata s v) = BitVec.ofNat 32 (v.toNat % 2 ^ 17) := by
  rw [readMemdata_ibuf (s := writeMemdata s v) (by simpa using hsel) (by simpa using hr), writeMemdata_win,
    writeMemdata_ibuf v hsel hr, Grid.read_write_same h.ibuf.1,
    setWidth_setWidth_eq_ofNat]

theorem readMemdata_writeMemdata_obuf (hsel : s.win.memsel.toNat = 1) (hr : bufferInRange s = true) :
    readMemdata (writeMemdata s v) = BitVec.ofNat 32 (v.toNat % 2 ^ 17) := by
  rw [readMemdata_obuf (s := writeMemdata s v) (by simpa using hsel) (by simpa using hr), writeMemdata_win,
    writeMemdata_obuf v hsel hr, Grid.read_write_same h.obuf.1,
    setWidth_setWidth_eq_ofNat]

theorem readMemdata_writeMemdata_ids (hsel : s.win.memsel.toNat = 2) (hr : s.win.memidx.toNat < s.par.nmax) :
    readMemdata (writeMemdata s v) = BitVec.ofNat 32 (v.toNat % 2 ^ 16) := by
  rw [readMemdata_ids (s := writeMemdata s v) (by simpa using hsel) (by simpa using hr), writeMemdata_win,
    writeMemdata_ids v hsel hr, Memory.read_write_same h.ids.1,
    setWidth_setWidth_eq_ofNat]

theorem readMemdata_writeMemdata_poly {i : PReg} (hsel : s.win.memsel.toNat = 4 + i.val)
    (hr : s.win.memidx.toNat < s.par.pcap) :
    readMemdata (writeMemdata s v) = BitVec.ofNat 32 (v.toNat % 2 ^ 17) := by
  rw [readMemdata_poly (s := writeMemdata s v) (by simpa using hsel) (by simpa using hr), writeMemdata_win,
    writeMemdata_poly v hsel hr, getPoly_setPoly_same, Memory.read_write_same (h.polys i).1, setWidth_setWidth_eq_ofNat]

/-- A cell of a polynomial register after a write of cell `k` of register `i`. -/
theorem read_setPoly_write (i r : PReg) (k j : Nat) (c : Elem) :
    Memory.read 0 (getPoly (setPoly s i (Memory.write 0 (getPoly s i) k c)) r) j =
      if r = i ∧ j = k then c else Memory.read 0 (getPoly s r) j := by
  by_cases hr : r = i
  · subst hr
    rw [getPoly_setPoly_same, Memory.read_write (h.polys r).1]
    simp only [true_and]
  · rw [getPoly_setPoly_ne s i r _ hr, if_neg fun hc => hr hc.1]

end

/-- A read of `MEMDATA` that follows a write through the data window. -/
theorem step_read_writeMemdata {s : State} {v w : Word} {rest : List HostEvent} (hp : s.par.wf = true)
    (hport : s.port = .read 0x06C 4 :: rest) (hw : readMemdata (writeMemdata s v) = w) :
    step (writeMemdata s v) =
      .next { writeMemdata s v with port := rest, reads := (writeMemdata s v).reads ++ [w] } := by
  rw [step_read ((writeMemdata_par v).symm ▸ hp) ((writeMemdata_port v).trans hport) rfl, ← hw]
  rfl

/-- Settles O14: the write is the one `writeMemdata` makes on the state `u` with the access taken, selection by
selection. -/
theorem dataWindowStoresAndShowsTheSelectedCell : Obligations.DataWindowStoresAndShowsTheSelectedCell := by
  intro s v rest h hport
  let u : State := { s with port := .read 0x06C 4 :: rest }
  have hu : Inv u := h
  have hwrite : step s = .next (writeMemdata u v) := step_writeReg h.params hport rfl (by decide)
  have hread : ∀ {w}, readMemdata (writeMemdata u v) = w → step (writeMemdata u v) =
      .next { writeMemdata u v with port := rest, reads := (writeMemdata u v).reads ++ [w] } :=
    fun hw => step_read_writeMemdata hu.params rfl hw
  refine ⟨writeMemdata u v, hwrite, writeMemdata_win v, fun hsel hr => ?_, fun hsel hr => ?_, fun hsel hr => ?_,
    fun i hsel hr => ?_, fun hnone => ?_⟩
  · have hsel : u.win.memsel.toNat = 0 := congrArg BitVec.toNat hsel
    have hin : bufferInRange u = true := (bufferInRange_iff u).2 hr
    refine ⟨?_, fun p l => ?_, hread (readMemdata_writeMemdata_ibuf hu v hsel hin)⟩
    · rw [writeMemdata_ibuf v hsel hin]
    · rw [writeMemdata_ibuf v hsel hin, BitVec.ofNat_toNat]
      exact Grid.read_write h.ibuf.1 _ _ p l _
  · have hsel : u.win.memsel.toNat = 1 := congrArg BitVec.toNat hsel
    have hin : bufferInRange u = true := (bufferInRange_iff u).2 hr
    refine ⟨?_, fun p l => ?_, hread (readMemdata_writeMemdata_obuf hu v hsel hin)⟩
    · rw [writeMemdata_obuf v hsel hin]
    · rw [writeMemdata_obuf v hsel hin, BitVec.ofNat_toNat]
      exact Grid.read_write h.obuf.1 _ _ p l _
  · have hsel : u.win.memsel.toNat = 2 := congrArg BitVec.toNat hsel
    refine ⟨?_, fun i => ?_, hread (readMemdata_writeMemdata_ids hu v hsel hr)⟩
    · rw [writeMemdata_ids v hsel hr]
    · rw [writeMemdata_ids v hsel hr, BitVec.ofNat_toNat]
      exact Memory.read_write h.ids.1 _ i _
  · refine ⟨?_, fun r j => ?_, hread (readMemdata_writeMemdata_poly hu v hsel hr)⟩
    · rw [writeMemdata_poly (s := u) v hsel hr]
      rfl
    · rw [writeMemdata_poly (s := u) v hsel hr, BitVec.ofNat_toNat]
      exact read_setPoly_write hu i r _ j _
  · have hnone : selectsNothing u :=
      hnone.imp (congrArg BitVec.toNat) (Or.imp_right (Or.imp_left (And.imp_left (congrArg BitVec.toNat))))
    have hw : writeMemdata u v = u := writeMemdata_none v hnone
    refine ⟨?_, hread ?_⟩
    · rw [hw]
    · rw [hw]
      exact readMemdata_none hnone

/-! ### Accesses while an error is recorded (R75) -/

/-- The registers that show the recorded error (10_state.md R30, R34). -/
def WinReg.showsError : WinReg → Bool
  | .status | .errcode | .errinfo | .errcmd => true
  | _ => false

/-- What any other register reads does not depend on the error. -/
theorem readReg_error {reg : WinReg} (h : reg.showsError = false) (s : State) (e : ErrorRegs) :
    readReg { s with error := e } reg = readReg s reg := by
  cases reg with
  | status | errcode | errinfo | errcmd => cases h
  | _ => rfl

theorem writeMemdata_with_error (s : State) (v : Word) (e : ErrorRegs) :
    writeMemdata { s with error := e } v = { writeMemdata s v with error := e } := by
  rcases selection_cases s with ⟨h, hr⟩ | ⟨h, hr⟩ | ⟨h, hr⟩ | ⟨i, h, hr⟩ | h
  · rw [writeMemdata_ibuf v h hr]
    exact writeMemdata_ibuf v h hr
  · rw [writeMemdata_obuf v h hr]
    exact writeMemdata_obuf v h hr
  · rw [writeMemdata_ids v h hr]
    exact writeMemdata_ids v h hr
  · rw [writeMemdata_poly v h hr]
    exact writeMemdata_poly v h hr
  · rw [writeMemdata_none v h]
    exact writeMemdata_none v h

/-- Of the registers a host write stores to, only `CTRL` reads or writes the error. -/
theorem writeReg_error {reg : WinReg} (h : reg ≠ .ctrl) (s : State) (v : Word) (e : ErrorRegs) :
    (writeReg s v reg).error = s.error ∧
      writeReg { s with error := e } v reg = { writeReg s v reg with error := e } := by
  cases reg with
  | ctrl => exact absurd rfl h
  | memdata => exact ⟨writeMemdata_error v, writeMemdata_with_error s v e⟩
  | _ => exact ⟨rfl, rfl⟩

/-- A property of every aligned offset of the window is a property of 64 numbers. -/
theorem forall_aligned {p : Nat → Prop} (h : ∀ k : Fin 64, p (4 * k.val)) {off : Nat} (ha : off % 4 = 0)
    (hlt : off < 0x100) : p off := by
  have := h ⟨off / 4, by omega⟩
  rwa [show 4 * (off / 4) = off by omega] at this

theorem winRegAt_ctrl {off : Nat} (ha : off % 4 = 0) (hlt : off < 0x100) : winRegAt off = .ctrl → off = 0x004 :=
  forall_aligned (p := fun off => winRegAt off = .ctrl → off = 0x004) (by decide) ha hlt

theorem winRegAt_showsError {off : Nat} (ha : off % 4 = 0) (hlt : off < 0x100) :
    off ∉ [0x008, 0x00C, 0x010, 0x014] → (winRegAt off).showsError = false :=
  forall_aligned (p := fun off => off ∉ [0x008, 0x00C, 0x010, 0x014] → (winRegAt off).showsError = false)
    (by decide) ha hlt

/-- Settles O22: a write is one to a register other than `CMD` and `CTRL`, a read one of a register that shows no
error. -/
theorem hostAccessesWorkAlikeWhileErrorIsRecorded : Obligations.HostAccessesWorkAlikeWhileErrorIsRecorded := by
  intro s e off v rest t hp halign hlt hport hstep
  have ha : admitted off 4 = true := admitted_of_aligned halign hlt
  rcases hport with ⟨hport, hcmd, hctrl⟩ | ⟨hport, hoff⟩
  · have hcmd : winRegAt off ≠ .cmd := fun hc => hcmd (winRegAt_cmd hc)
    have hctrl : winRegAt off ≠ .ctrl := fun hc => hctrl (winRegAt_ctrl halign hlt hc)
    rw [step_writeReg hp hport ha hcmd] at hstep
    cases hstep
    obtain ⟨herr, halike⟩ := writeReg_error hctrl { s with port := rest } v e
    refine ⟨herr, ?_⟩
    rw [step_writeReg (s := { s with error := e }) hp hport ha hcmd, ← halike]
  · have hshows := winRegAt_showsError halign hlt hoff
    rw [step_read hp hport ha] at hstep
    cases hstep
    refine ⟨rfl, ?_⟩
    rw [step_read (s := { s with error := e }) hp hport ha, readReg_error hshows]

end Sys2Proof.Machine
end

section
/-! SUPPORT. The proofs of the statements on the encoding (30_encoding.md): what each format accepts, which word it
read, which mask says so, and the write of an illegal word to `CMD`. -/

namespace Sys2Proof

/-! ### What a format accepts (R91, R92, R97) -/

theorem pregOf_eq_ok {f : Nat} {k : PReg → Except IllegalWord Instr} {i : Instr} :
    pregOf f k = .ok i ↔ ∃ h : f < 4, k ⟨f, h⟩ = .ok i := by
  unfold pregOf
  split <;> simp [*]

/-- A format that requires `c` of the word accepts exactly when it holds. -/
theorem ite_eq_ok {c : Prop} [Decidable c] {i j : Instr} {e : IllegalWord} :
    (if c then .ok j else .error e : Except IllegalWord Instr) = .ok i ↔ c ∧ j = i := by
  split <;> simp [*]

section
variable {w : Word} {i : Instr}

theorem fmtXXXX_eq_ok {mk : XReg → XReg → XReg → XReg → Instr} :
    fmtXXXX w mk = .ok i ↔
      lowBits w 8 = 0 ∧ mk (xregOf (dField w)) (xregOf (aField w)) (xregOf (bField w)) (xregOf (cField w)) = i :=
  ite_eq_ok

theorem fmtXXX_eq_ok {mk : XReg → XReg → XReg → Instr} :
    fmtXXX w mk = .ok i ↔
      lowBits w 12 = 0 ∧ mk (xregOf (dField w)) (xregOf (aField w)) (xregOf (bField w)) = i :=
  ite_eq_ok

theorem fmtXX_eq_ok {mk : XReg → XReg → Instr} :
    fmtXX w mk = .ok i ↔ lowBits w 16 = 0 ∧ mk (xregOf (dField w)) (xregOf (aField w)) = i :=
  ite_eq_ok

theorem fmtX_eq_ok {mk : XReg → Instr} :
    fmtX w mk = .ok i ↔ lowBits w 20 = 0 ∧ mk (xregOf (dField w)) = i :=
  ite_eq_ok

theorem fmtA_eq_ok {mk : XReg → Instr} :
    fmtA w mk = .ok i ↔ (dField w = 0 ∧ lowBits w 16 = 0) ∧ mk (xregOf (aField w)) = i :=
  ite_eq_ok

theorem fmtNone_eq_ok {j : Instr} : fmtNone w j = .ok i ↔ lowBits w 24 = 0 ∧ j = i :=
  ite_eq_ok

theorem fmtPXX_eq_ok {mk : PReg → XReg → XReg → Instr} :
    fmtPXX w mk = .ok i ↔
      ∃ h : dField w < 4, lowBits w 12 = 0 ∧ mk ⟨dField w, h⟩ (xregOf (aField w)) (xregOf (bField w)) = i := by
  simp only [fmtPXX, pregOf_eq_ok, ite_eq_ok]

theorem fmtXPX_eq_ok {mk : XReg → PReg → XReg → Instr} :
    fmtXPX w mk = .ok i ↔
      ∃ h : aField w < 4, lowBits w 12 = 0 ∧ mk (xregOf (dField w)) ⟨aField w, h⟩ (xregOf (bField w)) = i := by
  simp only [fmtXPX, pregOf_eq_ok, ite_eq_ok]

theorem fmtPP_eq_ok {mk : PReg → PReg → Instr} :
    fmtPP w mk = .ok i ↔
      ∃ (hd : dField w < 4) (ha : aField w < 4), lowBits w 16 = 0 ∧ mk ⟨dField w, hd⟩ ⟨aField w, ha⟩ = i := by
  simp only [fmtPP, pregOf_eq_ok, ite_eq_ok]

theorem fmtP_eq_ok {mk : PReg → Instr} :
    fmtP w mk = .ok i ↔ ∃ h : dField w < 4, lowBits w 20 = 0 ∧ mk ⟨dField w, h⟩ = i := by
  simp only [fmtP, pregOf_eq_ok, ite_eq_ok]

end

/-! ### The word an instruction was read from (R96)

A format reads the fields it uses and requires the others to be 0, so it reads all of the word. -/

theorem xregOf_dField (w : Word) : (xregOf (dField w)).val = dField w := Nat.mod_mod _ _
theorem xregOf_aField (w : Word) : (xregOf (aField w)).val = aField w := Nat.mod_mod _ _
theorem xregOf_bField (w : Word) : (xregOf (bField w)).val = bField w := Nat.mod_mod _ _
theorem xregOf_cField (w : Word) : (xregOf (cField w)).val = cField w := Nat.mod_mod _ _

theorem wordR_fields {w : Word} (h : lowBits w 8 = 0) :
    wordR (opField w) (dField w) (aField w) (bField w) (cField w) = w := by
  have hw : opField w * 2 ^ 24 + dField w * 2 ^ 20 + aField w * 2 ^ 16 + bField w * 2 ^ 12 + cField w * 2 ^ 8 =
      w.toNat := by
    simp only [opField, dField, aField, bField, cField, lowBits] at *; omega
  rw [wordR, hw, BitVec.ofNat_toNat, BitVec.setWidth_eq]

theorem wordI_fields (w : Word) : wordI (opField w) (dField w) (lowBits w 20) = w := by
  have hw : opField w * 2 ^ 24 + dField w * 2 ^ 20 + lowBits w 20 % 2 ^ 20 = w.toNat := by
    simp only [opField, dField, lowBits]; omega
  rw [wordI, hw, BitVec.ofNat_toNat, BitVec.setWidth_eq]

theorem lowBits_8_of_12 {w : Word} (h : lowBits w 12 = 0) : lowBits w 8 = 0 ∧ cField w = 0 := by
  simp only [lowBits, cField] at *; omega

theorem lowBits_12_of_16 {w : Word} (h : lowBits w 16 = 0) : lowBits w 12 = 0 ∧ bField w = 0 := by
  simp only [lowBits, bField] at *; omega

theorem lowBits_16_of_20 {w : Word} (h : lowBits w 20 = 0) : lowBits w 16 = 0 ∧ aField w = 0 := by
  simp only [lowBits, aField] at *; omega

theorem lowBits_20_of_24 {w : Word} (h : lowBits w 24 = 0) : lowBits w 20 = 0 ∧ dField w = 0 := by
  simp only [lowBits, dField] at *; omega

theorem wordR_fields_dab {w : Word} (h : lowBits w 12 = 0) :
    wordR (opField w) (dField w) (aField w) (bField w) 0 = w := by
  obtain ⟨h8, hc⟩ := lowBits_8_of_12 h
  simpa only [hc] using wordR_fields h8

theorem wordR_fields_da {w : Word} (h : lowBits w 16 = 0) : wordR (opField w) (dField w) (aField w) 0 0 = w := by
  obtain ⟨h12, hb⟩ := lowBits_12_of_16 h
  simpa only [hb] using wordR_fields_dab h12

theorem wordR_fields_d {w : Word} (h : lowBits w 20 = 0) : wordR (opField w) (dField w) 0 0 0 = w := by
  obtain ⟨h16, ha⟩ := lowBits_16_of_20 h
  simpa only [ha] using wordR_fields_da h16

theorem wordR_fields_op {w : Word} (h : lowBits w 24 = 0) : wordR (opField w) 0 0 0 0 = w := by
  obtain ⟨h20, hd⟩ := lowBits_20_of_24 h
  simpa only [hd] using wordR_fields_d h20

section
variable {w : Word} {i : Instr} (ho : opField w = i.opcode)
include ho

theorem encode_of_fmtI {mk : XReg → Word → Instr} (h : fmtI w mk = .ok i)
    (he : ∀ d imm, encode (mk d imm) = wordI (mk d imm).opcode d imm.toNat) : encode i = w := by
  cases h
  have himm : (BitVec.ofNat 32 (lowBits w 20)).toNat = lowBits w 20 :=
    Nat.mod_eq_of_lt (by simp only [lowBits]; omega)
  rw [he, ← ho, xregOf_dField, himm, wordI_fields]

theorem encode_of_fmtXXXX {mk : XReg → XReg → XReg → XReg → Instr} (h : fmtXXXX w mk = .ok i)
    (he : ∀ d a b c, encode (mk d a b c) = wordR (mk d a b c).opcode d a b c) : encode i = w := by
  obtain ⟨hlow, rfl⟩ := fmtXXXX_eq_ok.1 h
  rw [he, ← ho, xregOf_dField, xregOf_aField, xregOf_bField, xregOf_cField, wordR_fields hlow]

theorem encode_of_fmtXXX {mk : XReg → XReg → XReg → Instr} (h : fmtXXX w mk = .ok i)
    (he : ∀ d a b, encode (mk d a b) = wordR (mk d a b).opcode d a b 0) : encode i = w := by
  obtain ⟨hlow, rfl⟩ := fmtXXX_eq_ok.1 h
  rw [he, ← ho, xregOf_dField, xregOf_aField, xregOf_bField, wordR_fields_dab hlow]

theorem encode_of_fmtXX {mk : XReg → XReg → Instr} (h : fmtXX w mk = .ok i)
    (he : ∀ d a, encode (mk d a) = wordR (mk d a).opcode d a 0 0) : encode i = w := by
  obtain ⟨hlow, rfl⟩ := fmtXX_eq_ok.1 h
  rw [he, ← ho, xregOf_dField, xregOf_aField, wordR_fields_da hlow]

theorem encode_of_fmtX {mk : XReg → Instr} (h : fmtX w mk = .ok i)
    (he : ∀ d, encode (mk d) = wordR (mk d).opcode d 0 0 0) : encode i = w := by
  obtain ⟨hlow, rfl⟩ := fmtX_eq_ok.1 h
  rw [he, ← ho, xregOf_dField, wordR_fields_d hlow]

theorem encode_of_fmtA {mk : XReg → Instr} (h : fmtA w mk = .ok i)
    (he : ∀ a, encode (mk a) = wordR (mk a).opcode 0 a 0 0) : encode i = w := by
  obtain ⟨⟨hd, hlow⟩, rfl⟩ := fmtA_eq_ok.1 h
  have hw := wordR_fields_da hlow
  rw [hd] at hw
  rw [he, ← ho, xregOf_aField, hw]

theorem encode_of_fmtNone {j : Instr} (h : fmtNone w j = .ok i) (he : encode j = wordR j.opcode 0 0 0 0) :
    encode i = w := by
  obtain ⟨hlow, rfl⟩ := fmtNone_eq_ok.1 h
  rw [he, ← ho, wordR_fields_op hlow]

theorem encode_of_fmtPXX {mk : PReg → XReg → XReg → Instr} (h : fmtPXX w mk = .ok i)
    (he : ∀ d a b, encode (mk d a b) = wordR (mk d a b).opcode d a b 0) : encode i = w := by
  obtain ⟨_, hlow, rfl⟩ := fmtPXX_eq_ok.1 h
  rw [he, ← ho, xregOf_aField, xregOf_bField, wordR_fields_dab hlow]

theorem encode_of_fmtXPX {mk : XReg → PReg → XReg → Instr} (h : fmtXPX w mk = .ok i)
    (he : ∀ d a b, encode (mk d a b) = wordR (mk d a b).opcode d a b 0) : encode i = w := by
  obtain ⟨_, hlow, rfl⟩ := fmtXPX_eq_ok.1 h
  rw [he, ← ho, xregOf_dField, xregOf_bField, wordR_fields_dab hlow]

theorem encode_of_fmtPP {mk : PReg → PReg → Instr} (h : fmtPP w mk = .ok i)
    (he : ∀ d a, encode (mk d a) = wordR (mk d a).opcode d a 0 0) : encode i = w := by
  obtain ⟨_, _, hlow, rfl⟩ := fmtPP_eq_ok.1 h
  rw [he, ← ho, wordR_fields_da hlow]

theorem encode_of_fmtP {mk : PReg → Instr} (h : fmtP w mk = .ok i)
    (he : ∀ d, encode (mk d) = wordR (mk d).opcode d 0 0 0) : encode i = w := by
  obtain ⟨_, hlow, rfl⟩ := fmtP_eq_ok.1 h
  rw [he, ← ho, wordR_fields_d hlow]

end

/-! ### Decode and encode undo each other -/

theorem opField_encode (i : Instr) : opField (encode i) = i.opcode := by
  cases i with
  | li d imm => exact Laws.Row.li d imm
  | _ => exact Laws.Row.of_wordR rfl (by omega) (by omega) (by omega) (by omega)

/-- Settles O1: the opcode of the word selects the row, whose format reads back the fields. -/
theorem decodeOfEncodeIsTheInstruction : Obligations.DecodeOfEncodeIsTheInstruction := by
  intro i hwf
  have ho : i.opcode < 256 := Laws.Row.opcode_lt i
  rw [decode, opField_encode]
  cases i <;> simp only [encode, Instr.opcode]
  case li d imm => exact fmtI_wordI ho d (of_decide_eq_true hwf) _
  case fadd d a b | fsub d a b | fmul d a b | fdiv d a b | fexp d a b => exact fmtXXX_wordR ho d a b _
  case finv d a | fneg d a | fnroot d a | fclhc d a | fjac d a | prlen d a => exact fmtXX_wordR ho d a _
  case fcard d | fproot d | nout d => exact fmtX_wordR ho d _
  case pset d a b => exact fmtPXX_wordR ho d a b _
  case pget d a b | peval d a b => exact fmtXPX_wordR ho d a b _
  case pmul d a | pcopy d a => exact fmtPP_wordR ho d a _
  case pder d | pneg d | pclr d => exact fmtP_wordR ho d _
  case pradd d a b c | prmk d a b c => exact fmtXXXX_wordR ho d a b c _
  case prnext a | prrew a | prclr a => exact fmtA_wordR ho a _
  case fft | ifft | fftp | ifftp | config | enc | encp | dec | decp | daddd | daddp | dbuild | prclra =>
    exact fmtNone_wordR ho _

theorem encode_of_decode {w : Word} {i : Instr} (h : decode w = .ok i) : encode i = w := by
  have ho := opField_of_decode h
  rw [decode, ho] at h
  cases i with
  | li => exact encode_of_fmtI ho h fun _ _ => rfl
  | fadd | fsub | fmul | fdiv | fexp => exact encode_of_fmtXXX ho h fun _ _ _ => rfl
  | finv | fneg | fnroot | fclhc | fjac | prlen => exact encode_of_fmtXX ho h fun _ _ => rfl
  | fcard | fproot | nout => exact encode_of_fmtX ho h fun _ => rfl
  | pset => exact encode_of_fmtPXX ho h fun _ _ _ => rfl
  | pget | peval => exact encode_of_fmtXPX ho h fun _ _ _ => rfl
  | pmul | pcopy => exact encode_of_fmtPP ho h fun _ _ => rfl
  | pder | pneg | pclr => exact encode_of_fmtP ho h fun _ => rfl
  | pradd | prmk => exact encode_of_fmtXXXX ho h fun _ _ _ _ => rfl
  | prnext | prrew | prclr => exact encode_of_fmtA ho h fun _ => rfl
  | fft | ifft | fftp | ifftp | config | enc | encp | dec | decp | daddd | daddp | dbuild | prclra =>
    exact encode_of_fmtNone ho h rfl

/-- Only `LI` has an operand that could be too large, and the decoder takes 20 bits for it. -/
theorem wellFormed_of_decode {w : Word} {i : Instr} (h : decode w = .ok i) : i.wellFormed = true := by
  have ho := opField_of_decode h
  rw [decode, ho] at h
  cases i with
  | li d imm =>
    have himm : BitVec.ofNat 32 (lowBits w 20) = imm := (Instr.li.inj (Except.ok.inj h)).2
    subst himm
    exact decide_eq_true (by simp only [lowBits, BitVec.toNat_ofNat]; omega)
  | _ => rfl

/-- Settles O2, from the two parts: the fields read make up the word, and the immediate read is small. -/
theorem decodingDropsNoBit : Obligations.DecodingDropsNoBit :=
  fun _ _ h => ⟨encode_of_decode h, wellFormed_of_decode h⟩

/-! ### The rows of the opcode map (R95)

One lemma per format: the mask of its rows. The decoder's line for the opcode is found by reduction (`hdec`). -/

/-- The words that decode to an instruction of the opcode of `mtch` are those with `w AND mask = mtch`. -/
def IsRow (w mask mtch : Word) : Prop :=
  (∃ i, decode w = .ok i ∧ i.opcode = mtch.toNat / 2 ^ 24) ↔ w &&& mask = mtch

/-- A word under a mask of three blocks of ones, compared in numbers. A mask of fewer blocks has `k = 0`. -/
theorem and_eq_iff {w mask mtch : Word} (l a k b n : Nat) (h1 : l ≤ a) (h2 : a + k ≤ b)
    (hmask : mask.toNat = 2 ^ l - 1 + (2 ^ k - 1) * 2 ^ a + (2 ^ n - 1) * 2 ^ b) :
    w &&& mask = mtch ↔
      w.toNat % 2 ^ l + w.toNat / 2 ^ a % 2 ^ k * 2 ^ a + w.toNat / 2 ^ b % 2 ^ n * 2 ^ b = mtch.toNat := by
  rw [← BitVec.toNat_inj, BitVec.toNat_and, hmask, land_mask _ _ _ _ _ _ h1 h2]

section
variable {w mtch : Word} (op : Nat) (hm : mtch.toNat = op * 2 ^ 24)
include hm

/-- The row of an opcode whose format accepts under the condition `c`, when the mask tests the opcode and `c`. -/
theorem isRow_of_accepts {mask : Word} {c : Prop} {f : Except IllegalWord Instr}
    (hdec : opField w = op → decode w = f) (hf : (∃ i, f = .ok i) ↔ c) (hmask : w &&& mask = mtch ↔ opField w = op ∧ c) :
    IsRow w mask mtch := by
  have hop : mtch.toNat / 2 ^ 24 = op := by omega
  rw [IsRow, hop, hmask]
  constructor
  · rintro ⟨i, hi, rfl⟩
    have ho := opField_of_decode hi
    exact ⟨ho, hf.1 ⟨i, hdec ho ▸ hi⟩⟩
  · rintro ⟨ho, hc⟩
    obtain ⟨i, hi⟩ := hf.2 hc
    have hd : decode w = .ok i := (hdec ho).trans hi
    exact ⟨i, hd, (opField_of_decode hd).symm.trans ho⟩

theorem isRow_fmtI (mk : XReg → Word → Instr)
    (hdec : opField w = op → decode w = fmtI w mk := by intro h; simp only [decode, h]) : IsRow w 0xFF000000 mtch :=
  isRow_of_accepts op hm hdec (c := True) (by simp [fmtI]) (by
    rw [and_eq_iff 0 24 0 24 8 (by omega) (by omega) rfl, hm]
    simp only [opField, and_true]; omega)

theorem isRow_fmtXXXX (mk : XReg → XReg → XReg → XReg → Instr)
    (hdec : opField w = op → decode w = fmtXXXX w mk := by intro h; simp only [decode, h]) :
    IsRow w 0xFF0000FF mtch :=
  isRow_of_accepts op hm hdec (c := lowBits w 8 = 0) (by simp [fmtXXXX_eq_ok]) (by
    rw [and_eq_iff 8 8 0 24 8 (by omega) (by omega) rfl, hm]
    simp only [opField, lowBits]; omega)

theorem isRow_fmtXXX (mk : XReg → XReg → XReg → Instr)
    (hdec : opField w = op → decode w = fmtXXX w mk := by intro h; simp only [decode, h]) : IsRow w 0xFF000FFF mtch :=
  isRow_of_accepts op hm hdec (c := lowBits w 12 = 0) (by simp [fmtXXX_eq_ok]) (by
    rw [and_eq_iff 12 12 0 24 8 (by omega) (by omega) rfl, hm]
    simp only [opField, lowBits]; omega)

theorem isRow_fmtXX (mk : XReg → XReg → Instr)
    (hdec : opField w = op → decode w = fmtXX w mk := by intro h; simp only [decode, h]) : IsRow w 0xFF00FFFF mtch :=
  isRow_of_accepts op hm hdec (c := lowBits w 16 = 0) (by simp [fmtXX_eq_ok]) (by
    rw [and_eq_iff 16 16 0 24 8 (by omega) (by omega) rfl, hm]
    simp only [opField, lowBits]; omega)

theorem isRow_fmtX (mk : XReg → Instr)
    (hdec : opField w = op → decode w = fmtX w mk := by intro h; simp only [decode, h]) : IsRow w 0xFF0FFFFF mtch :=
  isRow_of_accepts op hm hdec (c := lowBits w 20 = 0) (by simp [fmtX_eq_ok]) (by
    rw [and_eq_iff 20 20 0 24 8 (by omega) (by omega) rfl, hm]
    simp only [opField, lowBits]; omega)

theorem isRow_fmtA (mk : XReg → Instr)
    (hdec : opField w = op → decode w = fmtA w mk := by intro h; simp only [decode, h]) : IsRow w 0xFFF0FFFF mtch :=
  isRow_of_accepts op hm hdec (c := dField w = 0 ∧ lowBits w 16 = 0) (by simp [fmtA_eq_ok]) (by
    rw [and_eq_iff 16 20 4 24 8 (by omega) (by omega) rfl, hm]
    simp only [opField, dField, lowBits]; omega)

theorem isRow_fmtNone (i : Instr)
    (hdec : opField w = op → decode w = fmtNone w i := by intro h; simp only [decode, h]) : IsRow w 0xFFFFFFFF mtch :=
  isRow_of_accepts op hm hdec (c := lowBits w 24 = 0) (by simp [fmtNone_eq_ok]) (by
    rw [and_eq_iff 24 24 0 24 8 (by omega) (by omega) rfl, hm]
    simp only [opField, lowBits]; omega)

theorem isRow_fmtPXX (mk : PReg → XReg → XReg → Instr)
    (hdec : opField w = op → decode w = fmtPXX w mk := by intro h; simp only [decode, h]) : IsRow w 0xFFC00FFF mtch :=
  isRow_of_accepts op hm hdec (c := lowBits w 12 = 0 ∧ dField w < 4) (by simp [fmtPXX_eq_ok]) (by
    rw [and_eq_iff 12 22 2 24 8 (by omega) (by omega) rfl, hm]
    simp only [opField, dField, lowBits]; omega)

theorem isRow_fmtXPX (mk : XReg → PReg → XReg → Instr)
    (hdec : opField w = op → decode w = fmtXPX w mk := by intro h; simp only [decode, h]) : IsRow w 0xFF0C0FFF mtch :=
  isRow_of_accepts op hm hdec (c := lowBits w 12 = 0 ∧ aField w < 4) (by simp [fmtXPX_eq_ok]) (by
    rw [and_eq_iff 12 18 2 24 8 (by omega) (by omega) rfl, hm]
    simp only [opField, aField, lowBits]; omega)

/-- The upper two bits of `d` and the opcode are one block of the mask. -/
theorem isRow_fmtPP (mk : PReg → PReg → Instr)
    (hdec : opField w = op → decode w = fmtPP w mk := by intro h; simp only [decode, h]) : IsRow w 0xFFCCFFFF mtch :=
  isRow_of_accepts op hm hdec (c := lowBits w 16 = 0 ∧ dField w < 4 ∧ aField w < 4) (by simp [fmtPP_eq_ok]) (by
    rw [and_eq_iff 16 18 2 22 10 (by omega) (by omega) rfl, hm]
    simp only [opField, dField, aField, lowBits]; omega)

theorem isRow_fmtP (mk : PReg → Instr)
    (hdec : opField w = op → decode w = fmtP w mk := by intro h; simp only [decode, h]) : IsRow w 0xFFCFFFFF mtch :=
  isRow_of_accepts op hm hdec (c := lowBits w 20 = 0 ∧ dField w < 4) (by simp [fmtP_eq_ok]) (by
    rw [and_eq_iff 20 22 2 24 8 (by omega) (by omega) rfl, hm]
    simp only [opField, dField, lowBits]; omega)

end

/-- A row of a table whose rows all are rows of the opcode map. -/
theorem isRow_of_mem {w mask mtch : Word} {rows : List (Word × Word)} (hmem : (mask, mtch) ∈ rows)
    (hall : ∀ row ∈ rows, IsRow w row.1 row.2) : IsRow w mask mtch := hall _ hmem

/-- Settles O3, row by row of the opcode map: each row's mask is that of its format. -/
theorem wordIsCommandExactlyWhenMaskMatches : Obligations.WordIsCommandExactlyWhenMaskMatches := by
  intro w mask mtch hmem
  refine isRow_of_mem hmem ?_
  simp only [List.forall_mem_append, List.forall_mem_cons]
  exact ⟨⟨⟨isRow_fmtI 0x01 rfl .li, isRow_fmtXXX 0x10 rfl .fadd, isRow_fmtXXX 0x11 rfl .fsub,
      isRow_fmtXXX 0x12 rfl .fmul, isRow_fmtXXX 0x13 rfl .fdiv, isRow_fmtXX 0x14 rfl .finv, isRow_fmtXXX 0x15 rfl .fexp,
      isRow_fmtXX 0x16 rfl .fneg, isRow_fmtX 0x17 rfl .fcard, isRow_fmtX 0x18 rfl .fproot,
      isRow_fmtXX 0x19 rfl .fnroot, isRow_fmtXX 0x1A rfl .fclhc, isRow_fmtXX 0x1B rfl .fjac, List.forall_mem_nil _⟩,
      isRow_fmtPXX 0x20 rfl .pset, isRow_fmtXPX 0x21 rfl .pget, isRow_fmtPP 0x22 rfl .pmul,
      isRow_fmtP 0x23 rfl .pder, isRow_fmtP 0x24 rfl .pneg, isRow_fmtXPX 0x25 rfl .peval,
      isRow_fmtPP 0x26 rfl .pcopy, isRow_fmtP 0x27 rfl .pclr, isRow_fmtNone 0x30 rfl .fft,
      isRow_fmtNone 0x31 rfl .ifft, isRow_fmtNone 0x32 rfl .fftp, isRow_fmtNone 0x33 rfl .ifftp,
      List.forall_mem_nil _⟩,
      isRow_fmtNone 0x40 rfl .config, isRow_fmtX 0x41 rfl .nout, isRow_fmtNone 0x42 rfl .enc,
      isRow_fmtNone 0x43 rfl .encp, isRow_fmtNone 0x44 rfl .dec, isRow_fmtNone 0x45 rfl .decp,
      isRow_fmtNone 0x46 rfl .daddd, isRow_fmtNone 0x47 rfl .daddp, isRow_fmtNone 0x48 rfl .dbuild,
      isRow_fmtXXXX 0x50 rfl .pradd, isRow_fmtXXXX 0x51 rfl .prmk, isRow_fmtA 0x52 rfl .prnext,
      isRow_fmtA 0x53 rfl .prrew, isRow_fmtA 0x54 rfl .prclr, isRow_fmtNone 0x55 rfl .prclra,
      isRow_fmtXX 0x56 rfl .prlen, List.forall_mem_nil _⟩

end Sys2Proof

namespace Sys2Proof.Machine

open Sys2Proof

/-! ### An illegal word (R97) -/

/-- Settles O7: the write is one to `CMD`, whose word the decoder refuses with some reason. -/
theorem illegalWordRaisesIllegalCommand : Obligations.IllegalWordRaisesIllegalCommand := by
  refine ⟨fun s w rest hp hport herr hill => ?_, nofun, nofun⟩
  rw [step_write hp hport rfl]
  cases hd : decode w with
  | ok i => exact absurd hd (hill i)
  | error x => exact runWord_illegal (s := { s with port := rest }) herr hd

end Sys2Proof.Machine
end

section
/-! SUPPORT. The proofs of the statements on the scalar and prime-field commands (40_field.md). -/

namespace Sys2Proof.Machine

open Sys2Proof

/-! ### The shapes of the rules -/

/-- The format R word that an instruction encodes to decodes to it (30_encoding.md R96). -/
theorem commandWord_of_encode {i : Instr} {op d a b c : Nat} (hi : i.wellFormed = true)
    (h : encode i = wordR op d a b c) : CommandWord i op d a b c := by
  rw [CommandWord, ← h]
  exact decodeOfEncodeIsTheInstruction i hi

/-- A command whose effect is one scalar register completes as `Writes` says, with the word it writes. -/
theorem writes_of_setX {i : Instr} {s : State} {d : XReg} {v : Word} (h : exec i s = .next (setX s d v)) :
    Writes i s d v.toNat :=
  ⟨_, h, by rw [getX_setX_same], fun r hr => getX_setX_ne s d r v hr, rfl⟩

section
variable {i : Instr} {s : State} {r : Except Err State}

/-- A command that makes the ready check raises NotReady when `READY` = 0; when `READY` = 1 it goes on (R120 (a)). -/
theorem withInstance_of_whenReady {p : Prop} (he : exec i s = command i s (whenReady s r))
    (hp : s.ready = true → exec i s = command i s r → p) : WithInstance i s p :=
  ⟨fun hn => faults_of_command he (whenReady_false hn r), fun hr => hp hr (he.trans (by rw [whenReady_true hr]))⟩

/-- A command that checks its operands after the ready check: it raises `e` when `c` holds, and goes on otherwise. -/
theorem withInstance_of_check {c p : Prop} [Decidable c] (e : Err)
    (he : exec i s = command i s (whenReady s (if c then .error e else r)))
    (hp : s.ready = true → (¬ c → exec i s = command i s r) → p) :
    WithInstance i s ((c → Faults i s e.code e.info) ∧ p) :=
  withInstance_of_whenReady he fun hr hx =>
    ⟨fun hc => faults_of_command hx (if_pos hc), hp hr fun hc => hx.trans (by rw [if_neg hc])⟩

end

section
variable {i : Instr} {s : State} (h : Inv s)
include h

/-- A number of at most q is in the register as it is (R120 (d)). -/
theorem writes_of_setXNat_le_q {d : XReg} {v : Nat} (hr : s.ready = true) (hx : exec i s = .next (setXNat s d v))
    (hv : v ≤ s.q) : Writes i s d v :=
  writes_of_setXNat hx (by have := q_bounds h hr; omega)

/-- A command without operand checks that writes the number `v` of at most q, also known as `w`. -/
theorem withInstance_writes {d : XReg} {v w : Nat} (he : exec i s = command i s (whenReady s (.ok (setXNat s d v))))
    (hv : s.ready = true → v = w ∧ v ≤ s.q) : WithInstance i s (Writes i s d w) :=
  withInstance_of_whenReady he fun hr hx => (hv hr).1 ▸ writes_of_setXNat_le_q h hr hx (hv hr).2

end

/-! ### Immediate and constants (R121, R129, R130) -/

/-- Settles O27: the word is the encoding of `LI`, whose meaning makes no check. -/
theorem loadImmediate : Obligations.LoadImmediate := fun d imm _ himm =>
  ⟨decodeOfEncodeIsTheInstruction (.li d imm) (decide_eq_true himm), writes_of_setX rfl⟩

/-- Settles O32: a legal state has G = GROOT(WS) (`g_eq`), and none of the three values is above q. -/
theorem fieldConstantsAndCodeLength : Obligations.FieldConstantsAndCodeLength := fun _ _ h =>
  ⟨commandWord_of_encode rfl rfl, withInstance_writes h rfl fun _ => ⟨rfl, le_rfl⟩,
    commandWord_of_encode rfl rfl,
    withInstance_of_whenReady rfl fun hr hx => ⟨writes_of_setXNat_le_q h hr hx (g_lt h hr).le, g_eq h hr⟩,
    ⟨rfl, rfl⟩,
    commandWord_of_encode rfl rfl,
    withInstance_writes h rfl fun hr => ⟨rfl, by have := n_bounds h hr; omega⟩⟩

/-! ### Arithmetic (R122 to R128) -/

theorem fsub_eq_toNat {q a b : Nat} (hb : b ≤ q) : fsub q a b = (((a : Int) - b) % q).toNat := by
  rw [← fsub_eq hb, Int.toNat_natCast]

/-- Settles O28, each command by the spec lemma of its function; every result is a remainder modulo q. -/
theorem fieldArithmetic : Obligations.FieldArithmetic := by
  intro d a b s h
  have mod_le (hr : s.ready = true) (v : Nat) : v % s.q ≤ s.q := (Nat.mod_lt v (q_pos h hr)).le
  refine ⟨commandWord_of_encode rfl rfl, ?fadd, commandWord_of_encode rfl rfl, ?fsub,
    commandWord_of_encode rfl rfl, ?fmul, commandWord_of_encode rfl rfl, ?fneg⟩
  case fadd => exact withInstance_writes h rfl fun hr => ⟨rfl, mod_le hr _⟩
  case fsub => exact withInstance_writes h rfl fun hr => ⟨fsub_eq_toNat (elemOp_lt h hr b).le, mod_le hr _⟩
  case fmul => exact withInstance_writes h rfl fun hr => ⟨rfl, mod_le hr _⟩
  case fneg => exact withInstance_writes h rfl fun hr => ⟨fneg_eq (elemOp_lt h hr a), mod_le hr _⟩

/-- Settles O31: square-and-multiply gives the power. -/
theorem fieldExponentiation : Obligations.FieldExponentiation := fun _ _ _ _ h =>
  ⟨commandWord_of_encode rfl rfl,
    withInstance_writes h rfl fun hr => ⟨fpow_eq _ _ _, (fpow_lt (q_pos h hr) _ _).le⟩⟩

/-! ### Inverse and division (R125, R126) -/

/-- A number has at most one inverse in [1, q). -/
theorem mul_mod_eq_one_unique {q u v w : Nat} [Fact q.Prime] (hv : v < q) (hw : w < q) (huv : u * v % q = 1)
    (huw : u * w % q = 1) : v = w := by
  have hcast {x : Nat} (hx : u * x % q = 1) : (u : ZMod q) * x = 1 := by
    rw [← Nat.cast_mul, ← cast_mod, hx, Nat.cast_one]
  have hu : (u : ZMod q) ≠ 0 := left_ne_zero_of_mul_eq_one (hcast huv)
  exact eq_of_cast hv hw (mul_left_cancel₀ hu ((hcast huv).trans (hcast huw).symm))

/-- `finv` of a reduced operand that is not 0 is its inverse (R126). -/
theorem finv_elemOp_spec {s : State} (h : Inv s) (hr : s.ready = true) {a : XReg} (ha : elemOp s a ≠ 0) :
    (1 ≤ finv s.q (elemOp s a) ∧ finv s.q (elemOp s a) < s.q) ∧ elemOp s a * finv s.q (elemOp s a) % s.q = 1 := by
  have := Fact.mk (q_prime h hr)
  exact finv_spec (by have := q_bounds h hr; omega) (by rwa [Nat.mod_eq_of_lt (elemOp_lt h hr a)])

/-- Settles O29: the v is the inverse the command computes. -/
theorem fieldDivision : Obligations.FieldDivision := by
  refine fun d a b s h => ⟨commandWord_of_encode rfl rfl, withInstance_of_check .divideByZero rfl fun hr hx hb => ?_⟩
  obtain ⟨⟨hpos, hlt⟩, hinv⟩ := finv_elemOp_spec h hr hb
  exact ⟨_, hpos, hlt, hinv, writes_of_setXNat_le_q h hr (hx hb) (Nat.mod_lt _ (q_pos h hr)).le⟩

/-- Settles O30: the command computes an inverse, and q is prime, so there is no other. -/
theorem fieldInverse : Obligations.FieldInverse := by
  refine fun d a s h => ⟨commandWord_of_encode rfl rfl, withInstance_of_check .inverseOfZero rfl fun hr hx ha => ?_⟩
  obtain ⟨⟨hpos, hlt⟩, hinv⟩ := finv_elemOp_spec h hr ha
  have := Fact.mk (q_prime h hr)
  exact ⟨_, hpos, hlt, hinv, fun v' _ hv' hinv' => mul_mod_eq_one_unique hv' hlt hinv' hinv,
    writes_of_setXNat_le_q h hr (hx ha) hlt.le⟩

/-! ### Roots and the code length (R131, R132) -/

/-- Settles O33: the two checks are one condition, and the root is a power of G. -/
theorem nthRootOfUnity : Obligations.NthRootOfUnity := by
  refine fun d a s h => ⟨commandWord_of_encode rfl rfl, withInstance_of_check .rootOrder rfl fun hr hx h0 hdvd => ?_⟩
  rw [← fpow_eq]
  exact writes_of_setXNat_le_q h hr (hx (not_or.2 ⟨h0, not_not.2 hdvd⟩)) (fpow_lt (q_pos h hr) _ _).le

/-- Settles O34: `codeLen` is the least power of two, so its exponent is the least one, and it is at most 2^16
because m ≤ q − 1. -/
theorem codeLengthHighComposite : Obligations.CodeLengthHighComposite := by
  refine fun d a s h => ⟨commandWord_of_encode rfl rfl, withInstance_of_check .codeLength rfl fun hr hx hm => ?_⟩
  obtain ⟨j, hj⟩ := codeLen_pow (intOp s a)
  have hq := q_bounds h hr
  have hlt : codeLen (intOp s a) < 2 ^ 32 := by
    have := codeLen_least (intOp s a) 16 (by omega)
    omega
  refine ⟨j, hj ▸ le_codeLen _, fun i hi => ?_, hj ▸ writes_of_setXNat (hx (not_lt.2 hm)) hlt⟩
  exact (Nat.pow_le_pow_iff_right Nat.one_lt_two).1 (hj ▸ codeLen_least _ i hi)

/-! ### The Jacobi symbol (R133) -/

theorem jacobiWord_zero (q : Nat) : jacobiWord q 0 = 0 := rfl

theorem jacobiWord_residue {q u : Nat} (hu : u ≠ 0) (hp : u ^ ((q - 1) / 2) % q = 1) : jacobiWord q u = 1 := by
  rw [jacobiWord, if_neg hu, fpow_eq, if_pos hp]

theorem jacobiWord_nonresidue {q u : Nat} (hu : u ≠ 0) (hp : u ^ ((q - 1) / 2) % q ≠ 1) :
    jacobiWord q u = 0xFFFFFFFF := by
  rw [jacobiWord, if_neg hu, fpow_eq, if_neg hp]

/-- Euler's criterion: the power (q − 1)/2 of a number that is not 0 in the field is 1 or −1. -/
theorem pow_half_mod {q u : Nat} [Fact q.Prime] (hq : 2 < q) (hu : u % q ≠ 0) :
    u ^ ((q - 1) / 2) % q = 1 ∨ u ^ ((q - 1) / 2) % q = q - 1 := by
  have hodd : q % 2 = 1 := (Nat.Prime.mod_two_eq_one_iff_ne_two Fact.out).2 (by omega)
  rw [show (q - 1) / 2 = q / 2 by omega]
  have hlt : u ^ (q / 2) % q < q := Nat.mod_lt _ (by omega)
  refine (ZMod.pow_div_two_eq_neg_one_or_one q (cast_ne_zero.2 hu)).imp (fun h1 => ?_) (fun hneg => ?_)
  · exact eq_of_cast hlt (by omega) (by rw [cast_mod, Nat.cast_pow, h1, Nat.cast_one])
  · exact eq_of_cast hlt (by omega) (by rw [cast_mod, Nat.cast_pow, hneg, Nat.cast_sub (by omega)]; simp)

/-- Settles O35: one lemma per value of the symbol, and Euler's criterion for the power in the last case. -/
theorem jacobiSymbol : Obligations.JacobiSymbol := by
  refine fun d a s h => ⟨commandWord_of_encode rfl rfl, withInstance_of_whenReady rfl fun hr hx => ?_⟩
  have hw : Writes (.fjac d a) s d (jacobiWord s.q (elemOp s a)).toNat := writes_of_setX hx
  refine ⟨fun h0 => ?zero, fun h0 hp => ?residue, fun h0 hp => ⟨?nonresidue, ?power⟩⟩
  case zero => rwa [h0, jacobiWord_zero] at hw
  case residue => rwa [jacobiWord_residue h0 hp] at hw
  case nonresidue => rwa [jacobiWord_nonresidue h0 hp] at hw
  case power =>
    have := Fact.mk (q_prime h hr)
    have hu : elemOp s a % s.q ≠ 0 := by rwa [Nat.mod_eq_of_lt (elemOp_lt h hr a)]
    exact (pow_half_mod (by have := q_bounds h hr; omega) hu).resolve_left hp

end Sys2Proof.Machine
end

section
/-! SUPPORT. The proofs of the statements on the polynomial commands (41_poly.md). -/

namespace Sys2Proof.Machine

open Sys2Proof

/-! ### Single coefficients (R151, R152) -/

/-- Settles O37: a write of one listed cell, and a read of one coefficient, which is below q. -/
theorem polynomialSetAndGet : Obligations.PolynomialSetAndGet := by
  intro p d a b s h
  refine ⟨commandWord_of_encode rfl rfl, ?pset, commandWord_of_encode rfl rfl, ?pget⟩
  case pset =>
    refine withInstance_of_check .polyDegree rfl fun _ hx hlt =>
      ⟨_, hx (not_le.2 hlt), changesOnlyPoly_setPoly s p _, fun j => ?_⟩
    rw [getPoly_setPoly_same, Memory.read_write (h.polys p).1]
  case pget => exact withInstance_writes h rfl fun hr => ⟨rfl, (coef_lt (q_pos h hr) p _).le⟩

/-! ### The product (R153) -/

/-- The product is too large exactly when both factors are nonzero and their degrees add up to PCAP or more. -/
theorem productTooLarge_deg_iff {s : State} (h : Inv s) (hr : s.ready = true) (a b : PReg) :
    productTooLarge s.par.pcap (deg s a) (deg s b) = true ↔
      ∃ m n, IsDeg s a m ∧ IsDeg s b n ∧ m + n ≥ s.par.pcap := by
  simp only [productTooLarge_iff, deg_eq_some (h.polys _) (q_pos h hr)]

/-- Settles O38: the check is the one on the degrees, and the cells are those of the convolution. -/
theorem polynomialProduct : Obligations.PolynomialProduct := by
  intro d a s h
  refine ⟨commandWord_of_encode rfl rfl, withInstance_of_whenReady rfl fun hr hx => ⟨?tooLarge, ?fits⟩⟩
  case tooLarge =>
    intro m n hm hn hcap
    exact faults_of_command (e := .productDegree) hx
      (if_pos ((productTooLarge_deg_iff h hr d a).2 ⟨m, n, hm, hn, hcap⟩))
  case fits =>
    intro hfit
    have hc : ¬ productTooLarge s.par.pcap (deg s d) (deg s a) = true := fun hlarge => by
      obtain ⟨m, n, hm, hn, hcap⟩ := (productTooLarge_deg_iff h hr d a).1 hlarge
      exact absurd (hfit m n hm hn) (not_lt.2 hcap)
    rw [if_neg hc] at hx
    refine ⟨_, hx, changesOnlyPoly_setPoly s d _, fun j _ => ?_⟩
    rw [getPoly_setPoly_same]
    exact read_product (h.polys d) (h.polys a) (q_pos h hr) (by have := q_bounds h hr; omega) j

/-! ### Derivative and negation (R154, R155) -/

section
variable {s : State} (h : Inv s)
include h

theorem rising_terms (i : PReg) : ((terms s i).map Prod.fst).Pairwise (· < ·) := rising_termsOf _ _ (h.polys i).1

/-- Cell j of the derivative, for every j: beyond the register the coefficients are 0, so the last cell is 0 too. -/
theorem read_derivCells (d : PReg) (j : Nat) :
    Memory.read 0 (cellsOf (derivTerms s.q (terms s d))) j =
      BitVec.ofNat 17 ((j + 1) % s.q * coef s d (j + 1) % s.q) := by
  rw [read_cellsOf (rising_derivTerms _ (rising_terms h d)), read_derivTerms, read_terms (h.polys d), fmul]

theorem read_negCells (hr : s.ready = true) (d : PReg) (j : Nat) :
    Memory.read 0 (cellsOf ((terms s d).map fun t => (t.1, fneg s.q t.2))) j =
      BitVec.ofNat 17 (if coef s d j = 0 then 0 else s.q - coef s d j) := by
  have hrising : (((terms s d).map fun t => (t.1, fneg s.q t.2)).map Prod.fst).Pairwise (· < ·) := by
    rw [List.map_map]
    exact rising_terms h d
  rw [read_cellsOf hrising, read_map_snd (fneg s.q) (by simp [fneg]), read_terms (h.polys d),
    fneg_eq (coef_lt (q_pos h hr) d j)]

end

/-- Settles O39: every cell written is the field element its rule gives. -/
theorem polynomialDerivativeAndNegation : Obligations.PolynomialDerivativeAndNegation := by
  intro d s h
  refine ⟨commandWord_of_encode rfl rfl, withInstance_of_whenReady rfl fun hr hx =>
      ⟨_, hx, changesOnlyPoly_setPoly s d _, ?derivative, ?last⟩,
    commandWord_of_encode rfl rfl, withInstance_of_whenReady rfl fun hr hx =>
      ⟨_, hx, changesOnlyPoly_setPoly s d _, ?negation⟩⟩
  case derivative =>
    intro j _
    rw [getPoly_setPoly_same, read_derivCells h, toNat_ofNat_elem h hr (Nat.mod_lt _ (q_pos h hr))]
  case last =>
    rw [getPoly_setPoly_same, read_derivCells h, coef_beyond (by omega), mul_zero, Nat.zero_mod]
    rfl
  case negation =>
    intro j _
    have hlt : (if coef s d j = 0 then 0 else s.q - coef s d j) < s.q := by
      have := q_pos h hr
      split <;> omega
    rw [getPoly_setPoly_same, read_negCells h hr, toNat_ofNat_elem h hr hlt]

/-! ### Evaluation (R156) -/

/-- Settles O40: the sum over the terms is the sum over all coefficients, a remainder modulo q. -/
theorem polynomialEvaluation : Obligations.PolynomialEvaluation := fun _ _ a _ h =>
  ⟨commandWord_of_encode rfl rfl, withInstance_writes h rfl fun hr =>
    ⟨evalTerms_terms (h.polys a) (q_pos h hr) _, (evalTerms_lt (q_pos h hr) _ _).le⟩⟩

/-! ### Copy and clear (R157, R158) -/

/-- Settles O41: the register written is the source's cells, or has no listed cell. -/
theorem polynomialCopyAndClear : Obligations.PolynomialCopyAndClear := fun d _ s _ =>
  ⟨commandWord_of_encode rfl rfl, withInstance_of_whenReady rfl fun _ hx =>
      ⟨_, hx, changesOnlyPoly_setPoly s d _, fun j => by rw [getPoly_setPoly_same]⟩,
    commandWord_of_encode rfl rfl, withInstance_of_whenReady rfl fun _ hx =>
      ⟨_, hx, changesOnlyPoly_setPoly s d _, fun j => by rw [getPoly_setPoly_same, Memory.read_nil]⟩⟩

end Sys2Proof.Machine
end

section
/-! SUPPORT. The proofs of the statements on the transforms (42_fft.md), and the example words of the encoding. -/

namespace Sys2Proof.Machine

open Sys2Proof

/-! ### The transforms of a legal state with `READY` = 1 (R170, R175) -/

/-- An entry inside a list, read with a default. -/
theorem getElem?_eq_some_getD {l : List Nat} {i : Nat} (h : i < l.length) : l[i]? = some (l.getD i 0) := by
  rw [List.getElem?_eq_getElem h, List.getD_eq_getElem l 0 h]

section
variable {s : State} (h : Inv s) (hr : s.ready = true)
include h hr

/-- The ri of R170: the inverse of R that the inverse transform computes. -/
theorem r_mul_finv : s.r * finv s.q s.r % s.q = 1 := by
  have := Fact.mk (q_prime h hr)
  exact (finv_spec (by have := q_bounds h hr; omega) (r_ne_zero h hr)).2

/-- The ni of R170: N is below q, so the inverse of its residue is its own. -/
theorem n_mul_finv : s.n * finv s.q (s.n % s.q) % s.q = 1 := by
  have := Fact.mk (q_prime h hr)
  have hn := n_bounds h hr
  rw [Nat.mod_eq_of_lt (show s.n < s.q by omega)]
  exact (finv_spec (by omega) (cast_ne_zero.1 (n_ne_zero h hr))).2

/-- R175: R has order N and N is not 0 in the field. -/
theorem inverse_forward_of_inv {a : List Nat} (hl : a.length = s.n) (ha : ∀ v ∈ a, v < s.q) :
    inverse s.q s.r s.n (forward s.q s.r s.n a) = a := by
  have := Fact.mk (q_prime h hr)
  exact inverse_forward (by have := q_bounds h hr; omega) (r_primitive h hr) (n_ne_zero h hr) hl ha

theorem forward_inverse_of_inv {a : List Nat} (hl : a.length = s.n) (ha : ∀ v ∈ a, v < s.q) :
    forward s.q s.r s.n (inverse s.q s.r s.n a) = a := by
  have := Fact.mk (q_prime h hr)
  exact forward_inverse (by have := q_bounds h hr; omega) (r_primitive h hr) (n_ne_zero h hr) hl ha

end

/-- Settles O59: the sums are those of `forward_getD` and `inverse_getD`, and R has order N, so each transform undoes
the other. -/
theorem transformsOfVectorsUndoEachOther : Obligations.TransformsOfVectorsUndoEachOther := by
  intro s a h hr hl ha
  refine ⟨fun j hj => ?_, ⟨_, _, r_mul_finv h hr, n_mul_finv h hr, fun i hi => ?_⟩,
    inverse_forward_of_inv h hr hl ha, forward_inverse_of_inv h hr hl ha⟩
  · rw [getElem?_eq_some_getD (by rwa [length_forward]), forward_getD _ _ _ _ hj, hl]
  · rw [getElem?_eq_some_getD (by rwa [length_inverse]), inverse_getD _ _ _ _ hi, hl]
    simp only [mul_comm i]

/-! ### The commands (R171 to R174) -/

section
variable {i : Instr} {s : State} (h : Inv s) {lanes : List Nat} (hnd : lanes.Nodup)
include h hnd

/-- A command that transforms distinct lanes forward: NotReady when `READY` = 0, else its cells of `OBUF`. -/
theorem withInstance_forwardLanes (he : exec i s = command i s (whenReady s (.ok (forwardLanes s lanes)))) :
    WithInstance i s (∃ t, exec i s = .next t ∧ ChangesOnlyObuf s t ∧
      ∀ p l, Grid.read t.obuf p l =
        if l ∈ lanes ∧ p < s.n then BitVec.ofNat 17 (transformSum s s.n l p) else Grid.read s.obuf p l) :=
  withInstance_of_whenReady he fun _ hx => ⟨_, hx, rfl, read_forwardLanes h.obuf.1 hnd⟩

/-- A command that transforms distinct lanes back, with the inverses of R and of N. -/
theorem withInstance_inverseLanes (he : exec i s = command i s (whenReady s (.ok (inverseLanes s lanes)))) :
    WithInstance i s (∃ t ri ni, s.r * ri % s.q = 1 ∧ s.n * ni % s.q = 1 ∧ exec i s = .next t ∧
      ChangesOnlyObuf s t ∧
      ∀ p l, Grid.read t.obuf p l =
        if l ∈ lanes ∧ p < s.n then
          BitVec.ofNat 17 (ni * (∑ j ∈ Finset.range s.n, inputElem s j l * ri ^ (p * j)) % s.q)
        else Grid.read s.obuf p l) :=
  withInstance_of_whenReady he fun hr hx =>
    ⟨_, _, _, r_mul_finv h hr, n_mul_finv h hr, hx, rfl, fun p l => by
      simpa only [mul_comm p] using read_inverseLanes h.obuf.1 hnd p l⟩

end

/-- Settles O42: the two commands differ in their lanes only. -/
theorem forwardTransform : Obligations.ForwardTransform := fun s h =>
  ⟨commandWord_of_encode rfl rfl,
    by simpa only [List.mem_singleton] using withInstance_forwardLanes h (List.nodup_singleton 0) rfl,
    commandWord_of_encode rfl rfl,
    by simpa only [mem_packetLanes] using withInstance_forwardLanes h (nodup_packetLanes s) rfl⟩

/-- Settles O43: the two commands differ in their lanes only. -/
theorem inverseTransform : Obligations.InverseTransform := fun s h =>
  ⟨commandWord_of_encode rfl rfl,
    by simpa only [List.mem_singleton] using withInstance_inverseLanes h (List.nodup_singleton 0) rfl,
    commandWord_of_encode rfl rfl,
    by simpa only [mem_packetLanes] using withInstance_inverseLanes h (nodup_packetLanes s) rfl⟩

/-! ### One transform after the other (R175) -/

theorem exec_fft_of_ready {s : State} (hr : s.ready = true) : exec .fft s = .next (forwardLanes s [0]) :=
  congrArg (command .fft s) (whenReady_true hr (.ok (forwardLanes s [0])))

theorem exec_ifft_of_ready {s : State} (hr : s.ready = true) : exec .ifft s = .next (inverseLanes s [0]) :=
  congrArg (command .ifft s) (whenReady_true hr (.ok (inverseLanes s [0])))

/-- A column of field elements written to lane 0 of `OBUF` reads back as it is. -/
theorem toNat_read_lane0 {s : State} (h : Inv s) (hr : s.ready = true) {col : Nat → List Nat}
    (hcol : ∀ v ∈ col 0, v < s.q) {p : Nat} (hp : p < (col 0).length) :
    (Grid.read (Grid.writeColumns s.obuf ([0].map fun l => (l, col l))) p 0).toNat = (col 0).getD p 0 := by
  have hlt : (col 0).getD p 0 < s.q := by
    rw [List.getD_eq_getElem _ 0 hp]
    exact hcol _ (List.getElem_mem hp)
  rw [Grid.read_writeColumns h.obuf.1 [0] (List.nodup_singleton 0), if_pos ⟨List.mem_singleton_self 0, hp⟩,
    toNat_ofNat_elem h hr hlt]

/-- A lane of `IBUF` that holds n field elements is read as them. -/
theorem inputColumn_of_read {u : State} {n l : Nat} {vs : List Nat} (hl : vs.length = n) (hv : ∀ v ∈ vs, v < u.q)
    (hread : ∀ p, p < n → (Grid.read u.ibuf p l).toNat = vs.getD p 0) : inputColumn u n l = vs := by
  refine List.ext_getElem (by rw [length_inputColumn, hl]) fun p hp hp' => ?_
  rw [← List.getD_eq_getElem _ 0 hp, inputColumn_getD u n l (hl ▸ hp'), inputElem, hread p (hl ▸ hp'),
    List.getD_eq_getElem _ 0 hp', Nat.mod_eq_of_lt (hv _ (List.getElem_mem hp'))]

/-- When `g` undoes `f` on lane 0 of `IBUF`, a second state that takes over the column `f` left in `OBUF` has,
after `g`, the reduced input of the first one in its own `OBUF`. -/
theorem lane0_undone {s u : State} (h : Inv s) (hr : s.ready = true) (hu : Inv u) (hur : u.ready = true)
    (hq : u.q = s.q) {f g : List Nat → List Nat} (hf : (f (inputColumn s s.n 0)).length = s.n)
    (hflt : ∀ v ∈ f (inputColumn s s.n 0), v < s.q) (hgf : g (f (inputColumn s s.n 0)) = inputColumn s s.n 0)
    (hcopy : ∀ p, p < s.n → Grid.read u.ibuf p 0 =
      Grid.read (Grid.writeColumns s.obuf ([0].map fun l => (l, f (inputColumn s s.n l)))) p 0)
    {p : Nat} (hp : p < s.n) :
    (Grid.read (Grid.writeColumns u.obuf ([0].map fun l => (l, g (inputColumn u s.n l)))) p 0).toNat =
      inputElem s p 0 := by
  have hcol : inputColumn u s.n 0 = f (inputColumn s s.n 0) :=
    inputColumn_of_read hf (hq ▸ hflt) fun p hp => by
      rw [hcopy p hp, toNat_read_lane0 h hr (col := fun l => f (inputColumn s s.n l)) hflt (hp.trans_eq hf.symm)]
  have hback : g (inputColumn u s.n 0) = inputColumn s s.n 0 := by rw [hcol, hgf]
  rw [toNat_read_lane0 hu hur (col := fun l => g (inputColumn u s.n l)), hback, inputColumn_getD s s.n 0 hp]
  · rw [hback, hq]
    exact inputColumn_lt (q_pos h hr) s.n 0
  · rwa [hback, length_inputColumn]

/-- States with the same Q, R and N run the same transform. -/
theorem forwardLanes_of_inst {s u : State} (hi : u.inst = s.inst) (lanes : List Nat) :
    (forwardLanes u lanes).obuf =
      Grid.writeColumns u.obuf (lanes.map fun l => (l, forward s.q s.r s.n (inputColumn u s.n l))) := by
  simp only [forwardLanes, State.q, State.r, State.n, hi]

theorem inverseLanes_of_inst {s u : State} (hi : u.inst = s.inst) (lanes : List Nat) :
    (inverseLanes u lanes).obuf =
      Grid.writeColumns u.obuf (lanes.map fun l => (l, inverse s.q s.r s.n (inputColumn u s.n l))) := by
  simp only [inverseLanes, State.q, State.r, State.n, hi]

/-- Settles O44: both states have the same Q, R and N, so the second transform undoes the first. -/
theorem transformsUndoEachOther : Obligations.TransformsUndoEachOther := by
  intro s t u h hr hu hur hinst hcopy
  have hq : u.q = s.q := congrArg (fun inst => inst.q.toNat) hinst
  have hlt := inputColumn_lt (q_pos h hr) s.n 0
  refine ⟨fun ht => ?forwardFirst, fun ht => ?inverseFirst⟩
  case forwardFirst =>
    cases (exec_fft_of_ready hr).symm.trans ht
    refine ⟨_, exec_ifft_of_ready hur, fun p hp => ?_⟩
    rw [inverseLanes_of_inst hinst]
    exact lane0_undone h hr hu hur hq (length_forward ..) (forward_lt (q_pos h hr) _ _ _)
      (inverse_forward_of_inv h hr (length_inputColumn s s.n 0) hlt) hcopy hp
  case inverseFirst =>
    cases (exec_ifft_of_ready hr).symm.trans ht
    refine ⟨_, exec_fft_of_ready hur, fun p hp => ?_⟩
    rw [forwardLanes_of_inst hinst]
    exact lane0_undone h hr hu hur hq (length_inverse ..) (inverse_lt (q_pos h hr) _ _ _)
      (forward_inverse_of_inv h hr (length_inputColumn s s.n 0) hlt) hcopy hp

/-! ### Example words (95_test_vectors.md V-E) -/

/-- Settles O4: the decoder evaluated on each of the fourteen words. -/
theorem exampleWordsDecodeAsTheSpecSays : Obligations.ExampleWordsDecodeAsTheSpecSays :=
  ⟨rfl, rfl, rfl, rfl, rfl, rfl, rfl, rfl, rfl, rfl, rfl, rfl, rfl, rfl⟩

end Sys2Proof.Machine
end

section
/-! SUPPORT. The proofs of the statements on the coder commands (43_coder.md): construct, encode, decode, hooks. -/

namespace Sys2Proof.Machine

open Sys2Proof

/-! ### The root of a legal instance (R187) -/

/-- A power of two below 2·m is the least one that reaches m. -/
theorem two_pow_least {j m : Nat} (h : 2 ^ j < 2 * m) {i : Nat} (hi : m ≤ 2 ^ i) : 2 ^ j ≤ 2 ^ i := by
  have hlt : 2 ^ j < 2 ^ (i + 1) := by rw [pow_succ]; omega
  exact Nat.pow_le_pow_right Nat.two_pos (Nat.lt_succ_iff.1 ((Nat.pow_lt_pow_iff_right Nat.one_lt_two).1 hlt))

section
variable {s : State} (h : Inv s) (hr : s.ready = true)
include h hr

theorem r_pow_n_mod : s.r ^ s.n % s.q = 1 := by
  have hq := q_bounds h hr
  refine eq_of_cast (q := s.q) (Nat.mod_lt _ (by omega)) (by omega) ?_
  rw [cast_mod, Nat.cast_pow, (r_pow h hr).1, Nat.cast_one]

theorem r_pow_half_mod : s.r ^ (s.n / 2) % s.q = s.q - 1 := by
  have hq := q_bounds h hr
  refine eq_of_cast (q := s.q) (Nat.mod_lt _ (by omega)) (by omega) ?_
  rw [cast_mod, Nat.cast_pow, (r_pow h hr).2, Nat.cast_sub (by omega), ZMod.natCast_self, Nat.cast_one, zero_sub]

theorem r_pow_mod_inj {i j : Nat} (hi : i < s.n) (hj : j < s.n) (hij : s.r ^ i % s.q = s.r ^ j % s.q) : i = j := by
  refine (r_primitive h hr).pow_inj hi hj ?_
  exact_mod_cast (ZMod.natCast_eq_natCast_iff' _ _ s.q).2 hij

theorem r_pow_mod_ne_zero (i : Nat) : s.r ^ i % s.q ≠ 0 := by
  have := Fact.mk (q_prime h hr)
  rw [← cast_ne_zero, Nat.cast_pow]
  exact pow_ne_zero i (cast_ne_zero.2 (r_ne_zero h hr))

end

/-- Settles O36: N is a power of two below 2·(K + M), and R has order N in the field. -/
theorem instanceRootHasOrderN : Obligations.InstanceRootHasOrderN := by
  intro s h hr
  obtain ⟨hle, hlt⟩ := km_bounds h hr
  obtain ⟨e, he⟩ := n_pow h hr
  have hk := k_bounds h hr
  refine ⟨⟨e + 1, he, fun i hi => ?least⟩, hle, n_dvd h hr, by omega, r_pow_n_mod h hr, r_pow_half_mod h hr,
    fun i j => r_pow_mod_inj h hr, fun i _ => r_pow_mod_ne_zero h hr i⟩
  case least =>
    rw [he] at hlt ⊢
    exact two_pow_least hlt hi

/-! ### Checks that follow one another -/

section
variable {i : Instr} {s : State} {r : Except Err State} {c : Prop} [Decidable c] {e : Err}

/-- A command at a check whose condition holds raises the check's error. -/
theorem faults_of_check (hx : exec i s = command i s (if c then .error e else r)) (hc : c) :
    Faults i s e.code e.info := faults_of_command hx (if_pos hc)

/-- A command at a check whose condition fails goes on. -/
theorem exec_of_check (hx : exec i s = command i s (if c then .error e else r)) (hc : ¬ c) :
    exec i s = command i s r := hx.trans (by rw [if_neg hc])

end

/-! ### Construction (R186) -/

/-- `codeLen` is the power of two with the least exponent that reaches m. -/
theorem codeLen_eq_two_pow {m j : Nat} (hj : m ≤ 2 ^ j) (hleast : ∀ i, m ≤ 2 ^ i → j ≤ i) : codeLen m = 2 ^ j := by
  obtain ⟨i, hi⟩ := codeLen_pow m
  have hji : j ≤ i := hleast i (hi ▸ le_codeLen m)
  exact (codeLen_least m j hj).antisymm (hi ▸ Nat.pow_le_pow_right Nat.two_pos hji)

/-- Arguments that pass the checks of R186 fit in the fields of the instance. -/
theorem instanceOf_toNat {ws k m p g : Nat} (hws : ws = 1 ∨ ws = 2) (hkm : k + m ≤ fieldCard ws - 1) (hp : p < 2 ^ 32)
    (hg : g < fieldCard ws) :
    (instanceOf ws k m p g).ws.toNat = ws ∧ (instanceOf ws k m p g).k.toNat = k ∧
    (instanceOf ws k m p g).m.toNat = m ∧ (instanceOf ws k m p g).p.toNat = p ∧
    (instanceOf ws k m p g).q.toNat = fieldCard ws ∧ (instanceOf ws k m p g).g.toNat = g ∧
    (instanceOf ws k m p g).n.toNat = codeLen (k + m) ∧
    (instanceOf ws k m p g).r.toNat = g ^ ((fieldCard ws - 1) / codeLen (k + m)) % fieldCard ws := by
  have hq : 0 < fieldCard ws ∧ fieldCard ws ≤ 65537 := by rcases hws with rfl | rfl <;> decide
  have hn : codeLen (k + m) ≤ 2 ^ 16 := codeLen_least _ 16 (by omega)
  have hr : nthRoot (fieldCard ws) g (codeLen (k + m)) < fieldCard ws := fpow_lt hq.1 _ _
  refine ⟨toNat_ofNat_lt (by omega), toNat_ofNat_lt (by omega), toNat_ofNat_lt (by omega), toNat_ofNat_lt hp,
    toNat_ofNat_lt (by omega), toNat_ofNat_lt (by omega), toNat_ofNat_lt (by omega), ?_⟩
  rw [← fpow_eq]
  exact toNat_ofNat_lt (by omega)

/-- Settles O45: the checks of `construct` and then those of `constructField`, one after the other. -/
theorem configConstructsTheInstance : Obligations.ConfigConstructsTheInstance := by
  intro s ws k m p q hpar ews ek em ep eq
  obtain rfl : q = fieldCard ws := eq
  have atWs : exec .config s = command .config s (construct s ws k m p) := by rw [ews, ek, em, ep]; rfl
  refine ⟨commandWord_of_encode rfl rfl, fun h1 h2 => faults_of_check atWs ⟨h1, h2⟩, fun hws => ?_⟩
  have atK := exec_of_check atWs (by omega)
  refine ⟨faults_of_check atK, fun hk hm => faults_of_check (exec_of_check atK hk) hm,
    fun hk hm => faults_of_check (exec_of_check (exec_of_check atK hk) hm), fun hk hm hp hpmax => ?_⟩
  have atKM : exec .config s = command .config s (constructField s ws k m p) :=
    exec_of_check (exec_of_check (exec_of_check atK hk) hm) (by omega)
  refine ⟨faults_of_check atKM, fun hkm n j hn hle hleast => ?_⟩
  obtain rfl : n = codeLen (k + m) := hn.trans (codeLen_eq_two_pow (hn ▸ hle) hleast).symm
  have atN := exec_of_check atKM (not_lt.2 hkm)
  refine ⟨faults_of_check atN, fun hnmax => ?_⟩
  have atG := exec_of_check atN (not_lt.2 hnmax)
  rw [← fpow_eq]
  have hp32 := (pmax_lt hpar).2
  exact ⟨faults_of_check atG, fun hg =>
    ⟨_, exec_of_check atG (not_not.2 hg), rfl, instanceOf_toNat hws hkm (by omega) (groot_lt hpar hws).2⟩⟩

/-! ### Encode (R190, R191) -/

/-- What holds with an instance may be said in any terms that follow from it. -/
theorem withInstance_imp {i : Instr} {s : State} {p p' : Prop} (hw : WithInstance i s p)
    (hp : s.ready = true → p → p') : WithInstance i s p' := ⟨hw.1, fun hr => hp hr (hw.2 hr)⟩

/-- A command that encodes distinct lanes: NotReady when `READY` = 0, CapacityError 3 when the entries due at a position
do not fit, else the code values in `OBUF` and the entries of each position in the order of the lanes. -/
theorem withInstance_encodeLanes {i : Instr} {s : State} (h : Inv s) {lanes : List Nat} (hnd : lanes.Nodup)
    (he : exec i s = command i s (whenReady s (encodeLanes s lanes))) :
    WithInstance i s (
      ((∃ j, j < s.n ∧ (getProps s j).entries.length + (lanes.filter fun l => oorAt s j l).length > s.par.propcap) →
        Faults i s 6 3) ∧
      ((∀ j, j < s.n → (getProps s j).entries.length + (lanes.filter fun l => oorAt s j l).length ≤ s.par.propcap) →
        ∃ t, exec i s = .next t ∧ t = { s with obuf := t.obuf, prop := t.prop } ∧
          (∀ p l, Grid.read t.obuf p l =
            if l ∈ lanes ∧ p < s.n then (if oorAt s p l then 0 else BitVec.ofNat 17 (transformSum s s.k l p))
            else Grid.read s.obuf p l) ∧
          (∀ p, getProps t p =
            if p < s.n then (getProps s p).appendAll ((lanes.filter fun l => oorAt s p l).map (oorEntry s))
            else getProps s p))) := by
  refine withInstance_of_whenReady he fun _ hx => ⟨fun hfull => ?full, fun hfits => ?fits⟩
  case full => exact faults_of_check hx ((propsOverflow_iff h.prop lanes).2 hfull)
  case fits =>
    have hcap : ¬ propsOverflow s (codeColumns s lanes) = true := fun hover => by
      obtain ⟨j, hj, hgt⟩ := (propsOverflow_iff h.prop lanes).1 hover
      exact absurd (hfits j hj) (not_le.2 hgt)
    refine ⟨_, exec_of_check hx hcap, rfl, read_encode_obuf h.obuf.1 hnd, fun p => ?_⟩
    rw [getProps_encode h.prop.1 lanes p]
    split
    · rfl
    · exact PropList.appendAll_nil _

/-- Settles O47: the encode of the lanes 0 .. P−1. -/
theorem packetEncode : Obligations.PacketEncode := by
  intro s h
  have hw := withInstance_encodeLanes (i := .encp) h (nodup_packetLanes s) rfl
  simp only [mem_packetLanes] at hw
  exact ⟨commandWord_of_encode rfl rfl, hw⟩

/-- Lane 0 is located at `OFFSET` itself (R229). -/
theorem oorEntry_lane0 (s : State) : oorEntry s 0 = { loc := s.offset, mark := 1 } := by
  simp [oorEntry, laneLoc, oorMark]

/-- Of the one lane 0, as many are out of range at a position as its value there says. -/
theorem filter_lane0 (s : State) (j : Nat) :
    ([0].filter fun l => oorAt s j l) = if transformSum s s.k 0 j = s.q - 1 then [0] else [] := by
  simp [List.filter_cons]

/-- Settles O46: with lane 0 alone at most one entry is due at a position, and a legal list is at most full. -/
theorem scalarEncode : Obligations.ScalarEncode := by
  refine fun s h => ⟨commandWord_of_encode rfl rfl,
    withInstance_imp (withInstance_encodeLanes h (List.nodup_singleton 0) rfl) fun _ ⟨full, fits⟩ => ?_⟩
  simp only [filter_lane0, List.mem_singleton] at full fits
  refine ⟨fun ⟨j, hj, hoor, hlen⟩ => full ⟨j, hj, ?due⟩, fun hroom => ?fits⟩
  case due => rw [if_pos hoor, hlen]; exact Nat.lt_succ_self _
  case fits =>
    have room (j : Nat) (hj : j < s.n) : (getProps s j).entries.length +
        (if transformSum s s.k 0 j = s.q - 1 then [0] else []).length ≤ s.par.propcap := by
      have hlen := (getProps_legal h.prop j).1
      split
      · next hoor => exact Nat.lt_of_le_of_ne hlen (hroom j hj hoor)
      · exact hlen
    obtain ⟨t, hx, ht, hobuf, hprops⟩ := fits room
    refine ⟨t, hx, ht, fun p l => (hobuf p l).trans (ite_congr rfl (fun hl => by rw [hl.1]) fun _ => rfl),
      fun p => (hprops p).trans ?_⟩
    rw [ite_and]
    split
    · split
      · rw [List.map_singleton, oorEntry_lane0]; rfl
      · exact PropList.appendAll_nil _
    · rfl

/-! ### Decode (R192 to R195) -/

/-- A state after a decode of the lanes `lanes` (R193, R194). -/
def decoded (s : State) (lanes : List Nat) : State :=
  { s with obuf := Grid.writeColumns s.obuf (lanes.map fun l => (l, recovered s l (fragIds s))) }

/-- A command that decodes: NotReady when `READY` = 0, OperandError 3 for an id not below N, then ArithmeticError 3 for
ids that are not distinct, else `decoded`. -/
theorem withInstance_decodeLanes {i : Instr} {s : State} {lanes : List Nat} {p : Prop}
    (he : exec i s = command i s (whenReady s (decodeLanes s lanes)))
    (hp : s.ready = true → (∀ i, i < s.k → fragId s i < s.n) → (fragIds s).Nodup →
      exec i s = .next (decoded s lanes) → p) :
    WithInstance i s (
      ((∃ i, i < s.k ∧ fragId s i ≥ s.n) → Faults i s 5 3) ∧
      ((∀ i, i < s.k → fragId s i < s.n) →
        ((∃ i j, i < j ∧ j < s.k ∧ fragId s i = fragId s j) → Faults i s 3 3) ∧
        ((∀ i j, i < j → j < s.k → fragId s i ≠ fragId s j) → p))) := by
  refine withInstance_of_whenReady he fun hr hx =>
    ⟨fun hid => faults_of_command hx (decodeLanes_fragmentId hid), fun hid => ?_⟩
  rw [decodeLanes_in_range hid] at hx
  refine ⟨fun ⟨a, b, hab, hb, hsame⟩ => faults_of_check hx fun hnd => ?same, fun hne => ?distinct⟩
  case same => exact (nodup_fragIds s).1 hnd a b hab hb hsame
  case distinct =>
    have hnd := (nodup_fragIds s).2 hne
    exact hp hr hid hnd (exec_of_check hx (not_not.2 hnd))

section
variable {s : State} (h : Inv s) {lanes : List Nat} (hnd : lanes.Nodup)
include h hnd

/-- A decode leaves every cell outside its lanes and beyond the K recovered words. -/
theorem read_decoded_frame {p l : Nat} (hpl : ¬ (l ∈ lanes ∧ p < s.k)) :
    Grid.read (decoded s lanes).obuf p l = Grid.read s.obuf p l :=
  (read_recovered h.obuf.1 hnd p l).trans (if_neg hpl)

variable (hr : s.ready = true) {l : Nat} (hl : l ∈ lanes)
include hr hl

/-- The cells a decode writes hold the recovered words. -/
theorem toNat_read_decoded {p : Nat} (hp : p < s.k) :
    (Grid.read (decoded s lanes).obuf p l).toNat = (recovered s l (fragIds s)).getD p 0 := by
  rw [decoded, read_recovered h.obuf.1 hnd, if_pos ⟨hl, hp⟩, toNat_ofNat_elem h hr (recovered_getD_lt h hr l p)]

theorem read_decoded_lt {p : Nat} (hp : p < s.k) : (Grid.read (decoded s lanes).obuf p l).toNat < s.q := by
  rw [toNat_read_decoded h hnd hr hl hp]
  exact recovered_getD_lt h hr l p

variable (hid : ∀ i, i < s.k → fragId s i < s.n) (hids : (fragIds s).Nodup)
include hid hids

/-- R195: the words a decode writes are the coefficients of a polynomial through the restored values. -/
theorem decoded_interpolates {i : Nat} (hi : i < s.k) :
    (∑ p ∈ Finset.range s.k, (Grid.read (decoded s lanes).obuf p l).toNat * (s.r ^ fragId s i) ^ p) % s.q =
      restored s l i := by
  rw [← recovered_interpolates h hr hid hids l hi]
  congr 1
  exact Finset.sum_congr rfl fun p hp => by rw [toNat_read_decoded h hnd hr hl (Finset.mem_range.1 hp)]

/-- R195: no other words below Q are. -/
theorem decoded_unique {c : Nat → Nat} (hc : ∀ p, p < s.k → c p < s.q)
    (hy : ∀ i, i < s.k → (∑ p ∈ Finset.range s.k, c p * (s.r ^ fragId s i) ^ p) % s.q = restored s l i) {p : Nat}
    (hp : p < s.k) : (Grid.read (decoded s lanes).obuf p l).toNat = c p :=
  (toNat_read_decoded h hnd hr hl hp).trans (recovered_unique h hr hid hids l hc hy hp)

end

/-- Settles O48: the decode of lane 0. -/
theorem scalarDecode : Obligations.ScalarDecode := by
  refine fun s h => ⟨commandWord_of_encode rfl rfl, withInstance_decodeLanes rfl fun hr hid hids hx => ?_⟩
  have hnd : [0].Nodup := List.nodup_singleton 0
  have h0 : 0 ∈ [0] := List.mem_singleton_self 0
  exact ⟨_, hx, rfl, fun p l hpl => read_decoded_frame h hnd (by rwa [List.mem_singleton]),
    fun p => read_decoded_lt h hnd hr h0, fun i => decoded_interpolates h hnd hr h0 hid hids,
    fun c hc hy p => decoded_unique h hnd hr h0 hid hids hc hy⟩

/-- Settles O49: the decode of the lanes 0 .. P−1. -/
theorem packetDecode : Obligations.PacketDecode := by
  refine fun s h => ⟨commandWord_of_encode rfl rfl, withInstance_decodeLanes rfl fun hr hid hids hx => ?_⟩
  have hnd := nodup_packetLanes s
  have hmem {l : Nat} : l < s.lanes → l ∈ packetLanes s := (mem_packetLanes s l).2
  exact ⟨_, hx, rfl, fun p l hpl => read_decoded_frame h hnd (by rwa [mem_packetLanes]),
    fun p l hl => read_decoded_lt h hnd hr (hmem hl),
    fun i l hl => decoded_interpolates h hnd hr (hmem hl) hid hids⟩

/-! ### Decode after encode (R201) -/

section
variable {s : State} (h : Inv s) (hr : s.ready = true)
include h hr

/-- An encode of lane 0 from an empty property store completes: a list has room for one entry. -/
theorem exec_enc_of_empty (hprop : s.prop = []) : exec .enc s = .next (encodeColumns s (codeColumns s [0])) := by
  have hx : exec .enc s = command .enc s (encodeLanes s [0]) := congrArg (command .enc s) (whenReady_true hr _)
  refine exec_of_check hx fun hover => ?_
  obtain ⟨j, -, hgt⟩ := (propsOverflow_iff h.prop [0]).1 hover
  have hempty : getProps s j = emptyProps := by rw [getProps, hprop, Memory.read_nil]
  have hone : ([0].filter fun l => oorAt s j l).length ≤ 1 := List.length_filter_le _ _
  rw [hempty, show emptyProps.entries.length = 0 from rfl] at hgt
  have := pmax_lt h.params
  have := propcap_lt h.params
  omega

/-- What a decode restores from what an encode of lane 0 left: the code value of the position, also where it is out of
range and its cell holds 0. -/
theorem restored_of_encoded {u : State} (hprop : s.prop = []) (hinst : u.inst = s.inst) (hoff : u.offset = s.offset)
    (huprop : u.prop = (encodeColumns s (codeColumns s [0])).prop) {i : Nat} (hi : fragId u i < s.n)
    (hcell : Grid.read u.ibuf i 0 = Grid.read (encodeColumns s (codeColumns s [0])).obuf (fragId u i) 0) :
    restored u 0 i = transformSum s s.k 0 (fragId u i) := by
  have hq : u.q = s.q := congrArg (fun inst => inst.q.toNat) hinst
  have hlist : (getProps u (fragId u i)).entries =
      if oorAt s (fragId u i) 0 then [{ loc := u.offset, mark := 1 }] else [] := by
    have hget : getProps u (fragId u i) = getProps (encodeColumns s (codeColumns s [0])) (fragId u i) :=
      congrArg (fun prop => Memory.read emptyProps prop (fragId u i)) huprop
    rw [hget, getProps_encode h.prop.1, if_pos hi, filter_lane0, getProps, hprop, Memory.read_nil, hoff]
    split
    · rw [List.map_singleton, oorEntry_lane0]; rfl
    · rfl
  have hlt : transformSum s s.k 0 (fragId u i) < s.q := Nat.mod_lt _ (q_pos h hr)
  rw [restored, hlist, hq]
  by_cases hoor : oorAt s (fragId u i) 0
  · rw [if_pos hoor, if_pos (by simp), hoor]
  · rw [if_neg hoor, if_neg (by simp), inputElem, hcell, read_encode_obuf h.obuf.1 (List.nodup_singleton 0),
      if_pos ⟨List.mem_singleton_self 0, hi⟩, if_neg hoor, toNat_ofNat_elem h hr hlt, hq, Nat.mod_eq_of_lt hlt]

end

/-- Settles O50: the source words are coefficients below Q through the restored values, and a decode writes the only
ones. -/
theorem decodeRecoversWhatEncodeWrote : Obligations.DecodeRecoversWhatEncodeWrote := by
  intro s t u h hr hprop ht hu hur hinst _ hoff huprop hid hne hcopy
  cases (exec_enc_of_empty h hr hprop).symm.trans ht
  have hk : u.k = s.k := congrArg (fun inst => inst.k.toNat) hinst
  have hn : u.n = s.n := congrArg (fun inst => inst.n.toNat) hinst
  have hq : u.q = s.q := congrArg (fun inst => inst.q.toNat) hinst
  have hroot : u.r = s.r := congrArg (fun inst => inst.r.toNat) hinst
  obtain ⟨-, -, hdec⟩ := scalarDecode u hu
  rw [hk, hn, hq, hroot] at hdec
  obtain ⟨v, hx, -, -, -, -, hunique⟩ := ((hdec hur).2 hid).2 hne
  refine ⟨v, hx, hunique (fun p => inputElem s p 0) (fun p _ => Nat.mod_lt _ (q_pos h hr)) fun i hi => ?_⟩
  rw [restored_of_encoded h hr hprop hinst hoff huprop (hid i hi) (hcopy i hi), transformSum]
  simp only [← pow_mul, mul_comm (fragId u i)]

/-! ### Hooks (R196 to R198) -/

/-- Settles O51: after the ready check `DADDD` has nothing but its error, the other two nothing at all. -/
theorem decodeHooks : Obligations.DecodeHooks := fun _ =>
  ⟨commandWord_of_encode rfl rfl, withInstance_of_whenReady rfl fun _ hx => faults_of_command hx rfl,
    commandWord_of_encode rfl rfl, withInstance_of_whenReady rfl fun _ hx => hx,
    commandWord_of_encode rfl rfl, withInstance_of_whenReady rfl fun _ hx => hx⟩

end Sys2Proof.Machine
end

section
/-! SUPPORT. The proofs of the statements on the property commands (44_property.md). -/

namespace Sys2Proof.Machine

open Sys2Proof

/-! ### The position check (60_exceptions.md R245) -/

section
variable {i : Instr} {s : State} {pos : Nat} {r : Except Err State}

theorem faults_of_position (he : exec i s = command i s (whenPosition s pos r)) (hp : pos ≥ s.par.nmax) :
    Faults i s 5 4 := faults_of_command he (whenPosition_ge hp r)

theorem exec_of_position (he : exec i s = command i s (whenPosition s pos r)) (hp : pos < s.par.nmax) :
    exec i s = command i s r := he.trans (by rw [whenPosition_lt hp])

end

/-! ### Commands that replace one list -/

/-- A command whose effect is one property list changes nothing else. -/
theorem changesOnlyProps_setProps (s : State) (p : Nat) (l : PropList) : ChangesOnlyProps p s (setProps s p l) :=
  ⟨fun _ hj => getProps_setProps_ne s hj l, rfl⟩

/-- A command whose effect is the list `l` at position `p` completes with it. -/
theorem completes_of_setProps {i : Instr} {s : State} (h : Inv s) {p : Nat} {l : PropList}
    (hx : exec i s = command i s (.ok (setProps s p l))) :
    ∃ t, exec i s = .next t ∧ ChangesOnlyProps p s t ∧
      (getProps t p).entries = l.entries ∧ (getProps t p).cursor = l.cursor :=
  ⟨_, hx, changesOnlyProps_setProps s p l, by rw [getProps_setProps_same h.prop],
    by rw [getProps_setProps_same h.prop]⟩

/-! ### Append (R221) -/

theorem locOp_eq_ofNat (s : State) (lo hi : XReg) :
    locOp s lo hi = BitVec.ofNat 64 ((getX s hi).toNat * 2 ^ 32 + (getX s lo).toNat) := by
  rw [← locOp_toNat, BitVec.ofNat_toNat, BitVec.setWidth_eq]

/-- Settles O52: a legal list holds at most PROPCAP entries, so one that is not full has fewer. -/
theorem propertyAdd : Obligations.PropertyAdd := by
  intro d a b c s h
  have hx (hp : intOp s a < s.par.nmax) := exec_of_position (i := .pradd d a b c) rfl hp
  refine ⟨commandWord_of_encode rfl rfl, faults_of_position rfl, fun hp hfull => ?full, fun hp hroom => ?room⟩
  case full => exact faults_of_check (hx hp) hfull.ge
  case room =>
    have hlt := lt_of_le_of_ne (getProps_legal h.prop (intOp s a)).1 hroom
    obtain ⟨t, ht, hframe, hentries, hcursor⟩ := completes_of_setProps h (exec_of_check (hx hp) (not_le.2 hlt))
    rw [← locOp_eq_ofNat]
    exact ⟨t, ht, hframe, hcursor, hentries⟩

/-! ### The iterator (R222 to R225) -/

theorem PropList.advance_entries (l : PropList) : l.advance.entries = l.entries := by
  unfold PropList.advance
  split <;> rfl

theorem PropList.advance_cursor (l : PropList) :
    l.advance.cursor = if l.cursor < l.entries.length then l.cursor + 1 else l.cursor :=
  apply_ite PropList.cursor (l.cursor < l.len) _ _

theorem currentMatches_locOp_iff (l : PropList) (s : State) (lo hi : XReg) :
    currentMatches l (locOp s lo hi) = true ↔
      ∃ e, l.current = some e ∧ e.loc.toNat = (getX s hi).toNat * 2 ^ 32 + (getX s lo).toNat := by
  simp only [currentMatches_iff, ← locOp_toNat, BitVec.toNat_inj]

/-- Settles O53: the two cases are those of `currentMatches`; the current entry of a match is one to pass. -/
theorem propertyIsMarked : Obligations.PropertyIsMarked := by
  intro d a b c s h
  refine ⟨commandWord_of_encode rfl rfl, faults_of_position rfl, fun hp => ?_⟩
  have hx := exec_of_position (i := .prmk d a b c) rfl hp
  refine ⟨fun hmatch => ?current, fun hne => ?other⟩
  case current =>
    have hcur : (getProps s (intOp s a)).cursor < (getProps s (intOp s a)).entries.length := by
      obtain ⟨e, he, -⟩ := hmatch
      exact PropList.current_of_some he
    rw [if_pos ((currentMatches_locOp_iff _ s b c).2 hmatch), PropList.advance_of_lt hcur] at hx
    refine ⟨_, hx, getX_setXNat_same _ d 1, fun r hr => getX_setXNat_ne _ d r 1 hr, fun _ hj => getProps_setProps_ne s hj _,
      by rw [getProps_setXNat, getProps_setProps_same h.prop],
      by rw [getProps_setXNat, getProps_setProps_same h.prop], rfl⟩
  case other =>
    have hno : ¬ currentMatches (getProps s (intOp s a)) (locOp s b c) = true := fun hm => by
      obtain ⟨e, he, hloc⟩ := (currentMatches_locOp_iff _ s b c).1 hm
      exact hne e he hloc
    rw [if_neg hno] at hx
    exact writes_of_setXNat hx (by decide)

/-- Settles O54: each of the three commands replaces the list of its position. -/
theorem propertyIteratorCommands : Obligations.PropertyIteratorCommands := by
  intro a s h
  refine ⟨commandWord_of_encode rfl rfl, commandWord_of_encode rfl rfl, commandWord_of_encode rfl rfl,
    fun hp => ⟨faults_of_position rfl hp, faults_of_position rfl hp, faults_of_position rfl hp⟩,
    fun hp => ⟨?next, ?rewind, ?clear⟩⟩
  case next =>
    rw [← PropList.advance_cursor, ← PropList.advance_entries (getProps s (intOp s a))]
    exact completes_of_setProps h (exec_of_position rfl hp)
  case rewind => exact completes_of_setProps h (exec_of_position (i := .prrew a) rfl hp)
  case clear => exact completes_of_setProps h (exec_of_position (i := .prclr a) rfl hp)

/-! ### All lists, and the length of one (R226, R227) -/

/-- Settles O55: no list of the empty store has an entry; a legal list has at most PROPCAP entries, which fits a
register. -/
theorem propertyClearAllAndLength : Obligations.PropertyClearAllAndLength := by
  intro d a s h
  have hlen : (getProps s (intOp s a)).entries.length < 2 ^ 32 :=
    (getProps_legal h.prop _).1.trans_lt (propcap_lt h.params).2
  exact ⟨commandWord_of_encode rfl rfl, ⟨{ s with prop := [] }, rfl, rfl, fun _ => ⟨rfl, rfl⟩⟩,
    commandWord_of_encode rfl rfl, faults_of_position rfl,
    fun hp => writes_of_setXNat ((exec_of_position rfl hp).trans (command_ok _ _ _)) hlen⟩

end Sys2Proof.Machine
end

section
/-! SUPPORT. The proofs of the statements on the errors (60_exceptions.md): which commands raise NotReady, that every
command answers a next state and faults precisely, and what a recorded error and its return change. -/

namespace Sys2Proof.Machine

open Sys2Proof

/-! ### The form of every command (R245, R246) -/

/-- The commands that need an instance make the ready check first. -/
theorem exec_whenReady {i : Instr} (hi : needsInstance i = true) (s : State) :
    ∃ r, exec i s = command i s (whenReady s r) := by
  cases i with
  | li | config | pradd | prmk | prnext | prrew | prclr | prclra | prlen => cases hi
  | _ => exact ⟨_, rfl⟩

/-- Every command ends as `command` says; `LI` and `PRCLRA`, which make no check, always in their effect. -/
theorem exec_command (i : Instr) (s : State) : ∃ r, exec i s = command i s r := by
  cases i with
  | li d imm => exact ⟨.ok (setX s d imm), rfl⟩
  | prclra => exact ⟨.ok { s with prop := [] }, rfl⟩
  | _ => exact ⟨_, rfl⟩

theorem exec_next (i : Instr) (s : State) : ∃ t, exec i s = .next t := by
  obtain ⟨r, hr⟩ := exec_command i s
  rcases command_cases i s r with ⟨t, -, ht⟩ | ⟨e, -, ht⟩
  · exact ⟨t, hr.trans ht⟩
  · exact ⟨_, hr.trans ht⟩

/-- The effect of a command that did not fault reaches no error register. -/
theorem Effect.error_eq {i : Instr} {s t : State} (h : Effect i s t) : t.error = s.error := by
  rcases h with ⟨-, ri, rfl⟩ | ⟨d, v, pr, -, rfl, -⟩ | ⟨d, m, -, rfl⟩ | ⟨-, ob, pr, rfl, -, -⟩
  · rfl
  · rfl
  · rfl
  · rfl

/-- Settles O17: the answer of a command is its effect, which keeps the error registers, or fault entry. -/
theorem commandsFaultPrecisely : Obligations.CommandsFaultPrecisely := by
  intro i s
  obtain ⟨t, ht⟩ := exec_next i s
  refine ⟨t, ht, ?_⟩
  rcases exec_effect ht with ⟨e, rfl⟩ | heffect
  · exact .inr ⟨e, mem_allErrors e, ht⟩
  · exact .inl heffect.error_eq

/-- Settles O18: the ready check fails before anything else is looked at. -/
theorem commandsWithoutInstanceRaiseNotReady : Obligations.CommandsWithoutInstanceRaiseNotReady := by
  intro i s hi hready
  obtain ⟨r, hr⟩ := exec_whenReady hi s
  exact faults_of_command hr (whenReady_false hready r)

/-! ### A recorded error (R247) -/

/-- Settles O8: the write is one to `CMD`, which runs no word while `ERR` = 1. -/
theorem commandsAreIgnoredWhileErrorIsRecorded : Obligations.CommandsAreIgnoredWhileErrorIsRecorded := by
  intro s w rest hp hport herr
  rw [step_write hp hport rfl]
  exact runWord_ignored (s := { s with port := rest }) herr

/-! ### Return from a fault (R248) -/

/-- A write to `CTRL` with `CLRERR` and without `SRST` is the return from a fault. -/
theorem writeCtrl_clrerr {v : Word} (hv : v.toNat % 4 = 2) (s : State) : writeCtrl s v = clearFault s := by
  have hsrst : ctrlSrst v = false := decide_eq_false (by omega)
  have hclrerr : ctrlClrerr v = true := decide_eq_true (by omega)
  simp [writeCtrl, hsrst, hclrerr]

/-- Where no error is recorded the error registers are 0 already (10_state.md R34). -/
theorem clearFault_of_no_error {s : State} (h : s.errorLegal) (herr : s.error.err = false) : clearFault s = s := by
  rw [clearFault, ← h.1 herr]

/-- Settles O19: the write returns from the fault, and without one there is nothing to clear. -/
theorem clearErrClearsTheErrorOnly : Obligations.ClearErrClearsTheErrorOnly := by
  intro s v rest h hport hv
  have hstep : step s = .next (clearFault { s with port := rest }) := by
    rw [step_writeReg h.params hport rfl (by decide), ← writeCtrl_clrerr hv]
    rfl
  refine ⟨hstep, fun herr => ?_⟩
  rw [hstep, clearFault_of_no_error (s := { s with port := rest }) h.error herr]

end Sys2Proof.Machine
end

section
/-! SUPPORT. The proofs of the statements on reset and on the waiting engine (70_reset_and_hazards.md). -/

namespace Sys2Proof.Machine

open Sys2Proof

/-! ### The waiting engine (R271) -/

/-- Settles O16: the parameters are checked first, then the port is looked at. -/
theorem engineWaitsForTheHost : Obligations.EngineWaitsForTheHost :=
  ⟨fun _ hp hport => stepOnce_nil hp hport, fun _ hp => stepOnce_refused hp⟩

/-! ### Reset (R270) and writes to `CTRL` (R29) -/

/-- With `SRST` set the write is a soft reset, whatever `CLRERR` is. -/
theorem writeCtrl_srst {v : Word} (hv : v.toNat % 2 = 1) (s : State) : writeCtrl s v = resetEngine s := by
  have hsrst : ctrlSrst v = true := decide_eq_true hv
  rw [writeCtrl, if_pos hsrst]

/-- The bits above the low two are ignored. -/
theorem writeCtrl_low_bits_clear {v : Word} (hv : v.toNat % 4 = 0) (s : State) : writeCtrl s v = s := by
  have hsrst : ctrlSrst v = false := decide_eq_false (by omega)
  have hclrerr : ctrlClrerr v = false := decide_eq_false (by omega)
  simp [writeCtrl, hsrst, hclrerr]

/-- A write to `CTRL` is one step, whether or not an error is recorded. -/
theorem step_writeCtrl {s : State} {v : Word} {rest : List HostEvent} (hp : s.par.wf = true)
    (hport : s.port = .write 0x004 4 v :: rest) : step s = .next (writeCtrl { s with port := rest } v) :=
  step_writeReg hp hport rfl (by decide)

/-- A hard reset event is one step. -/
theorem step_hardReset {s : State} {rest : List HostEvent} (hp : s.par.wf = true)
    (hport : s.port = .hardReset :: rest) : step s = .next (resetEngine { s with port := rest }) :=
  stepOnce_cons hp hport

/-- Settles O20: both resets are `resetEngine`, which takes all but the parameters, the port and the reads from the
reset state. -/
theorem resetClearsEverything : Obligations.ResetClearsEverything := by
  refine ⟨fun s v rest hp hport hv => ?_, fun s rest hp hport => step_hardReset hp hport,
    fun s v rest hp hport hv => ?_⟩
  · rw [step_writeCtrl hp hport, writeCtrl_srst hv]
    rfl
  · rw [step_writeCtrl hp hport, writeCtrl_low_bits_clear hv]

end Sys2Proof.Machine
end
